-- ==== Sys2Proof/Word.lean ====
section
/-! DEFINITION. The word and byte types of the engine (00_scope.md R6, R8). -/

namespace Sys2Proof

/-- A 64-bit register value, address or immediate: the `u64` of 00_scope.md R8, arithmetic modulo 2^64. -/
abbrev Word := BitVec 64

/-- One byte of the instruction stream or of memory. -/
abbrev Byte := BitVec 8

end Sys2Proof
end

