-- ==== Sys2Proof/Config.lean ====
section
/-! DEFINITION. The parameters of a launch (00_scope.md R6, R7; 10_state.md R34): fixed for a run, chosen by the host.
Their values at reset stand in Machine/Launch.lean, the opcode map of the spec in Decode.lean. The spec leaves no
result of an instruction open (93_implementation_defined.md, table 1), so there is no free value here. -/

namespace Sys2Proof

/-- The number of register slots, `NREG` (00_scope.md R6). -/
def Config.registerCount : Nat := 14

/-- The number of interrupt lines: a vector counts modulo this (00_scope.md R6, 60_exceptions.md R320). -/
def Config.interruptLines : Nat := 64

/-- The size in bytes of a vector-table entry (00_scope.md R6, 60_exceptions.md R325). -/
def Config.vectorEntryBytes : Nat := 8

/-- One region of the memory map: a device, an inclusive range of global addresses, and whether the device sees
addresses counted from the start of the range (20_memory.md R63). `dev` numbers the RAM devices of the launch in the
order of their creation; a number past the last one stands for a device that is not RAM, to which the spec gives no
meaning (20_memory.md R62). -/
structure Region where
  dev : Nat
  first : Word
  last : Word
  rebase : Bool
deriving DecidableEq, Repr

/-- The setting `POPSTATE_COUNTER` (00_scope.md R6, 45_stack_call.md R245): `restore` loads the frame counter from the
popped frame-size word, `carryOn` (the spec's `continue`) leaves it to the pops. -/
inductive PopStateCounter where
  | restore
  | carryOn
deriving DecidableEq, Repr

/-- The mnemonics of the closed instruction set, in the order of 30_encoding.md R110. -/
inductive Mnemonic where
  | nop | ldi | ldbi | ldwi | lddi | ldm | ldbm | ldwm
  | lddm | st | stb | stw | std | tf | addi | subi
  | muli | divi | modi | mulis | divis | add | sub | mul
  | div | mod | muls | divs | andi | ori | xori | noti
  | shli | shri | rori | roli | and | or | xor | not
  | shl | shr | ror | rol | cmp | cmpi | jmp | jeq
  | jne | jgt | jlt | jge | jle | bra | beq | bne
  | bgt | blt | bge | ble | jmpr | jeqr | jner | jgtr
  | jltr | jger | jler | brar | beqr | bner | bgtr | bltr
  | bger | bler | ret | push | pushi | pop | call | callr
  | rtc | clc | sec | clz | sez | cln | sen | clo
  | seo | cli | sei | int | rti | hlt
deriving DecidableEq, Repr

/-- An opcode map: rows of a 16-bit opcode value and the instruction it stands for (30_encoding.md R110). -/
abbrev OpcodeMap := List (Nat × Mnemonic)

/-- The launch parameters and configuration fields of 00_scope.md R6 and R7 that a step reads. -/
structure Params where
  /-- `IVT_BASE`, the base of the interrupt vector table (60_exceptions.md R325). -/
  ivtBase : Word
  /-- `ADDRESS_SPACE_TOP`: SP and FP start one below it (10_state.md R35). -/
  addressSpaceTop : Word
  /-- `MEMORY_MAP`, in search order (20_memory.md R64, R66). -/
  regions : List Region
  /-- `PUSH_COUNTS_FRAME` (45_stack_call.md R240). -/
  pushCountsFrame : Bool
  /-- `POPSTATE_COUNTER` (45_stack_call.md R245). -/
  popStateCounter : PopStateCounter
  /-- `OPCODE_MAP` (30_encoding.md R109, R110): every fetch decodes under it. -/
  opcodeMap : OpcodeMap
deriving DecidableEq, Repr

end Sys2Proof
end

