-- ==== Sys2Proof/Machine/Bytes.lean ====
section
/-! DEFINITION. Byte order: every multi-byte value is little-endian, in the instruction stream, in memory and in the
register file (20_memory.md R72; 90_conflicts.md C10). -/

namespace Sys2Proof.Machine

/-- The low `n` bytes of a number, least significant first (20_memory.md R72). -/
def leBytes : Nat → Nat → List Byte
  | 0, _ => []
  | n + 1, v => BitVec.ofNat 8 v :: leBytes n (v / 256)

/-- The number whose little-endian bytes are given (20_memory.md R61, R72). -/
def leNat : List Byte → Nat
  | [] => 0
  | b :: bs => b.toNat + 256 * leNat bs

/-- The word whose little-endian bytes are given, zero-extended to 64 bits (20_memory.md R70). -/
def leWord (bs : List Byte) : Word := BitVec.ofNat 64 (leNat bs)

end Sys2Proof.Machine
end

