-- ==== Sys2Proof/Syntax.lean ====
section
/-! DEFINITION. Register names and the instruction set: one constructor of `Instr` for each row of
spec/opcode_table.json (30_encoding.md R110). A register operand is one of the 14 slots; an immediate has the
width of its field (30_encoding.md R105, R106). -/

namespace Sys2Proof

/-- The 14 register slots of 10_state.md R20 and R21. -/
inductive Reg where
  | ip | acc | r1 | r2 | r3 | r4 | r5 | r6 | r7 | r8 | sp | fp | mb | im
deriving DecidableEq, Repr

/-- The closed instruction set of 30_encoding.md R110. -/
inductive Instr where
  /-- `NOP`, 48_misc.md R300. -/
  | nop
  /-- `LDI r, imm64`, 40_load_store.md R140. -/
  | ldi (r : Reg) (imm : Word)
  /-- `LDBI r, imm8`, 40_load_store.md R141. -/
  | ldbi (r : Reg) (imm : BitVec 8)
  /-- `LDWI r, imm16`, 40_load_store.md R142. -/
  | ldwi (r : Reg) (imm : BitVec 16)
  /-- `LDDI r, imm32`, 40_load_store.md R143. -/
  | lddi (r : Reg) (imm : BitVec 32)
  /-- `LDM r, addr`, 40_load_store.md R144. -/
  | ldm (r : Reg) (addr : Word)
  /-- `LDBM r, addr`, 40_load_store.md R145. -/
  | ldbm (r : Reg) (addr : Word)
  /-- `LDWM r, addr`, 40_load_store.md R146. -/
  | ldwm (r : Reg) (addr : Word)
  /-- `LDDM r, addr`, 40_load_store.md R147. -/
  | lddm (r : Reg) (addr : Word)
  /-- `ST r, addr`, 40_load_store.md R148. -/
  | st (r : Reg) (addr : Word)
  /-- `STB r, addr`, 40_load_store.md R149. -/
  | stb (r : Reg) (addr : Word)
  /-- `STW r, addr`, 40_load_store.md R150. -/
  | stw (r : Reg) (addr : Word)
  /-- `STD r, addr`, 40_load_store.md R151. -/
  | std (r : Reg) (addr : Word)
  /-- `TF d, s`, 40_load_store.md R152. -/
  | tf (dst : Reg) (src : Reg)
  /-- `ADDI r, imm64`, 41_arithmetic.md R161. -/
  | addi (r : Reg) (imm : Word)
  /-- `SUBI r, imm64`, 41_arithmetic.md R162. -/
  | subi (r : Reg) (imm : Word)
  /-- `MULI r, imm64`, 41_arithmetic.md R163. -/
  | muli (r : Reg) (imm : Word)
  /-- `DIVI r, imm64`, 41_arithmetic.md R164. -/
  | divi (r : Reg) (imm : Word)
  /-- `MODI r, imm64`, 41_arithmetic.md R165. -/
  | modi (r : Reg) (imm : Word)
  /-- `MULIS r, imm64`, 41_arithmetic.md R166. -/
  | mulis (r : Reg) (imm : Word)
  /-- `DIVIS r, imm64`, 41_arithmetic.md R167. -/
  | divis (r : Reg) (imm : Word)
  /-- `ADD d, s`, 41_arithmetic.md R168. -/
  | add (dst : Reg) (src : Reg)
  /-- `SUB d, s`, 41_arithmetic.md R169. -/
  | sub (dst : Reg) (src : Reg)
  /-- `MUL d, s`, 41_arithmetic.md R170. -/
  | mul (dst : Reg) (src : Reg)
  /-- `DIV d, s`, 41_arithmetic.md R171. -/
  | div (dst : Reg) (src : Reg)
  /-- `MOD d, s`, 41_arithmetic.md R172. -/
  | mod (dst : Reg) (src : Reg)
  /-- `MULS d, s`, 41_arithmetic.md R173. -/
  | muls (dst : Reg) (src : Reg)
  /-- `DIVS d, s`, 41_arithmetic.md R174. -/
  | divs (dst : Reg) (src : Reg)
  /-- `ANDI r, imm64`, 42_bitwise.md R181. -/
  | andi (r : Reg) (imm : Word)
  /-- `ORI r, imm64`, 42_bitwise.md R182. -/
  | ori (r : Reg) (imm : Word)
  /-- `XORI r, imm64`, 42_bitwise.md R183. -/
  | xori (r : Reg) (imm : Word)
  /-- `NOTI r, imm64`, 42_bitwise.md R184. -/
  | noti (r : Reg) (imm : Word)
  /-- `SHLI r, imm64`, 42_bitwise.md R185. -/
  | shli (r : Reg) (imm : Word)
  /-- `SHRI r, imm64`, 42_bitwise.md R186. -/
  | shri (r : Reg) (imm : Word)
  /-- `RORI r, imm64`, 42_bitwise.md R187. -/
  | rori (r : Reg) (imm : Word)
  /-- `ROLI r, imm64`, 42_bitwise.md R188. -/
  | roli (r : Reg) (imm : Word)
  /-- `AND d, s`, 42_bitwise.md R189. -/
  | and (dst : Reg) (src : Reg)
  /-- `OR d, s`, 42_bitwise.md R190. -/
  | or (dst : Reg) (src : Reg)
  /-- `XOR d, s`, 42_bitwise.md R191. -/
  | xor (dst : Reg) (src : Reg)
  /-- `NOT d, s`, 42_bitwise.md R192. -/
  | not (dst : Reg) (src : Reg)
  /-- `SHL d, s`, 42_bitwise.md R193. -/
  | shl (dst : Reg) (src : Reg)
  /-- `SHR d, s`, 42_bitwise.md R194. -/
  | shr (dst : Reg) (src : Reg)
  /-- `ROR d, s`, 42_bitwise.md R195. -/
  | ror (dst : Reg) (src : Reg)
  /-- `ROL d, s`, 42_bitwise.md R196. -/
  | rol (dst : Reg) (src : Reg)
  /-- `CMP d, s`, 43_compare.md R200. -/
  | cmp (dst : Reg) (src : Reg)
  /-- `CMPI r, imm64`, 43_compare.md R201. -/
  | cmpi (r : Reg) (imm : Word)
  /-- `JMP addr`, 44_control_flow.md R211. -/
  | jmp (addr : Word)
  /-- `JEQ addr`, 44_control_flow.md R212. -/
  | jeq (addr : Word)
  /-- `JNE addr`, 44_control_flow.md R213. -/
  | jne (addr : Word)
  /-- `JGT addr`, 44_control_flow.md R214. -/
  | jgt (addr : Word)
  /-- `JLT addr`, 44_control_flow.md R215. -/
  | jlt (addr : Word)
  /-- `JGE addr`, 44_control_flow.md R216. -/
  | jge (addr : Word)
  /-- `JLE addr`, 44_control_flow.md R217. -/
  | jle (addr : Word)
  /-- `BRA addr`, 44_control_flow.md R218. -/
  | bra (addr : Word)
  /-- `BEQ addr`, 44_control_flow.md R219. -/
  | beq (addr : Word)
  /-- `BNE addr`, 44_control_flow.md R220. -/
  | bne (addr : Word)
  /-- `BGT addr`, 44_control_flow.md R221. -/
  | bgt (addr : Word)
  /-- `BLT addr`, 44_control_flow.md R222. -/
  | blt (addr : Word)
  /-- `BGE addr`, 44_control_flow.md R223. -/
  | bge (addr : Word)
  /-- `BLE addr`, 44_control_flow.md R224. -/
  | ble (addr : Word)
  /-- `JMPR r`, 44_control_flow.md R225. -/
  | jmpr (r : Reg)
  /-- `JEQR r`, 44_control_flow.md R226. -/
  | jeqr (r : Reg)
  /-- `JNER r`, 44_control_flow.md R227. -/
  | jner (r : Reg)
  /-- `JGTR r`, 44_control_flow.md R228. -/
  | jgtr (r : Reg)
  /-- `JLTR r`, 44_control_flow.md R229. -/
  | jltr (r : Reg)
  /-- `JGER r`, 44_control_flow.md R230. -/
  | jger (r : Reg)
  /-- `JLER r`, 44_control_flow.md R231. -/
  | jler (r : Reg)
  /-- `BRAR r`, 44_control_flow.md R232. -/
  | brar (r : Reg)
  /-- `BEQR r`, 44_control_flow.md R233. -/
  | beqr (r : Reg)
  /-- `BNER r`, 44_control_flow.md R234. -/
  | bner (r : Reg)
  /-- `BGTR r`, 44_control_flow.md R235. -/
  | bgtr (r : Reg)
  /-- `BLTR r`, 44_control_flow.md R236. -/
  | bltr (r : Reg)
  /-- `BGER r`, 44_control_flow.md R237. -/
  | bger (r : Reg)
  /-- `BLER r`, 44_control_flow.md R238. -/
  | bler (r : Reg)
  /-- `RET`, 44_control_flow.md R239. -/
  | ret
  /-- `PUSH r`, 45_stack_call.md R247. -/
  | push (r : Reg)
  /-- `PUSHI imm64`, 45_stack_call.md R248. -/
  | pushi (imm : Word)
  /-- `POP r`, 45_stack_call.md R249. -/
  | pop (r : Reg)
  /-- `CALL addr`, 45_stack_call.md R250. -/
  | call (addr : Word)
  /-- `CALLR r`, 45_stack_call.md R251. -/
  | callr (r : Reg)
  /-- `RTC`, 45_stack_call.md R252. -/
  | rtc
  /-- `CLC`, 46_flag_ops.md R270. -/
  | clc
  /-- `SEC`, 46_flag_ops.md R271. -/
  | sec
  /-- `CLZ`, 46_flag_ops.md R272. -/
  | clz
  /-- `SEZ`, 46_flag_ops.md R273. -/
  | sez
  /-- `CLN`, 46_flag_ops.md R274. -/
  | cln
  /-- `SEN`, 46_flag_ops.md R275. -/
  | sen
  /-- `CLO`, 46_flag_ops.md R276. -/
  | clo
  /-- `SEO`, 46_flag_ops.md R277. -/
  | seo
  /-- `CLI`, 46_flag_ops.md R278. -/
  | cli
  /-- `SEI`, 46_flag_ops.md R279. -/
  | sei
  /-- `INT imm64`, 47_interrupt_ops.md R290. -/
  | int (imm : Word)
  /-- `RTI`, 47_interrupt_ops.md R291. -/
  | rti
  /-- `HLT`, 48_misc.md R301. -/
  | hlt
deriving DecidableEq, Repr

end Sys2Proof
end

