-- ==== Sys2Proof/Decode.lean ====
section
/-! DEFINITION. The decoder, total on any bytes, and the encoder (30_encoding.md), both under an opcode map, which is
configuration (00_scope.md R7). The map of R110 is the table `opcodeMap`; the operand bytes follow in the formats of
R105. -/

namespace Sys2Proof

open Sys2Proof.Machine

/-- The slot number of a register name (10_state.md R21). -/
def Reg.index : Reg → Nat
  | .ip => 0
  | .acc => 1
  | .r1 => 2
  | .r2 => 3
  | .r3 => 4
  | .r4 => 5
  | .r5 => 6
  | .r6 => 7
  | .r7 => 8
  | .r8 => 9
  | .sp => 10
  | .fp => 11
  | .mb => 12
  | .im => 13

/-- The register of a slot number (10_state.md R21); 13 and above give IM, and only numbers below 14 occur. -/
def regOfIndex : Nat → Reg
  | 0 => .ip
  | 1 => .acc
  | 2 => .r1
  | 3 => .r2
  | 4 => .r3
  | 5 => .r4
  | 6 => .r5
  | 7 => .r6
  | 8 => .r7
  | 9 => .r8
  | 10 => .sp
  | 11 => .fp
  | 12 => .mb
  | _ => .im

/-- The register that a raw selector byte names: its value modulo 14, never a fault (10_state.md R22,
30_encoding.md R103, R112). -/
def regOfSelector (b : Byte) : Reg := regOfIndex (b.toNat % 14)

/-- The selector byte of a register, the one below 14 (10_state.md R21). -/
def selectorOf (r : Reg) : Byte := BitVec.ofNat 8 r.index

/-- The operand formats of 30_encoding.md R105, each with the instruction it builds from its operands. -/
inductive Layout where
  | f0 (i : Instr)
  | fr (build : Reg → Instr)
  | frr (build : Reg → Reg → Instr)
  | fri8 (build : Reg → BitVec 8 → Instr)
  | fri16 (build : Reg → BitVec 16 → Instr)
  | fri32 (build : Reg → BitVec 32 → Instr)
  | fri64 (build : Reg → Word → Instr)
  | fra (build : Reg → Word → Instr)
  | fa (build : Word → Instr)
  | fi64 (build : Word → Instr)

/-- The widths in bytes of the operand fields, in fetch order (30_encoding.md R104, R105). -/
def Layout.fields : Layout → List Nat
  | .f0 _ => []
  | .fr _ => [1]
  | .frr _ => [1, 1]
  | .fri8 _ => [1, 1]
  | .fri16 _ => [1, 2]
  | .fri32 _ => [1, 4]
  | .fri64 _ => [1, 8]
  | .fra _ => [1, 8]
  | .fa _ => [8]
  | .fi64 _ => [8]

/-- The length of an instruction of the format in bytes, opcode included (30_encoding.md R105, R107). -/
def Layout.length (l : Layout) : Nat := 2 + l.fields.sum

/-- 30_encoding.md R110, the opcodes of 48_misc.md. -/
def opcodesMisc : OpcodeMap :=
  [ (0x0000, .nop) ]

/-- 30_encoding.md R110, the opcodes of 40_load_store.md. -/
def opcodesLoadStore : OpcodeMap :=
  [ (0x0001, .ldi)
  , (0x0101, .ldbi)
  , (0x0201, .ldwi)
  , (0x0401, .lddi)
  , (0x0002, .ldm)
  , (0x0102, .ldbm)
  , (0x0202, .ldwm)
  , (0x0402, .lddm)
  , (0x0003, .st)
  , (0x0103, .stb)
  , (0x0203, .stw)
  , (0x0403, .std)
  , (0x0004, .tf) ]

/-- 30_encoding.md R110, the opcodes of 41_arithmetic.md. -/
def opcodesArithmetic : OpcodeMap :=
  [ (0x0011, .addi)
  , (0x0012, .subi)
  , (0x0013, .muli)
  , (0x0014, .divi)
  , (0x0015, .modi)
  , (0x0016, .mulis)
  , (0x0017, .divis)
  , (0x0021, .add)
  , (0x0022, .sub)
  , (0x0023, .mul)
  , (0x0024, .div)
  , (0x0025, .mod)
  , (0x0026, .muls)
  , (0x0027, .divs) ]

/-- 30_encoding.md R110, the opcodes of 42_bitwise.md. -/
def opcodesBitwise : OpcodeMap :=
  [ (0x0031, .andi)
  , (0x0032, .ori)
  , (0x0033, .xori)
  , (0x0034, .noti)
  , (0x0035, .shli)
  , (0x0036, .shri)
  , (0x0037, .rori)
  , (0x0038, .roli)
  , (0x0041, .and)
  , (0x0042, .or)
  , (0x0043, .xor)
  , (0x0044, .not)
  , (0x0045, .shl)
  , (0x0046, .shr)
  , (0x0047, .ror)
  , (0x0048, .rol) ]

/-- 30_encoding.md R110, the opcodes of 43_compare.md. -/
def opcodesCompare : OpcodeMap :=
  [ (0x0051, .cmp)
  , (0x0052, .cmpi) ]

/-- 30_encoding.md R110, the opcodes of 44_control_flow.md. -/
def opcodesControlFlow : OpcodeMap :=
  [ (0x0061, .jmp)
  , (0x0062, .jeq)
  , (0x0063, .jne)
  , (0x0064, .jgt)
  , (0x0065, .jlt)
  , (0x0066, .jge)
  , (0x0067, .jle)
  , (0x0071, .bra)
  , (0x0072, .beq)
  , (0x0073, .bne)
  , (0x0074, .bgt)
  , (0x0075, .blt)
  , (0x0076, .bge)
  , (0x0077, .ble)
  , (0x0161, .jmpr)
  , (0x0162, .jeqr)
  , (0x0163, .jner)
  , (0x0164, .jgtr)
  , (0x0165, .jltr)
  , (0x0166, .jger)
  , (0x0167, .jler)
  , (0x0171, .brar)
  , (0x0172, .beqr)
  , (0x0173, .bner)
  , (0x0174, .bgtr)
  , (0x0175, .bltr)
  , (0x0176, .bger)
  , (0x0177, .bler)
  , (0x0081, .ret) ]

/-- 30_encoding.md R110, the opcodes of 45_stack_call.md. -/
def opcodesStackCall : OpcodeMap :=
  [ (0x0091, .push)
  , (0x0092, .pushi)
  , (0x0093, .pop)
  , (0x00A1, .call)
  , (0x00A2, .callr)
  , (0x00A3, .rtc) ]

/-- 30_encoding.md R110, the opcodes of 46_flag_ops.md. -/
def opcodesFlagOps : OpcodeMap :=
  [ (0x00B1, .clc)
  , (0x00B2, .sec)
  , (0x00B3, .clz)
  , (0x00B4, .sez)
  , (0x00B5, .cln)
  , (0x00B6, .sen)
  , (0x00B7, .clo)
  , (0x00B8, .seo)
  , (0x00B9, .cli)
  , (0x00BA, .sei) ]

/-- 30_encoding.md R110, the opcodes of 47_interrupt_ops.md. -/
def opcodesInterruptOps : OpcodeMap :=
  [ (0x00C1, .int)
  , (0x00C2, .rti) ]

/-- 30_encoding.md R110, the opcodes of 48_misc.md. -/
def opcodesMisc2 : OpcodeMap :=
  [ (0xFFFF, .hlt) ]

/-- 30_encoding.md R110: the whole opcode map, 94 rows, the value of `OPCODE_MAP` that 00_scope.md R6 states. -/
def opcodeMap : OpcodeMap :=
  opcodesMisc ++ opcodesLoadStore ++ opcodesArithmetic ++ opcodesBitwise ++ opcodesCompare ++ opcodesControlFlow ++ opcodesStackCall ++ opcodesFlagOps ++ opcodesInterruptOps ++ opcodesMisc2

/-- The operand format of a mnemonic, with the instruction it builds (30_encoding.md R110, its format column). -/
def Mnemonic.layout : Mnemonic → Layout
  | .nop => .f0 .nop
  | .ldi => .fri64 .ldi
  | .ldbi => .fri8 .ldbi
  | .ldwi => .fri16 .ldwi
  | .lddi => .fri32 .lddi
  | .ldm => .fra .ldm
  | .ldbm => .fra .ldbm
  | .ldwm => .fra .ldwm
  | .lddm => .fra .lddm
  | .st => .fra .st
  | .stb => .fra .stb
  | .stw => .fra .stw
  | .std => .fra .std
  | .tf => .frr .tf
  | .addi => .fri64 .addi
  | .subi => .fri64 .subi
  | .muli => .fri64 .muli
  | .divi => .fri64 .divi
  | .modi => .fri64 .modi
  | .mulis => .fri64 .mulis
  | .divis => .fri64 .divis
  | .add => .frr .add
  | .sub => .frr .sub
  | .mul => .frr .mul
  | .div => .frr .div
  | .mod => .frr .mod
  | .muls => .frr .muls
  | .divs => .frr .divs
  | .andi => .fri64 .andi
  | .ori => .fri64 .ori
  | .xori => .fri64 .xori
  | .noti => .fri64 .noti
  | .shli => .fri64 .shli
  | .shri => .fri64 .shri
  | .rori => .fri64 .rori
  | .roli => .fri64 .roli
  | .and => .frr .and
  | .or => .frr .or
  | .xor => .frr .xor
  | .not => .frr .not
  | .shl => .frr .shl
  | .shr => .frr .shr
  | .ror => .frr .ror
  | .rol => .frr .rol
  | .cmp => .frr .cmp
  | .cmpi => .fri64 .cmpi
  | .jmp => .fa .jmp
  | .jeq => .fa .jeq
  | .jne => .fa .jne
  | .jgt => .fa .jgt
  | .jlt => .fa .jlt
  | .jge => .fa .jge
  | .jle => .fa .jle
  | .bra => .fa .bra
  | .beq => .fa .beq
  | .bne => .fa .bne
  | .bgt => .fa .bgt
  | .blt => .fa .blt
  | .bge => .fa .bge
  | .ble => .fa .ble
  | .jmpr => .fr .jmpr
  | .jeqr => .fr .jeqr
  | .jner => .fr .jner
  | .jgtr => .fr .jgtr
  | .jltr => .fr .jltr
  | .jger => .fr .jger
  | .jler => .fr .jler
  | .brar => .fr .brar
  | .beqr => .fr .beqr
  | .bner => .fr .bner
  | .bgtr => .fr .bgtr
  | .bltr => .fr .bltr
  | .bger => .fr .bger
  | .bler => .fr .bler
  | .ret => .f0 .ret
  | .push => .fr .push
  | .pushi => .fi64 .pushi
  | .pop => .fr .pop
  | .call => .fa .call
  | .callr => .fr .callr
  | .rtc => .f0 .rtc
  | .clc => .f0 .clc
  | .sec => .f0 .sec
  | .clz => .f0 .clz
  | .sez => .f0 .sez
  | .cln => .f0 .cln
  | .sen => .f0 .sen
  | .clo => .f0 .clo
  | .seo => .f0 .seo
  | .cli => .f0 .cli
  | .sei => .f0 .sei
  | .int => .fi64 .int
  | .rti => .f0 .rti
  | .hlt => .f0 .hlt

/-- The format and instruction of an opcode in a map, none for an illegal one: a match on the full 16-bit value
(30_encoding.md R109, R111). -/
def layoutOf (m : OpcodeMap) (op : BitVec 16) : Option Layout := (m.lookup op.toNat).map Mnemonic.layout

/-- Why bytes are no instruction: the opcode is not in the map (30_encoding.md R111), or there are fewer bytes than
the format of the opcode takes. -/
inductive DecodeError where
  | invalidOpcode (op : BitVec 16)
  | truncated
deriving DecidableEq, Repr

/-- The first `n` bytes as a little-endian number, and the bytes after them. -/
def takeLe (n : Nat) (bs : List Byte) : Except DecodeError (Nat × List Byte) :=
  if n ≤ bs.length then .ok (leNat (bs.take n), bs.drop n) else .error .truncated

/-- A register operand: one selector byte (30_encoding.md R103). -/
def takeReg : List Byte → Except DecodeError (Reg × List Byte)
  | [] => .error .truncated
  | b :: bs => .ok (regOfSelector b, bs)

/-- The instruction that a format reads from its operand bytes: the register selectors first, the destination before
the source, then the immediate or address (30_encoding.md R104, R105, R106). -/
def Layout.read : Layout → List Byte → Except DecodeError (Instr × List Byte)
  | .f0 i, bs => .ok (i, bs)
  | .fr build, bs => do
    let (r, bs) ← takeReg bs
    .ok (build r, bs)
  | .frr build, bs => do
    let (d, bs) ← takeReg bs
    let (t, bs) ← takeReg bs
    .ok (build d t, bs)
  | .fri8 build, bs => do
    let (r, bs) ← takeReg bs
    let (v, bs) ← takeLe 1 bs
    .ok (build r (BitVec.ofNat 8 v), bs)
  | .fri16 build, bs => do
    let (r, bs) ← takeReg bs
    let (v, bs) ← takeLe 2 bs
    .ok (build r (BitVec.ofNat 16 v), bs)
  | .fri32 build, bs => do
    let (r, bs) ← takeReg bs
    let (v, bs) ← takeLe 4 bs
    .ok (build r (BitVec.ofNat 32 v), bs)
  | .fri64 build, bs => do
    let (r, bs) ← takeReg bs
    let (v, bs) ← takeLe 8 bs
    .ok (build r (BitVec.ofNat 64 v), bs)
  | .fra build, bs => do
    let (r, bs) ← takeReg bs
    let (v, bs) ← takeLe 8 bs
    .ok (build r (BitVec.ofNat 64 v), bs)
  | .fa build, bs => do
    let (v, bs) ← takeLe 8 bs
    .ok (build (BitVec.ofNat 64 v), bs)
  | .fi64 build, bs => do
    let (v, bs) ← takeLe 8 bs
    .ok (build (BitVec.ofNat 64 v), bs)

/-- The opcode in two bytes, low byte first (30_encoding.md R105). -/
def opcodeOfBytes (lo hi : Byte) : BitVec 16 := BitVec.ofNat 16 (leNat [lo, hi])

/-- The decoder under an opcode map: the instruction at the front of the bytes and the bytes after it, or why there is
none (30_encoding.md R102, R105, R111). -/
def decode (m : OpcodeMap) : List Byte → Except DecodeError (Instr × List Byte)
  | lo :: hi :: bs =>
    match layoutOf m (opcodeOfBytes lo hi) with
    | some l => l.read bs
    | none => .error (.invalidOpcode (opcodeOfBytes lo hi))
  | _ => .error .truncated

/-- The two bytes of an opcode (30_encoding.md R105). -/
def op16 (op : Nat) : List Byte := leBytes 2 op

/-- The mnemonic of an instruction (30_encoding.md R110). -/
def Instr.mnemonic : Instr → Mnemonic
  | .nop => .nop
  | .ldi _ _ => .ldi
  | .ldbi _ _ => .ldbi
  | .ldwi _ _ => .ldwi
  | .lddi _ _ => .lddi
  | .ldm _ _ => .ldm
  | .ldbm _ _ => .ldbm
  | .ldwm _ _ => .ldwm
  | .lddm _ _ => .lddm
  | .st _ _ => .st
  | .stb _ _ => .stb
  | .stw _ _ => .stw
  | .std _ _ => .std
  | .tf _ _ => .tf
  | .addi _ _ => .addi
  | .subi _ _ => .subi
  | .muli _ _ => .muli
  | .divi _ _ => .divi
  | .modi _ _ => .modi
  | .mulis _ _ => .mulis
  | .divis _ _ => .divis
  | .add _ _ => .add
  | .sub _ _ => .sub
  | .mul _ _ => .mul
  | .div _ _ => .div
  | .mod _ _ => .mod
  | .muls _ _ => .muls
  | .divs _ _ => .divs
  | .andi _ _ => .andi
  | .ori _ _ => .ori
  | .xori _ _ => .xori
  | .noti _ _ => .noti
  | .shli _ _ => .shli
  | .shri _ _ => .shri
  | .rori _ _ => .rori
  | .roli _ _ => .roli
  | .and _ _ => .and
  | .or _ _ => .or
  | .xor _ _ => .xor
  | .not _ _ => .not
  | .shl _ _ => .shl
  | .shr _ _ => .shr
  | .ror _ _ => .ror
  | .rol _ _ => .rol
  | .cmp _ _ => .cmp
  | .cmpi _ _ => .cmpi
  | .jmp _ => .jmp
  | .jeq _ => .jeq
  | .jne _ => .jne
  | .jgt _ => .jgt
  | .jlt _ => .jlt
  | .jge _ => .jge
  | .jle _ => .jle
  | .bra _ => .bra
  | .beq _ => .beq
  | .bne _ => .bne
  | .bgt _ => .bgt
  | .blt _ => .blt
  | .bge _ => .bge
  | .ble _ => .ble
  | .jmpr _ => .jmpr
  | .jeqr _ => .jeqr
  | .jner _ => .jner
  | .jgtr _ => .jgtr
  | .jltr _ => .jltr
  | .jger _ => .jger
  | .jler _ => .jler
  | .brar _ => .brar
  | .beqr _ => .beqr
  | .bner _ => .bner
  | .bgtr _ => .bgtr
  | .bltr _ => .bltr
  | .bger _ => .bger
  | .bler _ => .bler
  | .ret => .ret
  | .push _ => .push
  | .pushi _ => .pushi
  | .pop _ => .pop
  | .call _ => .call
  | .callr _ => .callr
  | .rtc => .rtc
  | .clc => .clc
  | .sec => .sec
  | .clz => .clz
  | .sez => .sez
  | .cln => .cln
  | .sen => .sen
  | .clo => .clo
  | .seo => .seo
  | .cli => .cli
  | .sei => .sei
  | .int _ => .int
  | .rti => .rti
  | .hlt => .hlt

/-- The operand bytes of an instruction, in fetch order (30_encoding.md R104, R105), with the selector of each register
below 14. -/
def operandBytes : Instr → List Byte
  | .nop => []
  | .ldi r imm => selectorOf r :: leBytes 8 imm.toNat
  | .ldbi r imm => selectorOf r :: leBytes 1 imm.toNat
  | .ldwi r imm => selectorOf r :: leBytes 2 imm.toNat
  | .lddi r imm => selectorOf r :: leBytes 4 imm.toNat
  | .ldm r addr => selectorOf r :: leBytes 8 addr.toNat
  | .ldbm r addr => selectorOf r :: leBytes 8 addr.toNat
  | .ldwm r addr => selectorOf r :: leBytes 8 addr.toNat
  | .lddm r addr => selectorOf r :: leBytes 8 addr.toNat
  | .st r addr => selectorOf r :: leBytes 8 addr.toNat
  | .stb r addr => selectorOf r :: leBytes 8 addr.toNat
  | .stw r addr => selectorOf r :: leBytes 8 addr.toNat
  | .std r addr => selectorOf r :: leBytes 8 addr.toNat
  | .tf dst src => [selectorOf dst, selectorOf src]
  | .addi r imm => selectorOf r :: leBytes 8 imm.toNat
  | .subi r imm => selectorOf r :: leBytes 8 imm.toNat
  | .muli r imm => selectorOf r :: leBytes 8 imm.toNat
  | .divi r imm => selectorOf r :: leBytes 8 imm.toNat
  | .modi r imm => selectorOf r :: leBytes 8 imm.toNat
  | .mulis r imm => selectorOf r :: leBytes 8 imm.toNat
  | .divis r imm => selectorOf r :: leBytes 8 imm.toNat
  | .add dst src => [selectorOf dst, selectorOf src]
  | .sub dst src => [selectorOf dst, selectorOf src]
  | .mul dst src => [selectorOf dst, selectorOf src]
  | .div dst src => [selectorOf dst, selectorOf src]
  | .mod dst src => [selectorOf dst, selectorOf src]
  | .muls dst src => [selectorOf dst, selectorOf src]
  | .divs dst src => [selectorOf dst, selectorOf src]
  | .andi r imm => selectorOf r :: leBytes 8 imm.toNat
  | .ori r imm => selectorOf r :: leBytes 8 imm.toNat
  | .xori r imm => selectorOf r :: leBytes 8 imm.toNat
  | .noti r imm => selectorOf r :: leBytes 8 imm.toNat
  | .shli r imm => selectorOf r :: leBytes 8 imm.toNat
  | .shri r imm => selectorOf r :: leBytes 8 imm.toNat
  | .rori r imm => selectorOf r :: leBytes 8 imm.toNat
  | .roli r imm => selectorOf r :: leBytes 8 imm.toNat
  | .and dst src => [selectorOf dst, selectorOf src]
  | .or dst src => [selectorOf dst, selectorOf src]
  | .xor dst src => [selectorOf dst, selectorOf src]
  | .not dst src => [selectorOf dst, selectorOf src]
  | .shl dst src => [selectorOf dst, selectorOf src]
  | .shr dst src => [selectorOf dst, selectorOf src]
  | .ror dst src => [selectorOf dst, selectorOf src]
  | .rol dst src => [selectorOf dst, selectorOf src]
  | .cmp dst src => [selectorOf dst, selectorOf src]
  | .cmpi r imm => selectorOf r :: leBytes 8 imm.toNat
  | .jmp addr => leBytes 8 addr.toNat
  | .jeq addr => leBytes 8 addr.toNat
  | .jne addr => leBytes 8 addr.toNat
  | .jgt addr => leBytes 8 addr.toNat
  | .jlt addr => leBytes 8 addr.toNat
  | .jge addr => leBytes 8 addr.toNat
  | .jle addr => leBytes 8 addr.toNat
  | .bra addr => leBytes 8 addr.toNat
  | .beq addr => leBytes 8 addr.toNat
  | .bne addr => leBytes 8 addr.toNat
  | .bgt addr => leBytes 8 addr.toNat
  | .blt addr => leBytes 8 addr.toNat
  | .bge addr => leBytes 8 addr.toNat
  | .ble addr => leBytes 8 addr.toNat
  | .jmpr r => [selectorOf r]
  | .jeqr r => [selectorOf r]
  | .jner r => [selectorOf r]
  | .jgtr r => [selectorOf r]
  | .jltr r => [selectorOf r]
  | .jger r => [selectorOf r]
  | .jler r => [selectorOf r]
  | .brar r => [selectorOf r]
  | .beqr r => [selectorOf r]
  | .bner r => [selectorOf r]
  | .bgtr r => [selectorOf r]
  | .bltr r => [selectorOf r]
  | .bger r => [selectorOf r]
  | .bler r => [selectorOf r]
  | .ret => []
  | .push r => [selectorOf r]
  | .pushi imm => leBytes 8 imm.toNat
  | .pop r => [selectorOf r]
  | .call addr => leBytes 8 addr.toNat
  | .callr r => [selectorOf r]
  | .rtc => []
  | .clc => []
  | .sec => []
  | .clz => []
  | .sez => []
  | .cln => []
  | .sen => []
  | .clo => []
  | .seo => []
  | .cli => []
  | .sei => []
  | .int imm => leBytes 8 imm.toNat
  | .rti => []
  | .hlt => []

/-- The opcode that a map gives a mnemonic, none where it has no row for it. -/
def opcodeFor (m : OpcodeMap) (n : Mnemonic) : Option Nat := (m.find? (fun row => row.2 == n)).map Prod.fst

/-- The bytes of an instruction: its opcode in the map, then its operands (30_encoding.md R105); none where the map
gives it no opcode. -/
def encode (m : OpcodeMap) (i : Instr) : Option (List Byte) :=
  (opcodeFor m i.mnemonic).map (fun op => op16 op ++ operandBytes i)

/-- The length of the longest instruction in bytes (30_encoding.md R100). -/
def longestInstr : Nat := 11

/-- The bytes of an instruction whose bits are the low `nbits` of `w`, with zero bytes up to the longest instruction:
bit 0 is the least significant bit of the first byte. -/
def tableBytes (nbits w : Nat) : List Byte := leBytes longestInstr (w % 2 ^ nbits)

/-- The instruction that the decoder reads from the bytes of a row of the opcode table. -/
def decodeTableWord (nbits w : Nat) : Option Instr :=
  match decode opcodeMap (tableBytes nbits w) with
  | .ok (i, _) => some i
  | .error _ => none

end Sys2Proof
end

