-- ==== Sys2Proof/Machine/Launch.lean ====
section
/-! DEFINITION. The launch parameters of `State.reset`: the common setup of 95_test_vectors.md (its parts 2 and 3), the
only concrete setup the spec gives. DESIGN CHOICE, log 2: the source fixes none of these values. -/

namespace Sys2Proof.Machine

/-- The size of the one RAM device of the common setup. -/
def setupRamBytes : Nat := 0x10000

/-- The common setup: one RAM at [0x0000, 0xFFFF] without rebasing, `IVT_BASE` 0x8000, `ADDRESS_SPACE_TOP` 0xF000,
with the switches and the opcode map of 00_scope.md R6. -/
def setupParams : Params where
  ivtBase := 0x8000
  addressSpaceTop := 0xF000
  regions := [{ dev := 0, first := 0x0000, last := 0xFFFF, rebase := false }]
  pushCountsFrame := true
  popStateCounter := .restore
  opcodeMap := opcodeMap

end Sys2Proof.Machine
end

