-- ==== Sys2Proof/Machine/State.lean ====
section
/-! DEFINITION. The state of the engine as plain data, the reasons a step can stop, and the state after reset
(10_state.md). -/

namespace Sys2Proof.Machine

/-- The 14 slots of the register file, in slot order (10_state.md R20, R21). -/
structure RegFile where
  ip : Word
  acc : Word
  r1 : Word
  r2 : Word
  r3 : Word
  r4 : Word
  r5 : Word
  r6 : Word
  r7 : Word
  r8 : Word
  sp : Word
  fp : Word
  mb : Word
  im : Word
deriving DecidableEq, Repr

/-- The five flags (10_state.md R27): Carry, Zero, Negative, Overflow and the in-handler flag (R28). -/
structure Flags where
  c : Bool
  z : Bool
  n : Bool
  o : Bool
  i : Bool
deriving DecidableEq, Repr

/-- The contents of a RAM device: the bytes at device-local addresses, sparse, an unlisted address holding 0
(20_memory.md R61). The canonical form is `Memory.wf` of Machine/Memory.lean. -/
abbrev Memory := List Host.Cell

/-- A RAM device: its fixed size in bytes and its contents (20_memory.md R61). -/
structure Device where
  size : Nat
  cells : Memory
deriving DecidableEq, Repr

/-- The kinds of fault with their recorded information (60_exceptions.md R310). Every one is terminal (R311). Stopping
is SAFE for each: nothing is claimed of what the reference does there. There is no constructor for UnknownRegisterName,
which cannot be raised (93_implementation_defined.md I17). -/
inductive FaultKind where
  /-- Raised by any bus access of `width` bytes at global address `addr` that runs past the end of its device
  (20_memory.md R61). Safe: the spec states this fault. -/
  | outOfBounds (addr : Word) (width : Nat)
  /-- Raised by any bus access whose address no region contains (20_memory.md R66). Safe: the spec states this fault. -/
  | unmappedAddress (addr : Word)
  /-- Raised by the host's `map` call when `start > end` (20_memory.md R64). Safe: the spec states this fault. -/
  | invalidRange
  /-- Raised by the host's `map` call when the range meets a mapped one (20_memory.md R64). Safe: the spec states it. -/
  | overlappingRegion
  /-- Raised by the decode of an opcode outside the map (48_misc.md R302). Safe: the spec states this fault. -/
  | invalidOpcode (op : BitVec 16)
  /-- Raised by DIV, DIVI, MOD, MODI, DIVS, DIVIS with divisor 0 (41_arithmetic.md R175). Safe: the spec stops here,
  the reference may go on (92_eei_decisions.md D10). -/
  | divideByZero
  /-- Raised by DIVS, DIVIS on -2^63 divided by -1 (41_arithmetic.md R175). Safe: as `divideByZero`. -/
  | divideOverflow
  /-- Raised by a shift or rotate whose amount is out of range, with that amount (42_bitwise.md R180). Safe: the spec
  stops here, the reference may go on (92_eei_decisions.md D12). -/
  | undefinedShift (amount : Word)
deriving DecidableEq, Repr

/-- The run state (10_state.md R33). -/
inductive RunState where
  | running
  | halted
  | faulted (kind : FaultKind)
deriving DecidableEq, Repr

/-- One move of the host between steps (60_exceptions.md R346): a request for an instruction step, or the delivery of
an interrupt vector (R327). -/
inductive HostMove where
  | step
  | deliver (vector : Word)
deriving DecidableEq, Repr

/-- The state of the engine, with the parameters it was launched with and the host's coming moves. -/
structure State where
  /-- The register file (10_state.md R20). -/
  regs : RegFile
  /-- The flags register (10_state.md R27). -/
  flags : Flags
  /-- The hidden frame counter (10_state.md R30). -/
  stackFrameSize : Word
  /-- The run state (10_state.md R33). -/
  run : RunState
  /-- The RAM devices, in the order of their creation (20_memory.md R61). -/
  devices : List Device
  /-- The parameters of the launch, which no step changes (10_state.md R34). DESIGN CHOICE, log 1. -/
  params : Params
  /-- What the host does at the next instruction boundaries; past the end of the list it asks for plain steps. The
  model's own field, DESIGN CHOICE, log 4. -/
  hostMoves : List HostMove
deriving DecidableEq, Repr

/-- Why the engine stops: `halt kind final` is raised by every faulting statement, with the whole state the fault
leaves, in which the run state is Faulted(kind) (60_exceptions.md R311; log 3). Safe: nothing of the state is lost. -/
inductive Fault where
  | halt (kind : FaultKind) (final : State)
deriving DecidableEq, Repr

/-- What the model gives no meaning to. -/
inductive Refusal where
  /-- An instruction whose meaning is not written. Safe. No arm of `exec` answers with it. -/
  | notModelled (mnemonic : String)
  /-- Raised by an access to a region, or a mapping of a region, bound to a device that is not one of the RAM devices
  of the launch (20_memory.md R62, 93_implementation_defined.md I16). Safe: the model stops where such a device acts. -/
  | deviceNotRam (dev : Nat)
deriving DecidableEq, Repr

/-- The register file at reset: IM all ones, SP and FP one below the top of the address space, all else zero
(10_state.md R35). -/
def RegFile.launched (p : Params) : RegFile where
  ip := 0
  acc := 0
  r1 := 0
  r2 := 0
  r3 := 0
  r4 := 0
  r5 := 0
  r6 := 0
  r7 := 0
  r8 := 0
  sp := p.addressSpaceTop - 1
  fp := p.addressSpaceTop - 1
  mb := 0
  im := 0xFFFFFFFFFFFFFFFF

/-- The state right after a core is constructed on a bus with these devices and parameters (10_state.md R35,
70_reset_and_hazards.md R360), the host asking for plain steps. -/
def State.launch (p : Params) (devices : List Device) : State where
  regs := RegFile.launched p
  flags := { c := false, z := false, n := false, o := false, i := false }
  stackFrameSize := 0
  run := .running
  devices := devices
  params := p
  hostMoves := []

/-- The machine right after reset, in the common setup of 95_test_vectors.md (log 2), memory with nothing listed. -/
def State.reset : State := State.launch setupParams [{ size := setupRamBytes, cells := [] }]

end Sys2Proof.Machine
end

