-- ==== Sys2Proof/Machine/Flags.lean ====
section
/-! DEFINITION. The flag computations of the arithmetic, logic, shift and compare families (41_arithmetic.md R160,
42_bitwise.md R180, 43_compare.md) and the seven conditions (44_control_flow.md R210). -/

namespace Sys2Proof.Machine

/-- Whether the carry heuristic asks for a result below or above the first operand (41_arithmetic.md R160). -/
inductive CarryTest where
  | below
  | above
deriving DecidableEq, Repr

/-- The carry heuristic on a result and the first operand, as signed or unsigned values (41_arithmetic.md R160). It is
kept as it stands, not replaced by a true carry (R176). -/
def carryOf (t : CarryTest) (signed : Bool) (a res : Word) : Bool :=
  match t, signed with
  | .below, false => decide (res.toNat < a.toNat)
  | .above, false => decide (a.toNat < res.toNat)
  | .below, true => decide (res.toInt < a.toInt)
  | .above, true => decide (a.toInt < res.toInt)

/-- `F.Z` and `F.N` of a result: zero, and bit 63 (41_arithmetic.md R160, 42_bitwise.md R180). -/
def Flags.withZN (f : Flags) (res : Word) : Flags := { f with z := decide (res = 0), n := res.getLsbD 63 }

/-- `ArithFlags` of 41_arithmetic.md R160: Z and N of the result, C and O both the heuristic, I unchanged. -/
def arithFlags (t : CarryTest) (signed : Bool) (a res : Word) (f : Flags) : Flags :=
  { f.withZN res with c := carryOf t signed a res, o := carryOf t signed a res }

/-- `LogicFlags` of 42_bitwise.md R180: Z and N of the result, the others unchanged. -/
def logicFlags (res : Word) (f : Flags) : Flags := f.withZN res

/-- `ShiftFlags` of 42_bitwise.md R180: Z, N and the unsigned heuristic in C; O and I unchanged. -/
def shiftFlags (t : CarryTest) (a res : Word) (f : Flags) : Flags := { f.withZN res with c := carryOf t false a res }

/-- The flags of a comparison: C, Z and N of the difference as unsigned subtraction sets them, O and I unchanged
(43_compare.md R200; 90_conflicts.md C11). -/
def compareFlags (a b : Word) (f : Flags) : Flags := { f.withZN (a - b) with c := carryOf .above false a (a - b) }

/-- The seven conditions of 44_control_flow.md R210. -/
inductive Cond where
  | always | eq | ne | gt | lt | ge | le
deriving DecidableEq, Repr

/-- The tests of 44_control_flow.md R210; only Z and N are read. -/
def Cond.holds (c : Cond) (f : Flags) : Bool :=
  match c with
  | .always => true
  | .eq => f.z
  | .ne => !f.z
  | .gt => !f.z && !f.n
  | .lt => f.n
  | .ge => !f.n
  | .le => f.z || f.n

end Sys2Proof.Machine
end

