-- ==== Sys2Proof/Machine/Memory.lean ====
section
/-! DEFINITION. The contents of a RAM device in canonical form: addresses strictly rising, no entry equal to the 0 that an
unlisted address reads as (20_memory.md R61). -/

namespace Sys2Proof.Machine

/-- Addresses from `lo` up, strictly rising, and no zero byte listed. -/
def Memory.wfFrom (lo : Nat) : Memory → Bool
  | [] => true
  | (a, b) :: m => decide (lo ≤ a) && decide (b ≠ 0) && Memory.wfFrom (a + 1) m

/-- The canonical form. -/
def Memory.wf (m : Memory) : Bool := Memory.wfFrom 0 m

/-- What an unlisted address reads as: RAM is zero-initialized (20_memory.md R61, R80). -/
def unlistedByte : Byte := 0

/-- The byte at a device-local address (20_memory.md R61). -/
def Memory.get : Memory → Nat → Byte
  | [], _ => unlistedByte
  | (a, b) :: m, k => if a = k then b else Memory.get m k

/-- The contents without an entry for an address. -/
def Memory.erase : Memory → Nat → Memory
  | [], _ => []
  | (a, c) :: m, k => if a = k then Memory.erase m k else (a, c) :: Memory.erase m k

/-- Insert an entry before the first greater address. -/
def Memory.insert : Memory → Nat → Byte → Memory
  | [], k, b => [(k, b)]
  | (a, c) :: m, k, b => if k < a then (k, b) :: (a, c) :: m else (a, c) :: Memory.insert m k b

/-- Write one byte, keeping the canonical form: the value that an unlisted address reads as removes the entry. -/
def Memory.put (m : Memory) (k : Nat) (b : Byte) : Memory :=
  if b = unlistedByte then Memory.erase m k else Memory.insert (Memory.erase m k) k b

/-- Read `n` bytes from an address up (20_memory.md R61, `RamRead`). -/
def Memory.load (m : Memory) (off : Nat) : Nat → List Byte
  | 0 => []
  | n + 1 => Memory.get m off :: Memory.load m (off + 1) n

/-- Write bytes from an address up (20_memory.md R61, `RamWrite`). -/
def Memory.store (m : Memory) (off : Nat) : List Byte → Memory
  | [] => m
  | b :: bs => Memory.store (Memory.put m off b) (off + 1) bs

/-- A device's contents are canonical and lie below its size. -/
def Device.wf (d : Device) : Bool := Memory.wf d.cells && d.cells.all (fun c => decide (c.1 < d.size))

end Sys2Proof.Machine
end

