-- ==== Sys2Proof/WellFormed.lean ====
section
/-! DEFINITION. What a well-formed instruction, memory map and opcode map are. -/

namespace Sys2Proof

/-- Every instruction is well formed: no selector is illegal and immediates and addresses take every value of their
width (30_encoding.md R112), which the types of `Instr` already say. -/
def Instr.wellFormed (_ : Instr) : Bool := true

/-- A global address lies in the region's inclusive range (20_memory.md R63). -/
def Region.covers (g : Region) (a : Word) : Bool := decide (g.first.toNat ≤ a.toNat ∧ a.toNat ≤ g.last.toNat)

/-- The range of a region is not reversed, `start ≤ end` (20_memory.md R63). -/
def Region.ordered (g : Region) : Bool := decide (g.first.toNat ≤ g.last.toNat)

/-- Two ranges share at least one address (20_memory.md R64; 90_conflicts.md C5: any intersection counts, also one
range strictly inside the other). -/
def Region.overlaps (g h : Region) : Bool := decide (g.first.toNat ≤ h.last.toNat ∧ h.first.toNat ≤ g.last.toNat)

/-- The region is bound to a RAM device of the launch (20_memory.md R62). -/
def Region.boundToRam (deviceCount : Nat) (g : Region) : Bool := decide (g.dev < deviceCount)

/-- The invariants of a memory map: every region is ordered and bound to RAM, and no two regions overlap
(20_memory.md R62, R63, R64). -/
def wellFormedMap (deviceCount : Nat) : List Region → Bool
  | [] => true
  | g :: gs => g.ordered && g.boundToRam deviceCount && gs.all (fun h => !g.overlaps h) && wellFormedMap deviceCount gs

/-- The 94 mnemonics (30_encoding.md R110). -/
def Mnemonic.all : List Mnemonic :=
  [ .nop, .ldi, .ldbi, .ldwi, .lddi, .ldm, .ldbm, .ldwm, .lddm, .st,
    .stb, .stw, .std, .tf, .addi, .subi, .muli, .divi, .modi, .mulis,
    .divis, .add, .sub, .mul, .div, .mod, .muls, .divs, .andi, .ori,
    .xori, .noti, .shli, .shri, .rori, .roli, .and, .or, .xor, .not,
    .shl, .shr, .ror, .rol, .cmp, .cmpi, .jmp, .jeq, .jne, .jgt,
    .jlt, .jge, .jle, .bra, .beq, .bne, .bgt, .blt, .bge, .ble,
    .jmpr, .jeqr, .jner, .jgtr, .jltr, .jger, .jler, .brar, .beqr, .bner,
    .bgtr, .bltr, .bger, .bler, .ret, .push, .pushi, .pop, .call, .callr,
    .rtc, .clc, .sec, .clz, .sez, .cln, .sen, .clo, .seo, .cli,
    .sei, .int, .rti, .hlt ]

/-- The invariants of an opcode map: the opcodes are different 16-bit values, and each mnemonic has exactly one
(30_encoding.md R109, R110). -/
def OpcodeMap.wf (m : OpcodeMap) : Bool :=
  m.all (fun row => decide (row.1 < 65536)) && decide (m.map Prod.fst).Nodup && decide (m.map Prod.snd).Nodup &&
    Mnemonic.all.all (fun n => (m.map Prod.snd).contains n)

end Sys2Proof
end

