-- ==== Sys2Proof/Machine/Operands.lean ====
section
/-! DEFINITION. The operand forms: register slots, immediates, and the slices that the narrow stores take
(10_state.md R22 to R24, 30_encoding.md R106, 40_load_store.md R149 to R151). -/

namespace Sys2Proof.Machine

/-- Read a slot (10_state.md R20, R23). -/
def RegFile.get (f : RegFile) : Reg → Word
  | .ip => f.ip
  | .acc => f.acc
  | .r1 => f.r1
  | .r2 => f.r2
  | .r3 => f.r3
  | .r4 => f.r4
  | .r5 => f.r5
  | .r6 => f.r6
  | .r7 => f.r7
  | .r8 => f.r8
  | .sp => f.sp
  | .fp => f.fp
  | .mb => f.mb
  | .im => f.im

/-- Write a slot; no slot is read-only or hardwired (10_state.md R24). -/
def RegFile.set (f : RegFile) (r : Reg) (v : Word) : RegFile :=
  match r with
  | .ip => { f with ip := v }
  | .acc => { f with acc := v }
  | .r1 => { f with r1 := v }
  | .r2 => { f with r2 := v }
  | .r3 => { f with r3 := v }
  | .r4 => { f with r4 := v }
  | .r5 => { f with r5 := v }
  | .r6 => { f with r6 := v }
  | .r7 => { f with r7 := v }
  | .r8 => { f with r8 := v }
  | .sp => { f with sp := v }
  | .fp => { f with fp := v }
  | .mb => { f with mb := v }
  | .im => { f with im := v }

/-- `x[r]` of 00_scope.md R9. -/
def State.reg (s : State) (r : Reg) : Word := s.regs.get r

/-- `x[r] <- v` of 00_scope.md R9. Writing IP transfers control (10_state.md R24). -/
def State.setReg (s : State) (r : Reg) (v : Word) : State := { s with regs := s.regs.set r v }

/-- Replace the flags. -/
def State.setFlags (s : State) (f : Flags) : State := { s with flags := f }

/-- Replace the frame counter (10_state.md R30). -/
def State.setFrameSize (s : State) (v : Word) : State := { s with stackFrameSize := v }

/-- `zext_64`: a narrow immediate with zero bits above it (00_scope.md R9, 30_encoding.md R106). -/
def zext64 {w : Nat} (v : BitVec w) : Word := v.setWidth 64

/-- `v[hi:lo]` of 00_scope.md R8, as a 64-bit value. -/
def bitField (hi lo : Nat) (v : Word) : Word := (v.extractLsb hi lo).setWidth 64

/-- The slots in index order (10_state.md R21). -/
def allRegs : List Reg := [.ip, .acc, .r1, .r2, .r3, .r4, .r5, .r6, .r7, .r8, .sp, .fp, .mb, .im]

/-- The register file as a device of 112 bytes: the slots one after the other, each little-endian (10_state.md R20,
R23). -/
def RegFile.bytes (f : RegFile) : List Byte := allRegs.flatMap (fun r => leBytes 8 (f.get r).toNat)

/-- The flags as the five-bit value of 10_state.md R27: C, Z, N, O, I from bit 0 up. No instruction reads it. -/
def Flags.bits (f : Flags) : BitVec 5 :=
  (BitVec.ofBool f.i ++ BitVec.ofBool f.o ++ BitVec.ofBool f.n ++ BitVec.ofBool f.z ++ BitVec.ofBool f.c)

end Sys2Proof.Machine
end

