-- ==== Sys2Proof/Machine/Ops.lean ====
section
/-! DEFINITION. The shared operations: the bus (20_memory.md), the stack and frame protocol (45_stack_call.md) and
interrupt entry and return (60_exceptions.md). -/

namespace Sys2Proof.Machine

open Host (Outcome)

/-- What a statement of a meaning answers. -/
abbrev Result (α : Type) := Outcome α Fault Refusal

/-- What a bus access answers, before a fault is joined with the state it leaves. -/
abbrev Access (α : Type) := Outcome α FaultKind Refusal

/-- Statements in order: the second runs only if the first answered, and a fault or refusal ends the sequence
(00_scope.md R10). -/
def andThen {α β : Type} (x : Result α) (f : α → Result β) : Result β :=
  match x with
  | .next a => f a
  | .fault r => .fault r
  | .refused r => .refused r

/-- `raise Fault(kind)`: the engine stops in the state it has reached, with the run state Faulted(kind); nothing is
rolled back (60_exceptions.md R311). -/
def raise {α : Type} (k : FaultKind) (s : State) : Result α := .fault (.halt k { s with run := .faulted k })

/-- A bus access made in state `s`: its fault is raised there. -/
def during {α β : Type} (s : State) (x : Access α) (f : α → Result β) : Result β :=
  match x with
  | .next a => f a
  | .fault k => raise k s
  | .refused r => .refused r

/-- `findRegion`: the first region that contains the address (20_memory.md R66). -/
def findRegion (gs : List Region) (a : Word) : Option Region := gs.find? (fun g => g.covers a)

/-- The effective address: counted from the start of a rebasing region, else unchanged (20_memory.md R67). -/
def Region.effective (g : Region) (a : Word) : Word := if g.rebase then a - g.first else a

/-- Where an access lands: a device and a device-local address. -/
structure Loc where
  dev : Nat
  off : Nat
deriving DecidableEq, Repr

/-- Route an access of `n` bytes at a global address: region lookup by its first byte alone, then the exact bound of
the device alone (20_memory.md R61, R68; 60_exceptions.md R313 for the order). -/
def locate (s : State) (a : Word) (n : Nat) : Access Loc :=
  match findRegion s.params.regions a with
  | none => .fault (.unmappedAddress a)
  | some g =>
    match s.devices[g.dev]? with
    | none => .refused (.deviceNotRam g.dev)
    | some d =>
      if d.size < (Region.effective g a).toNat + n then .fault (.outOfBounds a n)
      else .next { dev := g.dev, off := (Region.effective g a).toNat }

/-- The byte of a device at a device-local address. -/
def State.byteAt (s : State) (dev off : Nat) : Byte :=
  match s.devices[dev]? with
  | some d => d.cells.get off
  | none => unlistedByte

/-- The `n` bytes from a location up. -/
def State.loadAt (s : State) (l : Loc) (n : Nat) : List Byte :=
  match s.devices[l.dev]? with
  | some d => d.cells.load l.off n
  | none => []

/-- Store bytes from a location up. -/
def State.storeAt (s : State) (l : Loc) (bs : List Byte) : State :=
  { s with devices := s.devices.modify l.dev (fun d => { d with cells := d.cells.store l.off bs }) }

/-- The bytes read by `BusRead` (20_memory.md R68). -/
def memReadBytes (s : State) (a : Word) (n : Nat) : Access (List Byte) :=
  match locate s a n with
  | .next l => .next (s.loadAt l n)
  | .fault k => .fault k
  | .refused r => .refused r

/-- `MemRead(a, n)`: the little-endian value of `n` bytes, zero-extended (20_memory.md R70). -/
def memRead (s : State) (a : Word) (n : Nat) : Access Word :=
  match memReadBytes s a n with
  | .next bs => .next (leWord bs)
  | .fault k => .fault k
  | .refused r => .refused r

/-- `MemWrite(a, n, v)`: the low `n` bytes of the value, little-endian; nothing is written on a fault
(20_memory.md R61, R71). -/
def memWrite (a : Word) (n : Nat) (v : Word) (s : State) : Result State :=
  during s (locate s a n) fun l => .next (s.storeAt l (leBytes n v.toNat))

/-- The narrow `push` of 45_stack_call.md R242: `n` bytes at SP, then SP down by `n`. No opcode uses it. -/
def pushNarrow (n : Nat) (v : Word) (s : State) : Result State :=
  andThen (memWrite (s.reg .sp) n v s) fun s1 => .next (s1.setReg .sp (s1.reg .sp - BitVec.ofNat 64 n))

/-- The narrow `pop` of 45_stack_call.md R242: SP up by `n`, then `n` bytes read there. No opcode uses it. -/
def popNarrow (n : Nat) (s : State) : Result (Word × State) :=
  let s1 := s.setReg .sp (s.reg .sp + BitVec.ofNat 64 n)
  during s1 (memRead s1 (s1.reg .sp) n) fun v => .next (v, s1)

/-- `push64` of 45_stack_call.md R240: write at SP, then SP down by 8, then the counter up by 8 if pushes count. -/
def push64 (v : Word) (s : State) : Result State :=
  andThen (memWrite (s.reg .sp) 8 v s) fun s1 =>
    let s2 := s1.setReg .sp (s1.reg .sp - 8)
    .next (if s2.params.pushCountsFrame then s2.setFrameSize (s2.stackFrameSize + 8) else s2)

/-- `pop64` of 45_stack_call.md R241: SP up by 8, then the read there (SP stays up if it faults), then the counter down
by 8. -/
def pop64 (s : State) : Result (Word × State) :=
  let s1 := s.setReg .sp (s.reg .sp + 8)
  during s1 (memRead s1 (s1.reg .sp) 8) fun v => .next (v, s1.setFrameSize (s1.stackFrameSize - 8))

/-- Push registers one after the other. -/
def pushRegs : List Reg → State → Result State
  | [], s => .next s
  | r :: rs, s => andThen (push64 (s.reg r) s) fun s1 => pushRegs rs s1

/-- Pop into registers one after the other. -/
def popRegs : List Reg → State → Result State
  | [], s => .next s
  | r :: rs, s => andThen (pop64 s) fun p => popRegs rs (p.2.setReg r p.1)

/-- Pop and discard `n` words. -/
def discardWords : Nat → State → Result State
  | 0, s => .next s
  | n + 1, s => andThen (pop64 s) fun p => discardWords n p.2

/-- The registers that a frame saves, in push order (45_stack_call.md R244). -/
def frameRegs : List Reg := [.r1, .r2, .r3, .r4, .r5, .r6, .r7, .r8, .ip]

/-- `pushState` of 45_stack_call.md R244: R1 to R8, IP, the frame size plus 8, then FP to SP and the counter to 0. -/
def pushState (s : State) : Result State :=
  andThen (pushRegs frameRegs s) fun s1 =>
    andThen (push64 (s1.stackFrameSize + 8) s1) fun s2 =>
      .next ((s2.setReg .fp (s2.reg .sp)).setFrameSize 0)

/-- The counter after the frame-size word is popped: loaded from it under `restore` (45_stack_call.md R245). -/
def restoreCounter (size : Word) (s : State) : State :=
  match s.params.popStateCounter with
  | .restore => s.setFrameSize size
  | .carryOn => s

/-- `popState` of 45_stack_call.md R245: SP from FP, the frame size, IP, R8 to R1, the argument count and as many
discarded words, then FP from the old FP plus the frame size. -/
def popState (s : State) : Result State :=
  andThen (pop64 (s.setReg .sp (s.reg .fp))) fun p =>
    andThen (popRegs frameRegs.reverse (restoreCounter p.1 p.2)) fun s2 =>
      andThen (pop64 s2) fun q =>
        andThen (discardWords q.1.toNat q.2) fun s4 =>
          .next (s4.setReg .fp (s.reg .fp + p.1))

/-- Set or clear the in-handler flag (10_state.md R28). -/
def State.setInHandler (s : State) (b : Bool) : State := s.setFlags { s.flags with i := b }

/-- The address of a vector-table entry, modulo 2^64 (60_exceptions.md R325). -/
def vectorAddress (p : Params) (line : Nat) : Word := p.ivtBase + BitVec.ofNat 64 (Config.vectorEntryBytes * line)

/-- The frame that interrupt entry saves unless it is nested: the zero argument count, then `pushState`
(60_exceptions.md R320, R322, R323). -/
def saveInterruptFrame (s : State) : Result State :=
  if s.flags.i then .next s else andThen (push64 0 s) pushState

/-- `handleInterrupt(v)` of 60_exceptions.md R320, the one way into a handler for INT and for hardware requests: a
masked line changes nothing; else the handler's address is read, a frame saved unless in a handler, F.I set and IP
redirected. -/
def handleInterrupt (v : Word) (s : State) : Result State :=
  let line := v.toNat % Config.interruptLines
  if (s.reg .im).getLsbD line then
    during s (memRead s (vectorAddress s.params line) 8) fun handler =>
      andThen (saveInterruptFrame s) fun s1 => .next ((s1.setInHandler true).setReg .ip handler)
  else .next s

/-- Return from interrupt (47_interrupt_ops.md R291): F.I cleared, then `popState`. -/
def returnFromInterrupt (s : State) : Result State := popState (s.setInHandler false)

end Sys2Proof.Machine
end

