-- ==== Sys2Proof/Machine/Arithmetic.lean ====
section
/-! DEFINITION. Integer arithmetic (41_arithmetic.md): the result goes into the first register operand, and C, Z, N and O
follow R160. -/

namespace Sys2Proof.Machine

open Host (Outcome)

/-- The seven operations (41_arithmetic.md R175). -/
inductive ArithOp where
  | add | sub | mul | div | mod | muls | divs
deriving DecidableEq, Repr

/-- The carry test of an operation: below for addition and multiplication, above for the rest (41_arithmetic.md
R160). -/
def ArithOp.carryTest : ArithOp → CarryTest
  | .add => .below
  | .mul => .below
  | .muls => .below
  | .sub => .above
  | .div => .above
  | .mod => .above
  | .divs => .above

/-- Whether the carry test compares signed values: the S variants (41_arithmetic.md R160). -/
def ArithOp.signed : ArithOp → Bool
  | .muls => true
  | .divs => true
  | .add => false
  | .sub => false
  | .mul => false
  | .div => false
  | .mod => false

/-- The result, or the fault: addition, subtraction and multiplication wrap, unsigned division and remainder are
exact, signed division truncates toward zero (41_arithmetic.md R161 to R175). -/
def ArithOp.compute (op : ArithOp) (a b : Word) : Except FaultKind Word :=
  match op with
  | .add => .ok (a + b)
  | .sub => .ok (a - b)
  | .mul => .ok (BitVec.ofNat 64 (a.toNat * b.toNat))
  | .muls => .ok (BitVec.ofInt 64 (a.toInt * b.toInt))
  | .div => if b = 0 then .error .divideByZero else .ok (BitVec.ofNat 64 (a.toNat / b.toNat))
  | .mod => if b = 0 then .error .divideByZero else .ok (BitVec.ofNat 64 (a.toNat % b.toNat))
  | .divs =>
    if b = 0 then .error .divideByZero
    else if a.toInt = -2 ^ 63 ∧ b.toInt = -1 then .error .divideOverflow
    else .ok (BitVec.ofInt 64 (a.toInt.tdiv b.toInt))

/-- An arithmetic instruction on its destination and second operand; a fault writes neither register nor flag
(41_arithmetic.md R160 to R174). -/
def arith (op : ArithOp) (dst : Reg) (b : Word) (s : State) : Result State :=
  match op.compute (s.reg dst) b with
  | .error k => raise k s
  | .ok res => .next ((s.setReg dst res).setFlags (arithFlags op.carryTest op.signed (s.reg dst) res s.flags))

/-- ADDI, R161. -/
def execAddi (r : Reg) (imm : Word) (s : State) : Outcome State Fault Refusal := arith .add r imm s

/-- SUBI, R162. -/
def execSubi (r : Reg) (imm : Word) (s : State) : Outcome State Fault Refusal := arith .sub r imm s

/-- MULI, R163. -/
def execMuli (r : Reg) (imm : Word) (s : State) : Outcome State Fault Refusal := arith .mul r imm s

/-- DIVI, R164. -/
def execDivi (r : Reg) (imm : Word) (s : State) : Outcome State Fault Refusal := arith .div r imm s

/-- MODI, R165. -/
def execModi (r : Reg) (imm : Word) (s : State) : Outcome State Fault Refusal := arith .mod r imm s

/-- MULIS, R166. -/
def execMulis (r : Reg) (imm : Word) (s : State) : Outcome State Fault Refusal := arith .muls r imm s

/-- DIVIS, R167. -/
def execDivis (r : Reg) (imm : Word) (s : State) : Outcome State Fault Refusal := arith .divs r imm s

/-- ADD, R168. -/
def execAdd (dst src : Reg) (s : State) : Outcome State Fault Refusal := arith .add dst (s.reg src) s

/-- SUB, R169. -/
def execSub (dst src : Reg) (s : State) : Outcome State Fault Refusal := arith .sub dst (s.reg src) s

/-- MUL, R170. -/
def execMul (dst src : Reg) (s : State) : Outcome State Fault Refusal := arith .mul dst (s.reg src) s

/-- DIV, R171. -/
def execDiv (dst src : Reg) (s : State) : Outcome State Fault Refusal := arith .div dst (s.reg src) s

/-- MOD, R172. -/
def execMod (dst src : Reg) (s : State) : Outcome State Fault Refusal := arith .mod dst (s.reg src) s

/-- MULS, R173. -/
def execMuls (dst src : Reg) (s : State) : Outcome State Fault Refusal := arith .muls dst (s.reg src) s

/-- DIVS, R174. -/
def execDivs (dst src : Reg) (s : State) : Outcome State Fault Refusal := arith .divs dst (s.reg src) s

end Sys2Proof.Machine
end

