-- ==== Sys2Proof/Machine/Bitwise.lean ====
section
/-! DEFINITION. Bitwise, shift and rotate (42_bitwise.md): the result goes into the first register operand; Z and N are
always written, C by shifts and rotates alone, O by none. -/

namespace Sys2Proof.Machine

open Host (Outcome)

/-- A logic instruction with a given result (42_bitwise.md R180, `LogicFlags`). -/
def logic (dst : Reg) (res : Word) (s : State) : Result State :=
  .next ((s.setReg dst res).setFlags (logicFlags res s.flags))

/-- The four kinds of shift and rotate (42_bitwise.md R180). -/
inductive ShiftOp where
  | shl | shr | ror | rol
deriving DecidableEq, Repr

/-- The carry test of a kind: below for left moves, above for right moves (42_bitwise.md R180). -/
def ShiftOp.carryTest : ShiftOp → CarryTest
  | .shl => .below
  | .rol => .below
  | .shr => .above
  | .ror => .above

/-- `CheckShift` of 42_bitwise.md R180 (90_conflicts.md C13): shifts take 0 to 63, rotates 1 to 63, of the full 64-bit
amount. -/
def ShiftOp.allows (op : ShiftOp) (n : Word) : Bool :=
  match op with
  | .shl => decide (n.toNat < 64)
  | .shr => decide (n.toNat < 64)
  | .ror => decide (n ≠ 0 ∧ n.toNat < 64)
  | .rol => decide (n ≠ 0 ∧ n.toNat < 64)

/-- `SHL(a, n)` of 42_bitwise.md R180: the product with 2^n, modulo 2^64. -/
def shiftLeft (a : Word) (n : Nat) : Word := BitVec.ofNat 64 (a.toNat * 2 ^ n)

/-- `SHR(a, n)` of 42_bitwise.md R180: logical, zero fill. -/
def shiftRight (a : Word) (n : Nat) : Word := BitVec.ofNat 64 (a.toNat / 2 ^ n)

/-- The result of a shift or rotate by an allowed amount (42_bitwise.md R180). -/
def ShiftOp.compute (op : ShiftOp) (a : Word) (n : Nat) : Word :=
  match op with
  | .shl => shiftLeft a n
  | .shr => shiftRight a n
  | .rol => shiftLeft a n ||| shiftRight a (64 - n)
  | .ror => shiftRight a n ||| shiftLeft a (64 - n)

/-- A shift or rotate of the destination by an amount; an amount out of range faults before anything is written
(42_bitwise.md R180). -/
def shift (op : ShiftOp) (dst : Reg) (n : Word) (s : State) : Result State :=
  if op.allows n then
    let res := op.compute (s.reg dst) n.toNat
    .next ((s.setReg dst res).setFlags (shiftFlags op.carryTest (s.reg dst) res s.flags))
  else raise (.undefinedShift n) s

/-- ANDI, R181. -/
def execAndi (r : Reg) (imm : Word) (s : State) : Outcome State Fault Refusal := logic r (s.reg r &&& imm) s

/-- ORI, R182. -/
def execOri (r : Reg) (imm : Word) (s : State) : Outcome State Fault Refusal := logic r (s.reg r ||| imm) s

/-- XORI, R183. -/
def execXori (r : Reg) (imm : Word) (s : State) : Outcome State Fault Refusal := logic r (s.reg r ^^^ imm) s

/-- NOTI, R184: the complement of the immediate; the old register value is no input. -/
def execNoti (r : Reg) (imm : Word) (s : State) : Outcome State Fault Refusal := logic r (~~~imm) s

/-- SHLI, R185. -/
def execShli (r : Reg) (imm : Word) (s : State) : Outcome State Fault Refusal := shift .shl r imm s

/-- SHRI, R186. -/
def execShri (r : Reg) (imm : Word) (s : State) : Outcome State Fault Refusal := shift .shr r imm s

/-- RORI, R187. -/
def execRori (r : Reg) (imm : Word) (s : State) : Outcome State Fault Refusal := shift .ror r imm s

/-- ROLI, R188. -/
def execRoli (r : Reg) (imm : Word) (s : State) : Outcome State Fault Refusal := shift .rol r imm s

/-- AND, R189. -/
def execAnd (dst src : Reg) (s : State) : Outcome State Fault Refusal := logic dst (s.reg dst &&& s.reg src) s

/-- OR, R190. -/
def execOr (dst src : Reg) (s : State) : Outcome State Fault Refusal := logic dst (s.reg dst ||| s.reg src) s

/-- XOR, R191. -/
def execXor (dst src : Reg) (s : State) : Outcome State Fault Refusal := logic dst (s.reg dst ^^^ s.reg src) s

/-- NOT, R192: the complement of the source; the old destination is no input. -/
def execNot (dst src : Reg) (s : State) : Outcome State Fault Refusal := logic dst (~~~(s.reg src)) s

/-- SHL, R193. -/
def execShl (dst src : Reg) (s : State) : Outcome State Fault Refusal := shift .shl dst (s.reg src) s

/-- SHR, R194. -/
def execShr (dst src : Reg) (s : State) : Outcome State Fault Refusal := shift .shr dst (s.reg src) s

/-- ROR, R195. -/
def execRor (dst src : Reg) (s : State) : Outcome State Fault Refusal := shift .ror dst (s.reg src) s

/-- ROL, R196. -/
def execRol (dst src : Reg) (s : State) : Outcome State Fault Refusal := shift .rol dst (s.reg src) s

end Sys2Proof.Machine
end

