-- ==== Sys2Proof/Machine/Compare.lean ====
section
/-! DEFINITION. Compare (43_compare.md): C, Z and N as subtraction sets them, the difference discarded, O and I unchanged. -/

namespace Sys2Proof.Machine

open Host (Outcome)

/-- A comparison of two values (43_compare.md R200, R201). -/
def compareWords (a b : Word) (s : State) : Result State := .next (s.setFlags (compareFlags a b s.flags))

/-- CMP, R200. -/
def execCmp (dst src : Reg) (s : State) : Outcome State Fault Refusal := compareWords (s.reg dst) (s.reg src) s

/-- CMPI, R201. -/
def execCmpi (r : Reg) (imm : Word) (s : State) : Outcome State Fault Refusal := compareWords (s.reg r) imm s

end Sys2Proof.Machine
end

