-- ==== Sys2Proof/Machine/ControlFlow.lean ====
section
/-! DEFINITION. Jumps, branches and RET (44_control_flow.md). No instruction of this file writes a flag. -/

namespace Sys2Proof.Machine

open Host (Outcome)

/-- The jump template of 44_control_flow.md R210: IP to the target if the condition holds. -/
def jump (c : Cond) (target : Word) (s : State) : Result State :=
  if c.holds s.flags then .next (s.setReg .ip target) else .next s

/-- The branch template of 44_control_flow.md R210: if the condition holds, IP pushed and then set to the target, which
was read before the push; else nothing. -/
def branch (c : Cond) (target : Word) (s : State) : Result State :=
  if c.holds s.flags then andThen (push64 (s.reg .ip) s) fun s1 => .next (s1.setReg .ip target) else .next s

/-- JMP, R211. -/
def execJmp (addr : Word) (s : State) : Outcome State Fault Refusal := jump .always addr s

/-- JEQ, R212. -/
def execJeq (addr : Word) (s : State) : Outcome State Fault Refusal := jump .eq addr s

/-- JNE, R213. -/
def execJne (addr : Word) (s : State) : Outcome State Fault Refusal := jump .ne addr s

/-- JGT, R214. -/
def execJgt (addr : Word) (s : State) : Outcome State Fault Refusal := jump .gt addr s

/-- JLT, R215. -/
def execJlt (addr : Word) (s : State) : Outcome State Fault Refusal := jump .lt addr s

/-- JGE, R216. -/
def execJge (addr : Word) (s : State) : Outcome State Fault Refusal := jump .ge addr s

/-- JLE, R217. -/
def execJle (addr : Word) (s : State) : Outcome State Fault Refusal := jump .le addr s

/-- BRA, R218. -/
def execBra (addr : Word) (s : State) : Outcome State Fault Refusal := branch .always addr s

/-- BEQ, R219. -/
def execBeq (addr : Word) (s : State) : Outcome State Fault Refusal := branch .eq addr s

/-- BNE, R220. -/
def execBne (addr : Word) (s : State) : Outcome State Fault Refusal := branch .ne addr s

/-- BGT, R221. -/
def execBgt (addr : Word) (s : State) : Outcome State Fault Refusal := branch .gt addr s

/-- BLT, R222. -/
def execBlt (addr : Word) (s : State) : Outcome State Fault Refusal := branch .lt addr s

/-- BGE, R223. -/
def execBge (addr : Word) (s : State) : Outcome State Fault Refusal := branch .ge addr s

/-- BLE, R224. -/
def execBle (addr : Word) (s : State) : Outcome State Fault Refusal := branch .le addr s

/-- JMPR, R225. -/
def execJmpr (r : Reg) (s : State) : Outcome State Fault Refusal := jump .always (s.reg r) s

/-- JEQR, R226. -/
def execJeqr (r : Reg) (s : State) : Outcome State Fault Refusal := jump .eq (s.reg r) s

/-- JNER, R227. -/
def execJner (r : Reg) (s : State) : Outcome State Fault Refusal := jump .ne (s.reg r) s

/-- JGTR, R228. -/
def execJgtr (r : Reg) (s : State) : Outcome State Fault Refusal := jump .gt (s.reg r) s

/-- JLTR, R229. -/
def execJltr (r : Reg) (s : State) : Outcome State Fault Refusal := jump .lt (s.reg r) s

/-- JGER, R230. -/
def execJger (r : Reg) (s : State) : Outcome State Fault Refusal := jump .ge (s.reg r) s

/-- JLER, R231. -/
def execJler (r : Reg) (s : State) : Outcome State Fault Refusal := jump .le (s.reg r) s

/-- BRAR, R232. -/
def execBrar (r : Reg) (s : State) : Outcome State Fault Refusal := branch .always (s.reg r) s

/-- BEQR, R233. -/
def execBeqr (r : Reg) (s : State) : Outcome State Fault Refusal := branch .eq (s.reg r) s

/-- BNER, R234. -/
def execBner (r : Reg) (s : State) : Outcome State Fault Refusal := branch .ne (s.reg r) s

/-- BGTR, R235. -/
def execBgtr (r : Reg) (s : State) : Outcome State Fault Refusal := branch .gt (s.reg r) s

/-- BLTR, R236. -/
def execBltr (r : Reg) (s : State) : Outcome State Fault Refusal := branch .lt (s.reg r) s

/-- BGER, R237. -/
def execBger (r : Reg) (s : State) : Outcome State Fault Refusal := branch .ge (s.reg r) s

/-- BLER, R238. -/
def execBler (r : Reg) (s : State) : Outcome State Fault Refusal := branch .le (s.reg r) s

/-- RET, R239: IP popped, without a frame. -/
def execRet (s : State) : Outcome State Fault Refusal := andThen (pop64 s) fun p => .next (p.2.setReg .ip p.1)

end Sys2Proof.Machine
end

