-- ==== Sys2Proof/Machine/FlagOps.lean ====
section
/-! DEFINITION. Flag set and clear (46_flag_ops.md): each instruction sets exactly one flag to a constant (R280;
90_conflicts.md C1). -/

namespace Sys2Proof.Machine

open Host (Outcome)

/-- CLC, R270. -/
def execClc (s : State) : Outcome State Fault Refusal := .next (s.setFlags { s.flags with c := false })

/-- SEC, R271. -/
def execSec (s : State) : Outcome State Fault Refusal := .next (s.setFlags { s.flags with c := true })

/-- CLZ, R272. -/
def execClz (s : State) : Outcome State Fault Refusal := .next (s.setFlags { s.flags with z := false })

/-- SEZ, R273. -/
def execSez (s : State) : Outcome State Fault Refusal := .next (s.setFlags { s.flags with z := true })

/-- CLN, R274. -/
def execCln (s : State) : Outcome State Fault Refusal := .next (s.setFlags { s.flags with n := false })

/-- SEN, R275. -/
def execSen (s : State) : Outcome State Fault Refusal := .next (s.setFlags { s.flags with n := true })

/-- CLO, R276. -/
def execClo (s : State) : Outcome State Fault Refusal := .next (s.setFlags { s.flags with o := false })

/-- SEO, R277. -/
def execSeo (s : State) : Outcome State Fault Refusal := .next (s.setFlags { s.flags with o := true })

/-- CLI, R278. -/
def execCli (s : State) : Outcome State Fault Refusal := .next (s.setFlags { s.flags with i := false })

/-- SEI, R279. -/
def execSei (s : State) : Outcome State Fault Refusal := .next (s.setFlags { s.flags with i := true })

end Sys2Proof.Machine
end

