-- ==== Sys2Proof/Machine/Interrupt.lean ====
section
/-! DEFINITION. Interrupt instructions (47_interrupt_ops.md). -/

namespace Sys2Proof.Machine

open Host (Outcome)

/-- INT, R290: the same path as a hardware request, with IP after the instruction. -/
def execInt (imm : Word) (s : State) : Outcome State Fault Refusal := handleInterrupt imm s

/-- RTI, R291. -/
def execRti (s : State) : Outcome State Fault Refusal := returnFromInterrupt s

end Sys2Proof.Machine
end

