-- ==== Sys2Proof/Machine/LoadStore.lean ====
section
/-! DEFINITION. Load, store and move (40_load_store.md). No instruction of this file writes a flag. -/

namespace Sys2Proof.Machine

open Host (Outcome)

/-- Load `n` bytes at an absolute address into a whole register, zero-extended (40_load_store.md R144 to R147, R153). -/
def loadMem (n : Nat) (r : Reg) (a : Word) (s : State) : Result State :=
  during s (memRead s a n) fun v => .next (s.setReg r v)

/-- LDI, R140. -/
def execLdi (r : Reg) (imm : Word) (s : State) : Outcome State Fault Refusal := .next (s.setReg r imm)

/-- LDBI, R141. -/
def execLdbi (r : Reg) (imm : BitVec 8) (s : State) : Outcome State Fault Refusal := .next (s.setReg r (zext64 imm))

/-- LDWI, R142. -/
def execLdwi (r : Reg) (imm : BitVec 16) (s : State) : Outcome State Fault Refusal := .next (s.setReg r (zext64 imm))

/-- LDDI, R143. -/
def execLddi (r : Reg) (imm : BitVec 32) (s : State) : Outcome State Fault Refusal := .next (s.setReg r (zext64 imm))

/-- LDM, R144. -/
def execLdm (r : Reg) (addr : Word) (s : State) : Outcome State Fault Refusal := loadMem 8 r addr s

/-- LDBM, R145. -/
def execLdbm (r : Reg) (addr : Word) (s : State) : Outcome State Fault Refusal := loadMem 1 r addr s

/-- LDWM, R146. -/
def execLdwm (r : Reg) (addr : Word) (s : State) : Outcome State Fault Refusal := loadMem 2 r addr s

/-- LDDM, R147. -/
def execLddm (r : Reg) (addr : Word) (s : State) : Outcome State Fault Refusal := loadMem 4 r addr s

/-- ST, R148: the whole register. -/
def execSt (r : Reg) (addr : Word) (s : State) : Outcome State Fault Refusal := memWrite addr 8 (s.reg r) s

/-- STB, R149: bits 63..56 (90_conflicts.md C3). -/
def execStb (r : Reg) (addr : Word) (s : State) : Outcome State Fault Refusal :=
  memWrite addr 1 (bitField 63 56 (s.reg r)) s

/-- STW, R150: bits 63..48 (90_conflicts.md C3). -/
def execStw (r : Reg) (addr : Word) (s : State) : Outcome State Fault Refusal :=
  memWrite addr 2 (bitField 63 48 (s.reg r)) s

/-- STD, R151: bits 63..32 (90_conflicts.md C3). -/
def execStd (r : Reg) (addr : Word) (s : State) : Outcome State Fault Refusal :=
  memWrite addr 4 (bitField 63 32 (s.reg r)) s

/-- TF, R152. -/
def execTf (dst src : Reg) (s : State) : Outcome State Fault Refusal := .next (s.setReg dst (s.reg src))

end Sys2Proof.Machine
end

