-- ==== Sys2Proof/Machine/Misc.lean ====
section
/-! DEFINITION. NOP and HLT (48_misc.md). -/

namespace Sys2Proof.Machine

open Host (Outcome)

/-- NOP, R300. -/
def execNop (s : State) : Outcome State Fault Refusal := .next s

/-- HLT, R301: the run state becomes Halted; nothing else changes. -/
def execHlt (s : State) : Outcome State Fault Refusal := .next { s with run := .halted }

end Sys2Proof.Machine
end

