-- ==== Sys2Proof/Machine/StackCall.lean ====
section
/-! DEFINITION. Stack instructions and calls (45_stack_call.md). No instruction of this file writes a flag. -/

namespace Sys2Proof.Machine

open Host (Outcome)

/-- A call with a full frame to a target that was read before (45_stack_call.md R250, R251). -/
def call (target : Word) (s : State) : Result State :=
  andThen (pushState s) fun s1 => .next (s1.setReg .ip target)

/-- PUSH, R247: the register is read before the push. -/
def execPush (r : Reg) (s : State) : Outcome State Fault Refusal := push64 (s.reg r) s

/-- PUSHI, R248. -/
def execPushi (imm : Word) (s : State) : Outcome State Fault Refusal := push64 imm s

/-- POP, R249: the register is written after SP is incremented. -/
def execPop (r : Reg) (s : State) : Outcome State Fault Refusal := andThen (pop64 s) fun p => .next (p.2.setReg r p.1)

/-- CALL, R250. -/
def execCall (addr : Word) (s : State) : Outcome State Fault Refusal := call addr s

/-- CALLR, R251. -/
def execCallr (r : Reg) (s : State) : Outcome State Fault Refusal := call (s.reg r) s

/-- RTC, R252. -/
def execRtc (s : State) : Outcome State Fault Refusal := popState s

end Sys2Proof.Machine
end

