-- ==== Sys2Proof/Machine/Dispatch.lean ====
section
/-! DEFINITION. The dispatcher: one arm per constructor of `Instr` (30_encoding.md R102, R110). -/

namespace Sys2Proof.Machine

def exec (i : Instr) (s : State) : Host.Outcome State Fault Refusal :=
  match i with
  | .nop => Sys2Proof.Machine.execNop s
  | .ldi r imm => Sys2Proof.Machine.execLdi r imm s
  | .ldbi r imm => Sys2Proof.Machine.execLdbi r imm s
  | .ldwi r imm => Sys2Proof.Machine.execLdwi r imm s
  | .lddi r imm => Sys2Proof.Machine.execLddi r imm s
  | .ldm r addr => Sys2Proof.Machine.execLdm r addr s
  | .ldbm r addr => Sys2Proof.Machine.execLdbm r addr s
  | .ldwm r addr => Sys2Proof.Machine.execLdwm r addr s
  | .lddm r addr => Sys2Proof.Machine.execLddm r addr s
  | .st r addr => Sys2Proof.Machine.execSt r addr s
  | .stb r addr => Sys2Proof.Machine.execStb r addr s
  | .stw r addr => Sys2Proof.Machine.execStw r addr s
  | .std r addr => Sys2Proof.Machine.execStd r addr s
  | .tf dst src => Sys2Proof.Machine.execTf dst src s
  | .addi r imm => Sys2Proof.Machine.execAddi r imm s
  | .subi r imm => Sys2Proof.Machine.execSubi r imm s
  | .muli r imm => Sys2Proof.Machine.execMuli r imm s
  | .divi r imm => Sys2Proof.Machine.execDivi r imm s
  | .modi r imm => Sys2Proof.Machine.execModi r imm s
  | .mulis r imm => Sys2Proof.Machine.execMulis r imm s
  | .divis r imm => Sys2Proof.Machine.execDivis r imm s
  | .add dst src => Sys2Proof.Machine.execAdd dst src s
  | .sub dst src => Sys2Proof.Machine.execSub dst src s
  | .mul dst src => Sys2Proof.Machine.execMul dst src s
  | .div dst src => Sys2Proof.Machine.execDiv dst src s
  | .mod dst src => Sys2Proof.Machine.execMod dst src s
  | .muls dst src => Sys2Proof.Machine.execMuls dst src s
  | .divs dst src => Sys2Proof.Machine.execDivs dst src s
  | .andi r imm => Sys2Proof.Machine.execAndi r imm s
  | .ori r imm => Sys2Proof.Machine.execOri r imm s
  | .xori r imm => Sys2Proof.Machine.execXori r imm s
  | .noti r imm => Sys2Proof.Machine.execNoti r imm s
  | .shli r imm => Sys2Proof.Machine.execShli r imm s
  | .shri r imm => Sys2Proof.Machine.execShri r imm s
  | .rori r imm => Sys2Proof.Machine.execRori r imm s
  | .roli r imm => Sys2Proof.Machine.execRoli r imm s
  | .and dst src => Sys2Proof.Machine.execAnd dst src s
  | .or dst src => Sys2Proof.Machine.execOr dst src s
  | .xor dst src => Sys2Proof.Machine.execXor dst src s
  | .not dst src => Sys2Proof.Machine.execNot dst src s
  | .shl dst src => Sys2Proof.Machine.execShl dst src s
  | .shr dst src => Sys2Proof.Machine.execShr dst src s
  | .ror dst src => Sys2Proof.Machine.execRor dst src s
  | .rol dst src => Sys2Proof.Machine.execRol dst src s
  | .cmp dst src => Sys2Proof.Machine.execCmp dst src s
  | .cmpi r imm => Sys2Proof.Machine.execCmpi r imm s
  | .jmp addr => Sys2Proof.Machine.execJmp addr s
  | .jeq addr => Sys2Proof.Machine.execJeq addr s
  | .jne addr => Sys2Proof.Machine.execJne addr s
  | .jgt addr => Sys2Proof.Machine.execJgt addr s
  | .jlt addr => Sys2Proof.Machine.execJlt addr s
  | .jge addr => Sys2Proof.Machine.execJge addr s
  | .jle addr => Sys2Proof.Machine.execJle addr s
  | .bra addr => Sys2Proof.Machine.execBra addr s
  | .beq addr => Sys2Proof.Machine.execBeq addr s
  | .bne addr => Sys2Proof.Machine.execBne addr s
  | .bgt addr => Sys2Proof.Machine.execBgt addr s
  | .blt addr => Sys2Proof.Machine.execBlt addr s
  | .bge addr => Sys2Proof.Machine.execBge addr s
  | .ble addr => Sys2Proof.Machine.execBle addr s
  | .jmpr r => Sys2Proof.Machine.execJmpr r s
  | .jeqr r => Sys2Proof.Machine.execJeqr r s
  | .jner r => Sys2Proof.Machine.execJner r s
  | .jgtr r => Sys2Proof.Machine.execJgtr r s
  | .jltr r => Sys2Proof.Machine.execJltr r s
  | .jger r => Sys2Proof.Machine.execJger r s
  | .jler r => Sys2Proof.Machine.execJler r s
  | .brar r => Sys2Proof.Machine.execBrar r s
  | .beqr r => Sys2Proof.Machine.execBeqr r s
  | .bner r => Sys2Proof.Machine.execBner r s
  | .bgtr r => Sys2Proof.Machine.execBgtr r s
  | .bltr r => Sys2Proof.Machine.execBltr r s
  | .bger r => Sys2Proof.Machine.execBger r s
  | .bler r => Sys2Proof.Machine.execBler r s
  | .ret => Sys2Proof.Machine.execRet s
  | .push r => Sys2Proof.Machine.execPush r s
  | .pushi imm => Sys2Proof.Machine.execPushi imm s
  | .pop r => Sys2Proof.Machine.execPop r s
  | .call addr => Sys2Proof.Machine.execCall addr s
  | .callr r => Sys2Proof.Machine.execCallr r s
  | .rtc => Sys2Proof.Machine.execRtc s
  | .clc => Sys2Proof.Machine.execClc s
  | .sec => Sys2Proof.Machine.execSec s
  | .clz => Sys2Proof.Machine.execClz s
  | .sez => Sys2Proof.Machine.execSez s
  | .cln => Sys2Proof.Machine.execCln s
  | .sen => Sys2Proof.Machine.execSen s
  | .clo => Sys2Proof.Machine.execClo s
  | .seo => Sys2Proof.Machine.execSeo s
  | .cli => Sys2Proof.Machine.execCli s
  | .sei => Sys2Proof.Machine.execSei s
  | .int imm => Sys2Proof.Machine.execInt imm s
  | .rti => Sys2Proof.Machine.execRti s
  | .hlt => Sys2Proof.Machine.execHlt s

end Sys2Proof.Machine
end

