-- ==== Sys2Proof/Machine/Fetch.lean ====
section
/-! DEFINITION. Fetching an instruction through the bus (30_encoding.md R101 to R104), and placing one where the next
fetch finds it. -/

namespace Sys2Proof.Machine

/-- `fetch_n` of 30_encoding.md R101: `n` bytes at IP, then IP up by `n`; IP stays if the read faults. -/
def fetchBytes (n : Nat) (s : State) : Result (List Byte × State) :=
  during s (memReadBytes s (s.reg .ip) n) fun bs => .next (bs, s.setReg .ip (s.reg .ip + BitVec.ofNat 64 n))

/-- Fetch fields of the given widths one after the other (30_encoding.md R104). -/
def fetchFields : List Nat → State → Result (List Byte × State)
  | [], s => .next ([], s)
  | n :: ns, s =>
    andThen (fetchBytes n s) fun p => andThen (fetchFields ns p.2) fun q => .next (p.1 ++ q.1, q.2)

/-- The opcode in fetched bytes, low byte first. -/
def fetchedOpcode (bs : List Byte) : BitVec 16 := BitVec.ofNat 16 (leNat bs)

/-- Decode fetched bytes under an opcode map. With the operand bytes of the opcode's format the decoder always answers;
the error arm keeps the function total (log 10). -/
def decodeFetched (m : OpcodeMap) (op : BitVec 16) (bs : List Byte) (s : State) : Result (Instr × State) :=
  match decode m bs with
  | .ok (i, _) => .next (i, s)
  | .error _ => raise (.invalidOpcode op) s

/-- Fetch and decode of 30_encoding.md R102: the opcode; InvalidOpcode if it is not in the map, with no operand byte
fetched (48_misc.md R302); else all operand fields, and only then the instruction (R104). -/
def fetchInstr (s : State) : Result (Instr × State) :=
  andThen (fetchBytes 2 s) fun p =>
    match layoutOf s.params.opcodeMap (fetchedOpcode p.1) with
    | none => raise (.invalidOpcode (fetchedOpcode p.1)) p.2
    | some l =>
      andThen (fetchFields l.fields p.2) fun q =>
        decodeFetched s.params.opcodeMap (fetchedOpcode p.1) (p.1 ++ q.1) q.2

/-- Store bytes at a global address as an access of their number; unchanged where the access would fault. -/
def pokeBytes (a : Word) (bs : List Byte) (s : State) : State :=
  match locate s a bs.length with
  | .next l => s.storeAt l bs
  | .fault _ => s
  | .refused _ => s

/-- Store bytes from a global address up, in fields of the given widths, each where a fetch of that field reads. -/
def pokeFields : List Nat → Word → List Byte → State → State
  | [], _, _, s => s
  | n :: ns, a, bs, s => pokeFields ns (a + BitVec.ofNat 64 n) (bs.drop n) (pokeBytes a (bs.take n) s)

/-- The widths of the fields that a fetch of these bytes reads: the opcode, then its format's fields. -/
def fetchWidths (m : OpcodeMap) (bs : List Byte) : List Nat :=
  match layoutOf m (fetchedOpcode (bs.take 2)) with
  | some l => 2 :: l.fields
  | none => [2]

/-- Place an instruction's bytes where the next fetch reads them. -/
def placeAtIp (bs : List Byte) (s : State) : State := pokeFields (fetchWidths s.params.opcodeMap bs) (s.reg .ip) bs s

end Sys2Proof.Machine
end

