-- ==== Sys2Proof/Machine/Step.lean ====
section
/-! DEFINITION. The step (70_reset_and_hazards.md R365), and an instruction placed for the next step. -/

namespace Sys2Proof.Machine

/-- `step_instruction` of 30_encoding.md R102: fetch and decode, then execute with IP past the instruction. -/
def stepInstruction (s : State) : Host.Outcome State Fault Refusal :=
  andThen (fetchInstr s) fun p => exec p.1 p.2

/-- The move that the host makes at this boundary: the first of the list, a plain step past its end. -/
def State.nextMove (s : State) : HostMove :=
  match s.hostMoves with
  | [] => .step
  | m :: _ => m

/-- The state after the host's move is taken from the list. -/
def State.dropMove (s : State) : State := { s with hostMoves := s.hostMoves.tail }

/-- One step of the machine (70_reset_and_hazards.md R365): an instruction step or the delivery of an interrupt
request, as the host's next move says; a stopped engine does not move. -/
def step (s : State) : Host.Outcome State Fault Refusal :=
  match s.run with
  | .running =>
    match s.nextMove with
    | .step => stepInstruction s.dropMove
    | .deliver v => handleInterrupt v s.dropMove
  | .halted => .next s
  | .faulted _ => .next s

/-- The state in which the very next step runs the instruction whose bits are the low `nbits` of `w`: its bytes stand
at IP, the engine runs, and the host asks for a step. It stands for the host's load of a program (log 7). -/
def State.withFetchWord (s : State) (nbits w : Nat) : State :=
  placeAtIp (tableBytes nbits w) { s with run := .running, hostMoves := [] }

end Sys2Proof.Machine
end

