-- ==== Sys2Proof/Machine/Platform.lean ====
section
/-! DEFINITION. The host's side (60_exceptions.md R346): building a bus and a core before the first step, and the reads,
the answers and the loop of a run. None of it is reached by a step. -/

namespace Sys2Proof.Machine

open Host (Outcome)

/-- A bus under construction: its RAM devices and its regions in search order. -/
structure Bus where
  devices : List Device
  regions : List Region
deriving DecidableEq, Repr

/-- `newRam(size)`: a zero-filled device at the end of the list (20_memory.md R61, 60_exceptions.md R346). -/
def Bus.newRam (b : Bus) (size : Nat) : Bus := { b with devices := b.devices ++ [{ size := size, cells := [] }] }

/-- `map(device, start, end, rebase)` of 20_memory.md R64: InvalidRange for a reversed range, then OverlappingRegion for
a range that meets a mapped one, else the region in front. A device that is not RAM is refused (R62, log 6). -/
def Bus.map (b : Bus) (g : Region) : Outcome Bus FaultKind Refusal :=
  if !g.ordered then .fault .invalidRange
  else if b.regions.any (fun h => g.overlaps h) then .fault .overlappingRegion
  else if !g.boundToRam b.devices.length then .refused (.deviceNotRam g.dev)
  else .next { b with regions := g :: b.regions }

/-- `load(dev, offset, bytes)`: program or data bytes written into a device before the first step (60_exceptions.md
R346); bytes past the device's size fault as its write does (20_memory.md R61, log 11). -/
def Bus.load (b : Bus) (dev off : Nat) (bs : List Byte) : Outcome Bus FaultKind Refusal :=
  match b.devices[dev]? with
  | none => .refused (.deviceNotRam dev)
  | some d =>
    if d.size < off + bs.length then .fault (.outOfBounds (BitVec.ofNat 64 off) bs.length)
    else .next { b with devices := b.devices.modify dev (fun d => { d with cells := d.cells.store off bs }) }

/-- `newCore(bus, IVT_BASE, ADDRESS_SPACE_TOP)`: the reset state on that bus (70_reset_and_hazards.md R360), with the
switches and the opcode map of 00_scope.md R6. A core of another configuration is `State.launch` with it. -/
def Bus.newCore (b : Bus) (ivtBase addressSpaceTop : Word) : State :=
  State.launch
    { ivtBase := ivtBase
      addressSpaceTop := addressSpaceTop
      regions := b.regions
      pushCountsFrame := true
      popStateCounter := .restore
      opcodeMap := opcodeMap } b.devices

/-- The host asks for one more delivery, after the moves already asked for (60_exceptions.md R327, R328). -/
def State.requestDelivery (s : State) (v : Word) : State := { s with hostMoves := s.hostMoves ++ [.deliver v] }

/-- What the host gets back from a step (30_encoding.md R102, 70_reset_and_hazards.md R365). -/
inductive StepReturn where
  | noStep
  | opcode (op : BitVec 16)
  | delivered
  | failed
deriving DecidableEq, Repr

/-- The answer to the host's next move: NoStep from a stopped engine, the opcode that an instruction step fetched, HLT's
like any other (48_misc.md R301), or a failure where the step faults or is refused. -/
def stepReturn (s : State) : StepReturn :=
  match s.run, s.nextMove, step s with
  | .running, .step, .next _ =>
    match memReadBytes s (s.reg .ip) 2 with
    | .next bs => .opcode (fetchedOpcode bs)
    | .fault _ => .failed
    | .refused _ => .failed
  | .running, .deliver _, .next _ => .delivered
  | .running, _, .fault _ => .failed
  | .running, _, .refused _ => .failed
  | .halted, _, _ => .noStep
  | .faulted _, _, _ => .noStep

/-- The run loop of 70_reset_and_hazards.md R366 for at most `k` host moves: it stops as soon as the engine is not
Running. Rendering and throttling change no state (D36). -/
def runLoop : Nat → State → Outcome State Fault Refusal
  | 0, s => .next s
  | k + 1, s =>
    match s.run with
    | .running => andThen (step s) (runLoop k)
    | .halted => .next s
    | .faulted _ => .next s

/-- Read-only inspection of a register (60_exceptions.md R345). -/
def inspectRegister (s : State) (r : Reg) : Word := s.reg r

/-- Read-only inspection of the flags (60_exceptions.md R345). -/
def inspectFlags (s : State) : Flags := s.flags

/-- Read-only inspection of any memory range: the `n` bytes from a global address up, each read through the bus by
itself, so that a range may run over several regions (60_exceptions.md R345, R346). Nothing is written, and the engine
goes on as it was, since no state is answered. DESIGN CHOICE, log 13: R345 and R346 say no more than "the values", and where an
address of the range is in no region or past its device's end, the host gets the bus fault of the lowest such offset in
place of the values, and the run state does not change; a range past address 2^64 - 1 goes on at address 0. -/
def inspectMemory (s : State) (a : Word) : Nat → Outcome (List Byte) FaultKind Refusal
  | 0 => .next []
  | n + 1 =>
    match memReadBytes s a 1 with
    | .next b =>
      match inspectMemory s (a + 1) n with
      | .next bs => .next (b ++ bs)
      | .fault k => .fault k
      | .refused r => .refused r
    | .fault k => .fault k
    | .refused r => .refused r

end Sys2Proof.Machine
end

