-- ==== Sys2Proof/Safety.lean ====
section
/-! DEFINITION. The terms that claims use: what is left unchanged, which accesses succeed, and the invariant of a run. -/

namespace Sys2Proof.Machine

/-- Every byte of every device reads as before. -/
def sameMemory (s t : State) : Prop := ∀ dev off, t.byteAt dev off = s.byteAt dev off

/-- Every byte outside the `n` bytes from a location up reads as before. -/
def sameMemoryOutside (l : Loc) (n : Nat) (s t : State) : Prop :=
  ∀ dev off, ¬(dev = l.dev ∧ l.off ≤ off ∧ off < l.off + n) → t.byteAt dev off = s.byteAt dev off

/-- The parameters of the launch, the sizes of the devices and the host's coming moves are as before
(10_state.md R34). -/
def sameLaunch (s t : State) : Prop :=
  t.params = s.params ∧ t.hostMoves = s.hostMoves ∧ t.devices.map Device.size = s.devices.map Device.size

/-- Every register but the listed ones is as before. -/
def sameRegsBut (rs : List Reg) (s t : State) : Prop := ∀ q, q ∉ rs → t.reg q = s.reg q

/-- All that is neither a register, a flag nor memory is as before. -/
def sameHidden (s t : State) : Prop :=
  t.stackFrameSize = s.stackFrameSize ∧ t.run = s.run ∧ sameLaunch s t

/-- One register holds a new value and everything else is as before. -/
def onlyRegister (r : Reg) (v : Word) (s t : State) : Prop :=
  t.reg r = v ∧ sameRegsBut [r] s t ∧ t.flags = s.flags ∧ sameHidden s t ∧ sameMemory s t

/-- One register holds a new value, the flags are the given ones, and everything else is as before. -/
def onlyRegisterAndFlags (r : Reg) (v : Word) (f : Flags) (s t : State) : Prop :=
  t.reg r = v ∧ sameRegsBut [r] s t ∧ t.flags = f ∧ sameHidden s t ∧ sameMemory s t

/-- The flags are the given ones and everything else is as before. -/
def onlyFlags (f : Flags) (s t : State) : Prop :=
  sameRegsBut [] s t ∧ t.flags = f ∧ sameHidden s t ∧ sameMemory s t

/-- An access of `n` bytes at a global address succeeds. -/
def accessible (s : State) (a : Word) (n : Nat) : Prop := ∃ l, locate s a n = .next l

/-- The 64-bit word at a global address is readable and has this value. -/
def wordIs (s : State) (a v : Word) : Prop := memRead s a 8 = .next v

/-- The `n` bytes from a location up, read one by one. -/
def bytesAt (s : State) (l : Loc) (n : Nat) : List Byte := (List.range n).map (fun k => s.byteAt l.dev (l.off + k))

/-- The address of stack word `k` counted down from a stack pointer: where push number `k` from there writes, the first
being number 0 (45_stack_call.md R240). -/
def wordBelow (sp : Word) (k : Nat) : Word := sp - BitVec.ofNat 64 (8 * k)

/-- The address of stack word `k` counted up from a stack pointer: where pop number `k` from there reads, the first
being number 1 (45_stack_call.md R241). -/
def wordAbove (sp : Word) (k : Nat) : Word := sp + BitVec.ofNat 64 (8 * k)

/-- The words that the next `n` pushes write can all be written. -/
def pushable (s : State) (n : Nat) : Prop := ∀ k, k < n → accessible s (wordBelow (s.reg .sp) k) 8

/-- The words of the next `n` pushes lie in one region and do not wrap below address 0, so that no two of them share a
byte. -/
def oneStackRegion (s : State) (n : Nat) : Prop :=
  8 * n ≤ (s.reg .sp).toNat + 8 ∧
    ∃ g, ∀ k, k < n → findRegion s.params.regions (wordBelow (s.reg .sp) k) = some g

/-- Every byte outside the words that the next `n` pushes write reads as before. -/
def sameMemoryOutsidePushes (n : Nat) (s t : State) : Prop :=
  ∀ dev off,
    (∀ k l, k < n → locate s (wordBelow (s.reg .sp) k) 8 = .next l →
      ¬(dev = l.dev ∧ l.off ≤ off ∧ off < l.off + 8)) →
    t.byteAt dev off = s.byteAt dev off

/-- The bytes stand where the next fetches read them: in one region from IP up, without wrapping, inside its device. -/
def standsAtIp (s : State) (bs : List Byte) : Prop :=
  ∃ g d, s.devices[g.dev]? = some d ∧
    (Region.effective g (s.reg .ip)).toNat + bs.length ≤ d.size ∧
    ∀ k (hk : k < bs.length),
      findRegion s.params.regions (s.reg .ip + BitVec.ofNat 64 k) = some g ∧
      (Region.effective g (s.reg .ip + BitVec.ofNat 64 k)).toNat = (Region.effective g (s.reg .ip)).toNat + k ∧
      s.byteAt g.dev ((Region.effective g (s.reg .ip)).toNat + k) = bs[k]

/-- The invariant of a run: the memory map is well formed (20_memory.md R62, R63, R64) and every device's contents are
canonical and inside its size (20_memory.md R61). -/
def Inv (s : State) : Prop :=
  wellFormedMap s.devices.length s.params.regions = true ∧ ∀ d ∈ s.devices, Device.wf d = true

/-- Two states have the same parameters and device sizes, so that every access lands alike. -/
def sameShape (s t : State) : Prop :=
  t.params = s.params ∧ t.devices.map Device.size = s.devices.map Device.size

/-- The flags of 41_arithmetic.md R160 for a result, with the carry heuristic's answer in C and O. -/
def arithmeticFlags (carry : Bool) (res : Word) (f : Flags) : Flags :=
  { c := carry, z := res == 0, n := res.msb, o := carry, i := f.i }

/-- The flags of 42_bitwise.md R180 for a logic result. -/
def resultFlags (res : Word) (f : Flags) : Flags := { c := f.c, z := res == 0, n := res.msb, o := f.o, i := f.i }

/-- The flags of 42_bitwise.md R180 for a shift result, and of 43_compare.md R200 for a difference. -/
def carriedFlags (carry : Bool) (res : Word) (f : Flags) : Flags :=
  { c := carry, z := res == 0, n := res.msb, o := f.o, i := f.i }

/-- The instruction runs, writes this result and these flags, and leaves everything else as before. -/
def computes (i : Instr) (dst : Reg) (res : Word) (f : Flags) (s : State) : Prop :=
  ∃ t, exec i s = .next t ∧ onlyRegisterAndFlags dst res f s t

/-- The instruction stops with a fault that leaves everything but the run state as it was. -/
def faultsUnchanged (i : Instr) (k : FaultKind) (s : State) : Prop :=
  exec i s = .fault (.halt k { s with run := .faulted k })

/-- The instruction loads `n` bytes, zero-extended, into a register and leaves everything else as before. -/
def loadsBytes (i : Instr) (r : Reg) (a : Word) (n : Nat) (s : State) : Prop :=
  ∀ l, locate s a n = .next l → ∃ t, exec i s = .next t ∧ onlyRegister r (leWord (bytesAt s l n)) s t

/-- The instruction stores the `n` high bytes of a register, the least significant of them lowest, and leaves everything
else as before. -/
def storesHighBytes (i : Instr) (r : Reg) (a : Word) (n : Nat) (s : State) : Prop :=
  ∀ l, locate s a n = .next l →
    ∃ t, exec i s = .next t ∧
      (∀ j, j < n → t.byteAt l.dev (l.off + j) = (s.reg r).extractLsb' (64 - 8 * n + 8 * j) 8) ∧
      sameMemoryOutside l n s t ∧ sameRegsBut [] s t ∧ t.flags = s.flags ∧ sameHidden s t

/-- The instruction goes to the target if taken, else on, and leaves everything else as before. -/
def jumpsTo (i : Instr) (target : Word) (taken : Bool) (s : State) : Prop :=
  ∃ t, exec i s = .next t ∧ onlyRegister .ip (if taken then target else s.reg .ip) s t

/-- One word was pushed where SP pointed, SP and the counter moved with it (45_stack_call.md R240), and of the rest only
the listed registers may differ. -/
def pushedWord (v : Word) (rs : List Reg) (l : Loc) (s t : State) : Prop :=
  wordIs t (s.reg .sp) v ∧ sameMemoryOutside l 8 s t ∧ t.reg .sp = s.reg .sp - 8 ∧
    t.stackFrameSize = (if s.params.pushCountsFrame then s.stackFrameSize + 8 else s.stackFrameSize) ∧
    sameRegsBut (.sp :: rs) s t ∧ t.flags = s.flags ∧ t.run = s.run ∧ sameLaunch s t

/-- If taken, the instruction pushes IP and goes to the target; else it changes nothing. -/
def branchesTo (i : Instr) (target : Word) (taken : Bool) (s : State) : Prop :=
  (taken = false → exec i s = .next s) ∧
  (taken = true → ∀ l, locate s (s.reg .sp) 8 = .next l →
    ∃ t, exec i s = .next t ∧ t.reg .ip = target ∧ pushedWord (s.reg .ip) [.ip] l s t)

/-- One word was popped: SP and the counter moved (45_stack_call.md R241), no byte changed, and of the rest only the
listed registers may differ. -/
def poppedWord (rs : List Reg) (s t : State) : Prop :=
  sameMemory s t ∧ t.stackFrameSize = s.stackFrameSize - 8 ∧ sameRegsBut (.sp :: rs) s t ∧ t.flags = s.flags ∧
    t.run = s.run ∧ sameLaunch s t

/-- The words of a frame in push order, saved from a state: R1 to R8, IP and the frame size (45_stack_call.md R243,
R244). -/
def frameWords (s : State) (pushedBefore : Nat) : List Word :=
  [s.reg .r1, s.reg .r2, s.reg .r3, s.reg .r4, s.reg .r5, s.reg .r6, s.reg .r7, s.reg .r8, s.reg .ip,
    s.stackFrameSize + (if s.params.pushCountsFrame then BitVec.ofNat 64 (8 * (pushedBefore + 9)) else 0) + 8]

/-- The words are pushed one after the other below SP, and SP, FP and the counter are as at the entry of a frame; of the
registers only SP, FP and IP may differ (45_stack_call.md R244). -/
def enteredFrame (words : List Word) (target : Word) (s t : State) : Prop :=
  t.reg .ip = target ∧ t.reg .sp = wordBelow (s.reg .sp) words.length ∧
    t.reg .fp = wordBelow (s.reg .sp) words.length ∧ t.stackFrameSize = 0 ∧
    sameRegsBut [.ip, .sp, .fp] s t ∧ t.run = s.run ∧ sameLaunch s t ∧
    sameMemoryOutsidePushes words.length s t ∧
    (oneStackRegion s words.length →
      ∀ k (hk : k < words.length), wordIs t (wordBelow (s.reg .sp) k) words[k])

/-- A branch that cannot push: if taken, it faults and nothing but the run state changes, so that
IP, SP and the counter are as before (44_control_flow.md R210, 45_stack_call.md R240). -/
def branchFaults (i : Instr) (taken : Bool) (k : FaultKind) (s : State) : Prop := taken = true → faultsUnchanged i k s

/-- The first `k` words were pushed and the next push faulted: those words stay written, SP and the counter are where
they left them, and everything else is as before, FP, IP and the flags too (45_stack_call.md R240, R244,
60_exceptions.md R311). -/
def pushedBeforeFault (words : List Word) (k : Nat) (f : FaultKind) (s t : State) : Prop :=
  t.run = .faulted f ∧ t.reg .sp = wordBelow (s.reg .sp) k ∧
    t.stackFrameSize = (if s.params.pushCountsFrame then s.stackFrameSize + BitVec.ofNat 64 (8 * k)
      else s.stackFrameSize) ∧
    sameRegsBut [.sp] s t ∧ t.flags = s.flags ∧ sameLaunch s t ∧ sameMemoryOutsidePushes k s t ∧
    (oneStackRegion s k → ∀ j (hj : j < words.length), j < k → wordIs t (wordBelow (s.reg .sp) j) words[j])

/-- The instruction pushes these words and faults at word `k`, counted from 0 (45_stack_call.md R244). -/
def faultsAtPush (i : Instr) (words : List Word) (k : Nat) (f : FaultKind) (s : State) : Prop :=
  ∃ t, exec i s = .fault (.halt f t) ∧ pushedBeforeFault words k f s t

/-- The first word of the frame at FP that cannot be read is word `k`, counted from 1, and the words below it read as
given (45_stack_call.md R245). -/
def frameBreaksAt (s : State) (w : Nat → Word) (k : Nat) (f : FaultKind) : Prop :=
  1 ≤ k ∧ (∀ j, 1 ≤ j → j < k → wordIs s (wordAbove (s.reg .fp) j) (w j)) ∧ (11 < k → k ≤ 11 + (w 11).toNat) ∧
    locate s (wordAbove (s.reg .fp) k) 8 = .fault f

/-- Where the words of a frame that go to registers stand, counted from FP (45_stack_call.md R245). -/
def frameWordRegs : List (Nat × Reg) :=
  [(2, .ip), (3, .r8), (4, .r7), (5, .r6), (6, .r5), (7, .r4), (8, .r3), (9, .r2), (10, .r1)]

/-- The frame at FP was popped up to word `k`, whose read faulted: SP stands at that word, the registers whose words
were popped are written, the counter has followed the pops, and everything else but the flags is as before, FP too
(45_stack_call.md R241, R245, 60_exceptions.md R311). -/
def poppedBeforeFault (w : Nat → Word) (k : Nat) (f : FaultKind) (s t : State) : Prop :=
  t.run = .faulted f ∧ t.reg .sp = wordAbove (s.reg .fp) k ∧
    (∀ j r, (j, r) ∈ frameWordRegs → t.reg r = if j < k then w j else s.reg r) ∧
    sameRegsBut (.sp :: frameWordRegs.map Prod.snd) s t ∧
    t.stackFrameSize =
      (if k = 1 then s.stackFrameSize
        else match s.params.popStateCounter with
          | .restore => w 1 - BitVec.ofNat 64 (8 * (k - 2))
          | .carryOn => s.stackFrameSize - BitVec.ofNat 64 (8 * (k - 1))) ∧
    sameLaunch s t ∧ sameMemory s t

/-- The frame at FP can be popped: its eleven words read as given, the last being the argument count, and the argument
words can be read (45_stack_call.md R245). -/
def frameAtFp (s : State) (w : Nat → Word) : Prop :=
  (∀ k, 1 ≤ k → k ≤ 11 → wordIs s (wordAbove (s.reg .fp) k) (w k)) ∧
    ∀ k, 11 < k → k ≤ 11 + (w 11).toNat → accessible s (wordAbove (s.reg .fp) k) 8

/-- What popping that frame leaves: the saved registers, SP past the arguments, FP and the counter from the saved frame
size, and everything else but the flags as before (45_stack_call.md R245). -/
def leftFrame (w : Nat → Word) (s t : State) : Prop :=
  t.reg .ip = w 2 ∧ t.reg .r8 = w 3 ∧ t.reg .r7 = w 4 ∧ t.reg .r6 = w 5 ∧ t.reg .r5 = w 6 ∧ t.reg .r4 = w 7 ∧
    t.reg .r3 = w 8 ∧ t.reg .r2 = w 9 ∧ t.reg .r1 = w 10 ∧
    t.reg .sp = wordAbove (s.reg .fp) (11 + (w 11).toNat) ∧ t.reg .fp = s.reg .fp + w 1 ∧
    t.stackFrameSize =
      (match s.params.popStateCounter with
        | .restore => w 1 - BitVec.ofNat 64 (8 * (10 + (w 11).toNat))
        | .carryOn => s.stackFrameSize - BitVec.ofNat 64 (8 * (11 + (w 11).toNat))) ∧
    t.reg .acc = s.reg .acc ∧ t.reg .mb = s.reg .mb ∧ t.reg .im = s.reg .im ∧
    t.run = s.run ∧ sameLaunch s t ∧ sameMemory s t

/-- The rows of the flag-writer table of 10_state.md R29. -/
inductive FlagGroup where
  | arithmetic | logic | shift | compared | carryOp | zeroOp | negativeOp | overflowOp | handlerOp
  | interruptEntry | interruptReturn | untouched
deriving DecidableEq, Repr

/-- The row of 10_state.md R29 that an instruction stands in. -/
def flagGroup : Instr → FlagGroup
  | .nop => .untouched
  | .ldi _ _ => .untouched
  | .ldbi _ _ => .untouched
  | .ldwi _ _ => .untouched
  | .lddi _ _ => .untouched
  | .ldm _ _ => .untouched
  | .ldbm _ _ => .untouched
  | .ldwm _ _ => .untouched
  | .lddm _ _ => .untouched
  | .st _ _ => .untouched
  | .stb _ _ => .untouched
  | .stw _ _ => .untouched
  | .std _ _ => .untouched
  | .tf _ _ => .untouched
  | .addi _ _ => .arithmetic
  | .subi _ _ => .arithmetic
  | .muli _ _ => .arithmetic
  | .divi _ _ => .arithmetic
  | .modi _ _ => .arithmetic
  | .mulis _ _ => .arithmetic
  | .divis _ _ => .arithmetic
  | .add _ _ => .arithmetic
  | .sub _ _ => .arithmetic
  | .mul _ _ => .arithmetic
  | .div _ _ => .arithmetic
  | .mod _ _ => .arithmetic
  | .muls _ _ => .arithmetic
  | .divs _ _ => .arithmetic
  | .andi _ _ => .logic
  | .ori _ _ => .logic
  | .xori _ _ => .logic
  | .noti _ _ => .logic
  | .shli _ _ => .shift
  | .shri _ _ => .shift
  | .rori _ _ => .shift
  | .roli _ _ => .shift
  | .and _ _ => .logic
  | .or _ _ => .logic
  | .xor _ _ => .logic
  | .not _ _ => .logic
  | .shl _ _ => .shift
  | .shr _ _ => .shift
  | .ror _ _ => .shift
  | .rol _ _ => .shift
  | .cmp _ _ => .compared
  | .cmpi _ _ => .compared
  | .jmp _ => .untouched
  | .jeq _ => .untouched
  | .jne _ => .untouched
  | .jgt _ => .untouched
  | .jlt _ => .untouched
  | .jge _ => .untouched
  | .jle _ => .untouched
  | .bra _ => .untouched
  | .beq _ => .untouched
  | .bne _ => .untouched
  | .bgt _ => .untouched
  | .blt _ => .untouched
  | .bge _ => .untouched
  | .ble _ => .untouched
  | .jmpr _ => .untouched
  | .jeqr _ => .untouched
  | .jner _ => .untouched
  | .jgtr _ => .untouched
  | .jltr _ => .untouched
  | .jger _ => .untouched
  | .jler _ => .untouched
  | .brar _ => .untouched
  | .beqr _ => .untouched
  | .bner _ => .untouched
  | .bgtr _ => .untouched
  | .bltr _ => .untouched
  | .bger _ => .untouched
  | .bler _ => .untouched
  | .ret => .untouched
  | .push _ => .untouched
  | .pushi _ => .untouched
  | .pop _ => .untouched
  | .call _ => .untouched
  | .callr _ => .untouched
  | .rtc => .untouched
  | .clc => .carryOp
  | .sec => .carryOp
  | .clz => .zeroOp
  | .sez => .zeroOp
  | .cln => .negativeOp
  | .sen => .negativeOp
  | .clo => .overflowOp
  | .seo => .overflowOp
  | .cli => .handlerOp
  | .sei => .handlerOp
  | .int _ => .interruptEntry
  | .rti => .interruptReturn
  | .hlt => .untouched

/-- The instruction may write Carry (10_state.md R29). -/
def FlagGroup.writesC : FlagGroup → Bool
  | .arithmetic | .shift | .compared | .carryOp => true
  | .logic | .zeroOp | .negativeOp | .overflowOp | .handlerOp | .interruptEntry | .interruptReturn | .untouched => false

/-- The instruction may write Zero (10_state.md R29). -/
def FlagGroup.writesZ : FlagGroup → Bool
  | .arithmetic | .logic | .shift | .compared | .zeroOp => true
  | .carryOp | .negativeOp | .overflowOp | .handlerOp | .interruptEntry | .interruptReturn | .untouched => false

/-- The instruction may write Negative (10_state.md R29). -/
def FlagGroup.writesN : FlagGroup → Bool
  | .arithmetic | .logic | .shift | .compared | .negativeOp => true
  | .carryOp | .zeroOp | .overflowOp | .handlerOp | .interruptEntry | .interruptReturn | .untouched => false

/-- The instruction may write Overflow (10_state.md R29). -/
def FlagGroup.writesO : FlagGroup → Bool
  | .arithmetic | .overflowOp => true
  | .logic | .shift | .compared | .carryOp | .zeroOp | .negativeOp | .handlerOp | .interruptEntry | .interruptReturn
  | .untouched => false

/-- The instruction may write the in-handler flag (10_state.md R29). -/
def FlagGroup.writesI : FlagGroup → Bool
  | .handlerOp | .interruptEntry | .interruptReturn => true
  | .arithmetic | .logic | .shift | .compared | .carryOp | .zeroOp | .negativeOp | .overflowOp | .untouched => false

/-- The registers that an instruction names by a selector (30_encoding.md R105). -/
def registersOf : Instr → List Reg
  | .nop => []
  | .ldi r _ => [r]
  | .ldbi r _ => [r]
  | .ldwi r _ => [r]
  | .lddi r _ => [r]
  | .ldm r _ => [r]
  | .ldbm r _ => [r]
  | .ldwm r _ => [r]
  | .lddm r _ => [r]
  | .st r _ => [r]
  | .stb r _ => [r]
  | .stw r _ => [r]
  | .std r _ => [r]
  | .tf dst src => [dst, src]
  | .addi r _ => [r]
  | .subi r _ => [r]
  | .muli r _ => [r]
  | .divi r _ => [r]
  | .modi r _ => [r]
  | .mulis r _ => [r]
  | .divis r _ => [r]
  | .add dst src => [dst, src]
  | .sub dst src => [dst, src]
  | .mul dst src => [dst, src]
  | .div dst src => [dst, src]
  | .mod dst src => [dst, src]
  | .muls dst src => [dst, src]
  | .divs dst src => [dst, src]
  | .andi r _ => [r]
  | .ori r _ => [r]
  | .xori r _ => [r]
  | .noti r _ => [r]
  | .shli r _ => [r]
  | .shri r _ => [r]
  | .rori r _ => [r]
  | .roli r _ => [r]
  | .and dst src => [dst, src]
  | .or dst src => [dst, src]
  | .xor dst src => [dst, src]
  | .not dst src => [dst, src]
  | .shl dst src => [dst, src]
  | .shr dst src => [dst, src]
  | .ror dst src => [dst, src]
  | .rol dst src => [dst, src]
  | .cmp dst src => [dst, src]
  | .cmpi r _ => [r]
  | .jmp _ => []
  | .jeq _ => []
  | .jne _ => []
  | .jgt _ => []
  | .jlt _ => []
  | .jge _ => []
  | .jle _ => []
  | .bra _ => []
  | .beq _ => []
  | .bne _ => []
  | .bgt _ => []
  | .blt _ => []
  | .bge _ => []
  | .ble _ => []
  | .jmpr r => [r]
  | .jeqr r => [r]
  | .jner r => [r]
  | .jgtr r => [r]
  | .jltr r => [r]
  | .jger r => [r]
  | .jler r => [r]
  | .brar r => [r]
  | .beqr r => [r]
  | .bner r => [r]
  | .bgtr r => [r]
  | .bltr r => [r]
  | .bger r => [r]
  | .bler r => [r]
  | .ret => []
  | .push r => [r]
  | .pushi _ => []
  | .pop r => [r]
  | .call _ => []
  | .callr r => [r]
  | .rtc => []
  | .clc => []
  | .sec => []
  | .clz => []
  | .sez => []
  | .cln => []
  | .sen => []
  | .clo => []
  | .seo => []
  | .cli => []
  | .sei => []
  | .int _ => []
  | .rti => []
  | .hlt => []

/-- The register that an instruction names to put its result into, none where it has no such operand. -/
def destinationOf : Instr → Option Reg
  | .nop => none
  | .ldi r _ => some r
  | .ldbi r _ => some r
  | .ldwi r _ => some r
  | .lddi r _ => some r
  | .ldm r _ => some r
  | .ldbm r _ => some r
  | .ldwm r _ => some r
  | .lddm r _ => some r
  | .st _ _ => none
  | .stb _ _ => none
  | .stw _ _ => none
  | .std _ _ => none
  | .tf dst _ => some dst
  | .addi r _ => some r
  | .subi r _ => some r
  | .muli r _ => some r
  | .divi r _ => some r
  | .modi r _ => some r
  | .mulis r _ => some r
  | .divis r _ => some r
  | .add dst _ => some dst
  | .sub dst _ => some dst
  | .mul dst _ => some dst
  | .div dst _ => some dst
  | .mod dst _ => some dst
  | .muls dst _ => some dst
  | .divs dst _ => some dst
  | .andi r _ => some r
  | .ori r _ => some r
  | .xori r _ => some r
  | .noti r _ => some r
  | .shli r _ => some r
  | .shri r _ => some r
  | .rori r _ => some r
  | .roli r _ => some r
  | .and dst _ => some dst
  | .or dst _ => some dst
  | .xor dst _ => some dst
  | .not dst _ => some dst
  | .shl dst _ => some dst
  | .shr dst _ => some dst
  | .ror dst _ => some dst
  | .rol dst _ => some dst
  | .cmp _ _ => none
  | .cmpi _ _ => none
  | .jmp _ => none
  | .jeq _ => none
  | .jne _ => none
  | .jgt _ => none
  | .jlt _ => none
  | .jge _ => none
  | .jle _ => none
  | .bra _ => none
  | .beq _ => none
  | .bne _ => none
  | .bgt _ => none
  | .blt _ => none
  | .bge _ => none
  | .ble _ => none
  | .jmpr _ => none
  | .jeqr _ => none
  | .jner _ => none
  | .jgtr _ => none
  | .jltr _ => none
  | .jger _ => none
  | .jler _ => none
  | .brar _ => none
  | .beqr _ => none
  | .bner _ => none
  | .bgtr _ => none
  | .bltr _ => none
  | .bger _ => none
  | .bler _ => none
  | .ret => none
  | .push _ => none
  | .pushi _ => none
  | .pop r => some r
  | .call _ => none
  | .callr _ => none
  | .rtc => none
  | .clc => none
  | .sec => none
  | .clz => none
  | .sez => none
  | .cln => none
  | .sen => none
  | .clo => none
  | .seo => none
  | .cli => none
  | .sei => none
  | .int _ => none
  | .rti => none
  | .hlt => none

/-- The instruction leaves the frame counter equal to FP minus SP where it was (45_stack_call.md R246): all but the two
returns that pop a frame and the instructions that write SP or FP as an operand. -/
def keepsFrameCount (i : Instr) : Prop :=
  i ≠ .rtc ∧ i ≠ .rti ∧ destinationOf i ≠ some .sp ∧ destinationOf i ≠ some .fp

/-- The same change made to the state that an outcome leaves, a fault's final state too. -/
def mapState (f : State → State) : Result State → Result State
  | .next t => .next (f t)
  | .fault (.halt k t) => .fault (.halt k (f t))
  | .refused r => .refused r

/-- The state with Carry and Overflow cleared. -/
def State.hideCarryOverflow (s : State) : State := s.setFlags { s.flags with c := false, o := false }

/-- The outcome leaves this state: a next state, or the final state of a fault. -/
def leaves (x : Result State) (t : State) : Prop := x = .next t ∨ ∃ k, x = .fault (.halt k t)

end Sys2Proof.Machine
end

