-- ==== Sys2Proof/Certificates/Slice0/Obligations.lean ====
section
/-! DEFINITION. The statements for the provers, each a proposition about the model. -/

open Sys2Proof Sys2Proof.Machine
open Host (Outcome)

/-! ### Encoding -/

/-- Decode and encode agree: under every well-formed opcode map every instruction has bytes, and these, whatever follows
them, decode to it and leave what follows (30_encoding.md R105, R110, 00_scope.md R7). -/
def Obligations.DecodeInvertsEncode : Prop :=
  ∀ (m : OpcodeMap) (i : Instr) (rest : List Byte), m.wf = true →
    ∃ bs, encode m i = some bs ∧ decode m (bs ++ rest) = .ok (i, rest)

/-- Words written out from the encodings of the spec decode, under its opcode map, to the instructions they stand for (30_encoding.md R105,
R110; the encodings printed in 95_test_vectors.md). -/
def Obligations.WrittenWordsDecode : Prop :=
  decode opcodeMap [0x01, 0x00, 0x02, 0x05, 0, 0, 0, 0, 0, 0, 0] = .ok (.ldi .r1 5, []) ∧
  decode opcodeMap [0x11, 0x00, 0x02, 0x01, 0, 0, 0, 0, 0, 0, 0] = .ok (.addi .r1 1, []) ∧
  decode opcodeMap [0x21, 0x00, 0x10, 0x03] = .ok (.add .r1 .r2, []) ∧
  decode opcodeMap [0x03, 0x02, 0x0D, 0x88, 0x77, 0x66, 0x55, 0x44, 0x33, 0x22, 0x11] = .ok (.stw .im 0x1122334455667788, []) ∧
  decode opcodeMap [0xA1, 0x00, 0x00, 0x04, 0, 0, 0, 0, 0, 0] = .ok (.call 0x400, []) ∧
  decode opcodeMap [0x05, 0x00] = .error (.invalidOpcode 0x0005) ∧
  decode opcodeMap [0xFF, 0xFF] = .ok (.hlt, [])

/-- A selector byte picks the slot of its value modulo 14, and that slot stands at eight times its number in the 112
bytes of the register file, little-endian; no byte faults (10_state.md R22, 30_encoding.md R103). -/
def Obligations.SelectorBytePicksSlotModulo14 : Prop :=
  ∀ (b : Byte) (rest : List Byte), ∃ r : Reg,
    takeReg (b :: rest) = .ok (r, rest) ∧ r.index = b.toNat % 14 ∧
      ∀ f : RegFile, f.bytes.length = 112 ∧ (f.bytes.drop (8 * (b.toNat % 14))).take 8 = leBytes 8 (f.get r).toNat

/-- With an opcode of a well-formed map, every choice of operand bytes decodes, and the length depends on the opcode
alone (30_encoding.md R107, R112). -/
def Obligations.OperandsAreNeverIllegal : Prop :=
  ∀ (m : OpcodeMap) (lo hi : Byte) (l : Layout) (bs : List Byte), m.wf = true →
    layoutOf m (opcodeOfBytes lo hi) = some l → l.fields.sum ≤ bs.length →
      ∃ i es, decode m (lo :: hi :: bs) = .ok (i, bs.drop l.fields.sum) ∧
        encode m i = some es ∧ es.length = 2 + l.fields.sum ∧ es.take 2 = [lo, hi]

/-- The map of the spec has 94 different opcodes and is the one of every core the host constructs; a step that fetches a
value outside its map faults with it, IP past those two bytes, no operand byte fetched and nothing else changed
(48_misc.md R302, 30_encoding.md R111). -/
def Obligations.IllegalOpcodeFaults : Prop :=
  (opcodeMap.length = 94 ∧ opcodeMap.wf = true ∧ ∀ b ivt top, (Bus.newCore b ivt top).params.opcodeMap = opcodeMap) ∧
  ∀ (s : State) (bs : List Byte),
    s.run = .running → s.nextMove = .step → memReadBytes s (s.reg .ip) 2 = .next bs →
    leNat bs ∉ s.params.opcodeMap.map Prod.fst →
      step s = .fault (.halt (.invalidOpcode (fetchedOpcode bs))
        { s.dropMove.setReg .ip (s.reg .ip + 2) with run := .faulted (.invalidOpcode (fetchedOpcode bs)) })

/-! ### The step -/

/-- A step runs the decoded instruction: where the bytes at IP decode under the opcode map, the step is that instruction's
execution with IP past those bytes (30_encoding.md R102, R104, 10_state.md R25). -/
def Obligations.StepRunsTheDecodedInstruction : Prop :=
  ∀ (s : State) (i : Instr) (bs : List Byte),
    s.run = .running → s.nextMove = .step → decode s.params.opcodeMap bs = .ok (i, []) → standsAtIp s bs →
      step s = exec i (s.dropMove.setReg .ip (s.reg .ip + BitVec.ofNat 64 bs.length))

/-- The fetch of 1, 2, 4 or 8 bytes gives the value read at IP and moves IP past it, or faults with IP where it was
(30_encoding.md R101). -/
def Obligations.FetchAdvancesIpUnlessItFaults : Prop :=
  ∀ (s : State) (n : Nat), n ∈ [1, 2, 4, 8] →
    (∀ v, memRead s (s.reg .ip) n = .next v →
      ∃ bs, bs.length = n ∧ leWord bs = v ∧
        fetchBytes n s = .next (bs, s.setReg .ip (s.reg .ip + BitVec.ofNat 64 n))) ∧
    (∀ k, memRead s (s.reg .ip) n = .fault k → fetchBytes n s = .fault (.halt k { s with run := .faulted k }))

/-- HLT is the only stop state without a fault, and nothing wakes a stopped engine: no step changes it
(60_exceptions.md R344). -/
def Obligations.HaltIsTheOnlyStop : Prop :=
  (∀ s t : State, s.run = .running → step s = .next t →
    t.run = .running ∨
      (t.run = .halted ∧ s.nextMove = .step ∧ ∃ u, fetchInstr s.dropMove = .next (.hlt, u))) ∧
  (∀ s : State, s.run ≠ .running → step s = .next s)

/-- A hardware request is one step on its own between instructions, on the same path as INT (60_exceptions.md R324,
R327, 47_interrupt_ops.md R290). -/
def Obligations.DeliveryTakesThePathOfInt : Prop :=
  ∀ (s : State) (v : Word),
    s.run = .running → s.nextMove = .deliver v → step s = exec (.int v) s.dropMove

/-! ### Reset and what every step keeps -/

/-- What construction leaves, for every choice of the host's parameters and devices; a new RAM device is all zero
(10_state.md R35). -/
def Obligations.ConstructionLeavesTheResetValues : Prop :=
  (∀ (p : Params) (ds : List Device),
    (State.launch p ds).reg .sp = p.addressSpaceTop - 1 ∧
    (State.launch p ds).reg .fp = p.addressSpaceTop - 1 ∧
    (State.launch p ds).reg .im = 0xFFFFFFFFFFFFFFFF ∧
    (∀ r, r ∉ [Reg.sp, Reg.fp, Reg.im] → (State.launch p ds).reg r = 0) ∧
    (State.launch p ds).flags = { c := false, z := false, n := false, o := false, i := false } ∧
    (State.launch p ds).stackFrameSize = 0 ∧ (State.launch p ds).run = .running ∧
    (State.launch p ds).devices = ds ∧ (State.launch p ds).params = p) ∧
  ∀ (b : Bus) (size : Nat), ∃ d, (b.newRam size).devices = b.devices ++ [d] ∧ d.size = size ∧
    ∀ k, d.cells.get k = 0

/-- The reset state meets the invariant of a run. Its memory map is the model's choice (log 2). -/
def Obligations.ResetMeetsTheInvariant : Prop := Inv State.reset

/-- Every step keeps the invariant, one that ends in a fault too: the memory map stays well formed and every device's
contents stay canonical and inside its size (20_memory.md R61, R63, R65). -/
def Obligations.StepKeepsTheInvariant : Prop :=
  ∀ s t : State, Inv s → leaves (step s) t → Inv t

/-- Where the invariant holds, the model refuses no step: each ends in a next state or in a fault of the spec. The
refusal of a device that is not RAM is the model's choice (log 6). -/
def Obligations.NoStepIsRefused : Prop := ∀ (s : State) (r : Refusal), Inv s → step s ≠ .refused r

/-- What is no state: no step changes a launch parameter, the region list or the size of a device (10_state.md R34,
20_memory.md R65). -/
def Obligations.StepKeepsTheLaunch : Prop :=
  ∀ s t : State, leaves (step s) t →
    t.params = s.params ∧ t.devices.map Device.size = s.devices.map Device.size

/-- The flag-writer table: which flags each instruction may write, and that the arithmetic family writes O as C, INT
on an unmasked line sets I, and RTI clears it (10_state.md R29). -/
def Obligations.FlagWriterTable : Prop :=
  ∀ (i : Instr) (s t : State), leaves (exec i s) t →
    ((flagGroup i).writesC = false → t.flags.c = s.flags.c) ∧
    ((flagGroup i).writesZ = false → t.flags.z = s.flags.z) ∧
    ((flagGroup i).writesN = false → t.flags.n = s.flags.n) ∧
    ((flagGroup i).writesO = false → t.flags.o = s.flags.o) ∧
    ((flagGroup i).writesI = false → t.flags.i = s.flags.i) ∧
    (flagGroup i = .arithmetic → exec i s = .next t → t.flags.o = t.flags.c) ∧
    (∀ v, i = .int v → exec i s = .next t →
      t.flags.i = (s.flags.i || (s.reg .im).getLsbD (v.toNat % 64))) ∧
    (i = .rti → t.flags.i = false)

/-- No instruction reads C or O: with other values in them, every instruction ends alike but for C and O themselves
(10_state.md R29). -/
def Obligations.CarryAndOverflowAreNeverRead : Prop :=
  ∀ (i : Instr) (s : State),
    mapState State.hideCarryOverflow (exec i s.hideCarryOverflow) = mapState State.hideCarryOverflow (exec i s)

/-- ACC and MB have no implicit role: neither a fetch nor an interrupt entry nor an instruction that does not name the
register reads it or changes it (10_state.md R32). -/
def Obligations.AccAndMbHaveNoImplicitRole : Prop :=
  ∀ r ∈ [Reg.acc, Reg.mb], ∀ (s : State) (v : Word),
    (∀ i, r ∉ registersOf i → exec i (s.setReg r v) = mapState (fun t => t.setReg r v) (exec i s)) ∧
    (∀ w, handleInterrupt w (s.setReg r v) = mapState (fun t => t.setReg r v) (handleInterrupt w s)) ∧
    (∀ i t, fetchInstr s = .next (i, t) → fetchInstr (s.setReg r v) = .next (i, t.setReg r v))

/-! ### The bus -/

/-- Bus bounds: an access that ends with the device's last byte succeeds, one that ends past it faults
(20_memory.md R87). -/
def Obligations.DeviceBoundIsExact : Prop :=
  ∀ (s : State) (g : Region) (d : Device) (a : Word) (n : Nat),
    n ∈ [1, 2, 4, 8] → findRegion s.params.regions a = some g → s.devices[g.dev]? = some d →
      ((Region.effective g a).toNat + n = d.size →
        (∃ v, memRead s a n = .next v) ∧ ∀ v, ∃ t, memWrite a n v s = .next t) ∧
      ((Region.effective g a).toNat + n > d.size →
        memRead s a n = .fault (.outOfBounds a n) ∧
        ∀ v, memWrite a n v s =
          .fault (.halt (.outOfBounds a n) { s with run := .faulted (.outOfBounds a n) }))

/-- The region that contains the address serves the access, wherever it stands in the search order; with none, the
access faults (20_memory.md R66). -/
def Obligations.ContainingRegionServesTheAccess : Prop :=
  ∀ (s : State) (a : Word), wellFormedMap s.devices.length s.params.regions = true →
    (∀ g ∈ s.params.regions, g.first.toNat ≤ a.toNat → a.toNat ≤ g.last.toNat →
      findRegion s.params.regions a = some g) ∧
    ((∀ g ∈ s.params.regions, ¬(g.first.toNat ≤ a.toNat ∧ a.toNat ≤ g.last.toNat)) →
      findRegion s.params.regions a = none ∧
      ∀ n v, memRead s a n = .fault (.unmappedAddress a) ∧
        memWrite a n v s = .fault (.halt (.unmappedAddress a) { s with run := .faulted (.unmappedAddress a) }))

/-- The memory primitives: a read gives the little-endian value, zero-extended; a write changes the low bytes of the
value into memory and nothing else; both fault as the bus access does (20_memory.md R70, R71). -/
def Obligations.MemReadAndMemWrite : Prop :=
  ∀ (s : State) (a : Word) (n : Nat), n ∈ [1, 2, 4, 8] →
    (∀ l, locate s a n = .next l →
      (∃ v, memRead s a n = .next v ∧ v.toNat < 2 ^ (8 * n) ∧
        ∀ j, j < n → v.extractLsb' (8 * j) 8 = s.byteAt l.dev (l.off + j)) ∧
      ∀ v, ∃ t, memWrite a n v s = .next t ∧
        (∀ j, j < n → t.byteAt l.dev (l.off + j) = v.extractLsb' (8 * j) 8) ∧
        sameMemoryOutside l n s t ∧ sameRegsBut [] s t ∧ t.flags = s.flags ∧ sameHidden s t) ∧
    (∀ k, locate s a n = .fault k →
      (k = .unmappedAddress a ∨ k = .outOfBounds a n) ∧
      memRead s a n = .fault k ∧ ∀ v, memWrite a n v s = .fault (.halt k { s with run := .faulted k }))

/-- Rebasing: an access at offset `k` of a rebasing region is the device's own access at local address `k`
(20_memory.md R69). -/
def Obligations.RebasedAccessIsDeviceAccess : Prop :=
  ∀ (s : State) (g : Region) (d : Device) (k n : Nat),
    wellFormedMap s.devices.length s.params.regions = true → g ∈ s.params.regions → g.rebase = true →
    s.devices[g.dev]? = some d → k ≤ g.last.toNat - g.first.toNat →
      memReadBytes s (g.first + BitVec.ofNat 64 k) n =
          (if k + n ≤ d.size then .next (d.cells.load k n)
            else .fault (.outOfBounds (g.first + BitVec.ofNat 64 k) n)) ∧
      ∀ v, k + n ≤ d.size →
        memWrite (g.first + BitVec.ofNat 64 k) n v s = .next (s.storeAt { dev := g.dev, off := k } (leBytes n v.toNat))

/-- Mixed widths: a read inside the bytes of a wider write gives those bytes of the written value, and the bytes outside
keep their values (20_memory.md R73). The premises on the address say that the read falls on written bytes: the same
region, no wrap. -/
def Obligations.NarrowReadInsideWideWrite : Prop :=
  ∀ (s t : State) (a v : Word) (n m j : Nat) (l : Loc),
    n ∈ [1, 2, 4, 8] → m ∈ [1, 2, 4, 8] → j + m ≤ n → a.toNat + j < 2 ^ 64 →
    findRegion s.params.regions (a + BitVec.ofNat 64 j) = findRegion s.params.regions a →
    locate s a n = .next l → memWrite a n v s = .next t →
      memRead t (a + BitVec.ofNat 64 j) m = .next ((v.extractLsb' (8 * j) (8 * m)).setWidth 64) ∧
      sameMemoryOutside l n s t

/-- Mapping: a reversed range is refused first, then a range that shares an address with a mapped region; any other is
inserted at the front of the search order (20_memory.md R64). -/
def Obligations.MapChecksRangeThenOverlap : Prop :=
  ∀ (b : Bus) (g : Region),
    wellFormedMap b.devices.length b.regions = true → g.dev < b.devices.length →
      (g.first.toNat > g.last.toNat → b.map g = .fault .invalidRange) ∧
      (g.first.toNat ≤ g.last.toNat →
        ((∃ h ∈ b.regions, ∃ a : Word, g.covers a = true ∧ h.covers a = true) →
          b.map g = .fault .overlappingRegion) ∧
        ((∀ h ∈ b.regions, ∀ a : Word, ¬(g.covers a = true ∧ h.covers a = true)) →
          b.map g = .next { b with regions := g :: b.regions }))

/-- Overlap: of two mapped regions the second fails if the ranges share an address, else both are mapped and each serves
its own addresses (20_memory.md R88). -/
def Obligations.DisjointRegionsAreBothAddressable : Prop :=
  ∀ (b : Bus) (g h : Region),
    b.regions = [] → g.dev < b.devices.length → h.dev < b.devices.length →
    g.first.toNat ≤ g.last.toNat → h.first.toNat ≤ h.last.toNat →
      ∃ b1, b.map g = .next b1 ∧
        ((∃ a : Word, g.covers a = true ∧ h.covers a = true) → b1.map h = .fault .overlappingRegion) ∧
        ((∀ a : Word, ¬(g.covers a = true ∧ h.covers a = true)) →
          ∃ b2, b1.map h = .next b2 ∧
            ∀ a : Word, (g.covers a = true → findRegion b2.regions a = some g) ∧
              (h.covers a = true → findRegion b2.regions a = some h))

/-! ### Registers, loads and stores -/

/-- Register round trip: every slot reads back what was written to it, and the others keep theirs (10_state.md R36). -/
def Obligations.RegisterRoundTrip : Prop :=
  ∀ (s : State) (r : Reg) (v : Word), (s.setReg r v).reg r = v ∧ ∀ q, q ≠ r → (s.setReg r v).reg q = s.reg q

/-- The immediate loads and TF write the whole register, narrow immediates zero-extended, and nothing else
(40_load_store.md R140 to R143, R152). -/
def Obligations.ImmediateLoadsAndTransfer : Prop :=
  ∀ (s : State) (r q : Reg) (a : Word) (b : BitVec 8) (c : BitVec 16) (d : BitVec 32),
    (∃ t, exec (.ldi r a) s = .next t ∧ onlyRegister r a s t) ∧
    (∃ t, exec (.ldbi r b) s = .next t ∧ onlyRegister r (BitVec.ofNat 64 b.toNat) s t) ∧
    (∃ t, exec (.ldwi r c) s = .next t ∧ onlyRegister r (BitVec.ofNat 64 c.toNat) s t) ∧
    (∃ t, exec (.lddi r d) s = .next t ∧ onlyRegister r (BitVec.ofNat 64 d.toNat) s t) ∧
    (∃ t, exec (.tf r q) s = .next t ∧ onlyRegister r (s.reg q) s t)

/-- The loads from memory put the little-endian value, zero-extended, into the register and change nothing else
(40_load_store.md R144 to R147). -/
def Obligations.MemoryLoadsReadLittleEndian : Prop :=
  ∀ (s : State) (r : Reg) (a : Word),
    loadsBytes (.ldm r a) r a 8 s ∧ loadsBytes (.ldbm r a) r a 1 s ∧ loadsBytes (.ldwm r a) r a 2 s ∧
    loadsBytes (.lddm r a) r a 4 s

/-- The stores write the register's highest bytes: all eight, the top one, the top two, the top four
(40_load_store.md R148 to R151). -/
def Obligations.StoresTakeTheHighEnd : Prop :=
  ∀ (s : State) (r : Reg) (a : Word),
    storesHighBytes (.st r a) r a 8 s ∧ storesHighBytes (.stb r a) r a 1 s ∧ storesHighBytes (.stw r a) r a 2 s ∧
    storesHighBytes (.std r a) r a 4 s

/-- A load or store whose access fails faults and leaves all but the run state as it was (40_load_store.md R144 to
R151, 60_exceptions.md R311). -/
def Obligations.FailedLoadOrStoreChangesNothing : Prop :=
  ∀ (s : State) (r : Reg) (a : Word) (k : FaultKind),
    (locate s a 8 = .fault k → faultsUnchanged (.ldm r a) k s ∧ faultsUnchanged (.st r a) k s) ∧
    (locate s a 1 = .fault k → faultsUnchanged (.ldbm r a) k s ∧ faultsUnchanged (.stb r a) k s) ∧
    (locate s a 2 = .fault k → faultsUnchanged (.ldwm r a) k s ∧ faultsUnchanged (.stw r a) k s) ∧
    (locate s a 4 = .fault k → faultsUnchanged (.lddm r a) k s ∧ faultsUnchanged (.std r a) k s)

/-! ### Arithmetic -/

/-- Addition and subtraction wrap, C and O are the comparison of the result with the first operand, and that comparison
is the true carry or borrow (41_arithmetic.md R160 to R162, R168, R169). -/
def Obligations.AddAndSubtract : Prop :=
  ∀ (s : State) (r q : Reg) (b : Word),
    computes (.addi r b) r (s.reg r + b)
      (arithmeticFlags (decide ((s.reg r + b).toNat < (s.reg r).toNat)) (s.reg r + b) s.flags) s ∧
    computes (.add r q) r (s.reg r + s.reg q)
      (arithmeticFlags (decide ((s.reg r + s.reg q).toNat < (s.reg r).toNat)) (s.reg r + s.reg q) s.flags) s ∧
    computes (.subi r b) r (s.reg r - b)
      (arithmeticFlags (decide ((s.reg r - b).toNat > (s.reg r).toNat)) (s.reg r - b) s.flags) s ∧
    computes (.sub r q) r (s.reg r - s.reg q)
      (arithmeticFlags (decide ((s.reg r - s.reg q).toNat > (s.reg r).toNat)) (s.reg r - s.reg q) s.flags) s ∧
    ((s.reg r + b).toNat < (s.reg r).toNat ↔ 2 ^ 64 ≤ (s.reg r).toNat + b.toNat) ∧
    ((s.reg r - b).toNat > (s.reg r).toNat ↔ (s.reg r).toNat < b.toNat)

/-- Multiplication keeps the low 64 bits, the same for both variants; C and O compare the result with the first operand,
as signed values in the S variants (41_arithmetic.md R160, R163, R166, R170, R173). -/
def Obligations.MultiplyKeepsTheLowBits : Prop :=
  ∀ (s : State) (r q : Reg) (b : Word),
    computes (.muli r b) r (s.reg r * b)
      (arithmeticFlags (decide ((s.reg r * b).toNat < (s.reg r).toNat)) (s.reg r * b) s.flags) s ∧
    computes (.mul r q) r (s.reg r * s.reg q)
      (arithmeticFlags (decide ((s.reg r * s.reg q).toNat < (s.reg r).toNat)) (s.reg r * s.reg q) s.flags) s ∧
    computes (.mulis r b) r (s.reg r * b)
      (arithmeticFlags (decide ((s.reg r * b).toInt < (s.reg r).toInt)) (s.reg r * b) s.flags) s ∧
    computes (.muls r q) r (s.reg r * s.reg q)
      (arithmeticFlags (decide ((s.reg r * s.reg q).toInt < (s.reg r).toInt)) (s.reg r * s.reg q) s.flags) s

/-- Unsigned division and remainder by a divisor that is not 0 complete and always clear C and O
(41_arithmetic.md R164, R165, R171, R172). -/
def Obligations.UnsignedDivisionClearsCarry : Prop :=
  ∀ (s : State) (r q : Reg) (b : Word),
    (b ≠ 0 → computes (.divi r b) r (s.reg r / b) (arithmeticFlags false (s.reg r / b) s.flags) s ∧
      computes (.modi r b) r (s.reg r % b) (arithmeticFlags false (s.reg r % b) s.flags) s) ∧
    (s.reg q ≠ 0 →
      computes (.div r q) r (s.reg r / s.reg q) (arithmeticFlags false (s.reg r / s.reg q) s.flags) s ∧
      computes (.mod r q) r (s.reg r % s.reg q) (arithmeticFlags false (s.reg r % s.reg q) s.flags) s)

/-- Signed division truncates toward zero and completes on all operands but a divisor of 0 and the most negative value
divided by -1; C and O are the signed comparison of the quotient with the dividend (41_arithmetic.md R160, R167,
R174). -/
def Obligations.SignedDivisionTruncates : Prop :=
  ∀ (s : State) (r q : Reg) (b : Word),
    (b ≠ 0 → ¬((s.reg r).toInt = -2 ^ 63 ∧ b.toInt = -1) →
      ∃ res : Word, res.toInt = (s.reg r).toInt.tdiv b.toInt ∧
        computes (.divis r b) r res (arithmeticFlags (decide (res.toInt > (s.reg r).toInt)) res s.flags) s) ∧
    (s.reg q ≠ 0 → ¬((s.reg r).toInt = -2 ^ 63 ∧ (s.reg q).toInt = -1) →
      ∃ res : Word, res.toInt = (s.reg r).toInt.tdiv (s.reg q).toInt ∧
        computes (.divs r q) r res (arithmeticFlags (decide (res.toInt > (s.reg r).toInt)) res s.flags) s)

/-- Division by 0 faults in all six instructions, and the most negative value divided by -1 faults in the signed ones,
with no register and no flag written (41_arithmetic.md R164 to R167, R171, R172, R174, R175). -/
def Obligations.DivisionFaults : Prop :=
  ∀ (s : State) (r q : Reg) (b : Word),
    (b = 0 → faultsUnchanged (.divi r b) .divideByZero s ∧ faultsUnchanged (.modi r b) .divideByZero s ∧
      faultsUnchanged (.divis r b) .divideByZero s) ∧
    (s.reg q = 0 → faultsUnchanged (.div r q) .divideByZero s ∧ faultsUnchanged (.mod r q) .divideByZero s ∧
      faultsUnchanged (.divs r q) .divideByZero s) ∧
    (s.reg r = 0x8000000000000000 → b = 0xFFFFFFFFFFFFFFFF → faultsUnchanged (.divis r b) .divideOverflow s) ∧
    (s.reg r = 0x8000000000000000 → s.reg q = 0xFFFFFFFFFFFFFFFF → faultsUnchanged (.divs r q) .divideOverflow s)

/-! ### Bitwise, shift and rotate, compare -/

/-- The logic instructions write the result, Z and N and nothing else; NOT and NOTI complement the source or the
immediate (42_bitwise.md R180 to R184, R189 to R192). -/
def Obligations.LogicWritesZeroAndNegative : Prop :=
  ∀ (s : State) (r q : Reg) (b : Word),
    computes (.andi r b) r (s.reg r &&& b) (resultFlags (s.reg r &&& b) s.flags) s ∧
    computes (.ori r b) r (s.reg r ||| b) (resultFlags (s.reg r ||| b) s.flags) s ∧
    computes (.xori r b) r (s.reg r ^^^ b) (resultFlags (s.reg r ^^^ b) s.flags) s ∧
    computes (.noti r b) r (~~~b) (resultFlags (~~~b) s.flags) s ∧
    computes (.and r q) r (s.reg r &&& s.reg q) (resultFlags (s.reg r &&& s.reg q) s.flags) s ∧
    computes (.or r q) r (s.reg r ||| s.reg q) (resultFlags (s.reg r ||| s.reg q) s.flags) s ∧
    computes (.xor r q) r (s.reg r ^^^ s.reg q) (resultFlags (s.reg r ^^^ s.reg q) s.flags) s ∧
    computes (.not r q) r (~~~(s.reg q)) (resultFlags (~~~(s.reg q)) s.flags) s

/-- Shifts by 0 to 63 complete: SHL and SHR shift logically with zero fill, C is the comparison of the result with the
operand, O stays (42_bitwise.md R180, R185, R186, R193, R194). -/
def Obligations.ShiftsBelow64 : Prop :=
  ∀ (s : State) (r q : Reg) (n : Word),
    (n.toNat < 64 →
      computes (.shli r n) r (s.reg r <<< n.toNat)
        (carriedFlags (decide ((s.reg r <<< n.toNat).toNat < (s.reg r).toNat)) (s.reg r <<< n.toNat) s.flags) s ∧
      computes (.shri r n) r (s.reg r >>> n.toNat) (carriedFlags false (s.reg r >>> n.toNat) s.flags) s) ∧
    ((s.reg q).toNat < 64 →
      computes (.shl r q) r (s.reg r <<< (s.reg q).toNat)
        (carriedFlags (decide ((s.reg r <<< (s.reg q).toNat).toNat < (s.reg r).toNat))
          (s.reg r <<< (s.reg q).toNat) s.flags) s ∧
      computes (.shr r q) r (s.reg r >>> (s.reg q).toNat)
        (carriedFlags false (s.reg r >>> (s.reg q).toNat) s.flags) s)

/-- Rotates by 1 to 63 complete and rotate; C is the comparison of the result with the operand, below for ROL and above
for ROR (42_bitwise.md R180, R187, R188, R195, R196). -/
def Obligations.RotatesFrom1To63 : Prop :=
  ∀ (s : State) (r q : Reg) (n : Word),
    (1 ≤ n.toNat → n.toNat < 64 →
      computes (.rori r n) r ((s.reg r).rotateRight n.toNat)
        (carriedFlags (decide (((s.reg r).rotateRight n.toNat).toNat > (s.reg r).toNat))
          ((s.reg r).rotateRight n.toNat) s.flags) s ∧
      computes (.roli r n) r ((s.reg r).rotateLeft n.toNat)
        (carriedFlags (decide (((s.reg r).rotateLeft n.toNat).toNat < (s.reg r).toNat))
          ((s.reg r).rotateLeft n.toNat) s.flags) s) ∧
    (1 ≤ (s.reg q).toNat → (s.reg q).toNat < 64 →
      computes (.ror r q) r ((s.reg r).rotateRight (s.reg q).toNat)
        (carriedFlags (decide (((s.reg r).rotateRight (s.reg q).toNat).toNat > (s.reg r).toNat))
          ((s.reg r).rotateRight (s.reg q).toNat) s.flags) s ∧
      computes (.rol r q) r ((s.reg r).rotateLeft (s.reg q).toNat)
        (carriedFlags (decide (((s.reg r).rotateLeft (s.reg q).toNat).toNat < (s.reg r).toNat))
          ((s.reg r).rotateLeft (s.reg q).toNat) s.flags) s)

/-- A shift by 64 or more, or a rotate by 0 or by 64 or more, faults with the amount and writes nothing
(42_bitwise.md R180). -/
def Obligations.ShiftAmountOutOfRangeFaults : Prop :=
  ∀ (s : State) (r q : Reg) (n : Word),
    (64 ≤ n.toNat →
      faultsUnchanged (.shli r n) (.undefinedShift n) s ∧ faultsUnchanged (.shri r n) (.undefinedShift n) s) ∧
    (n = 0 ∨ 64 ≤ n.toNat →
      faultsUnchanged (.rori r n) (.undefinedShift n) s ∧ faultsUnchanged (.roli r n) (.undefinedShift n) s) ∧
    (64 ≤ (s.reg q).toNat →
      faultsUnchanged (.shl r q) (.undefinedShift (s.reg q)) s ∧
      faultsUnchanged (.shr r q) (.undefinedShift (s.reg q)) s) ∧
    (s.reg q = 0 ∨ 64 ≤ (s.reg q).toNat →
      faultsUnchanged (.ror r q) (.undefinedShift (s.reg q)) s ∧
      faultsUnchanged (.rol r q) (.undefinedShift (s.reg q)) s)

/-- The compares write C, Z and N as the subtraction would, C being the borrow, and no register; O stays
(43_compare.md R200, R201). -/
def Obligations.CompareSetsThreeFlags : Prop :=
  ∀ (s : State) (r q : Reg) (b : Word),
    (∃ t, exec (.cmp r q) s = .next t ∧
      onlyFlags (carriedFlags (decide ((s.reg r - s.reg q).toNat > (s.reg r).toNat)) (s.reg r - s.reg q) s.flags) s t) ∧
    (∃ t, exec (.cmpi r b) s = .next t ∧
      onlyFlags (carriedFlags (decide ((s.reg r - b).toNat > (s.reg r).toNat)) (s.reg r - b) s.flags) s t) ∧
    ((s.reg r - b).toNat > (s.reg r).toNat ↔ (s.reg r).toNat < b.toNat)

/-! ### Control flow -/

/-- The fourteen jumps go to the address or the register's value if the condition on Z and N holds, else on, and change
nothing else (44_control_flow.md R210 to R217, R225 to R231). -/
def Obligations.JumpsTestZeroAndNegative : Prop :=
  ∀ (s : State) (a : Word) (r : Reg),
    (jumpsTo (.jmp a) a true s ∧ jumpsTo (.jeq a) a s.flags.z s ∧ jumpsTo (.jne a) a (!s.flags.z) s ∧
      jumpsTo (.jgt a) a (!s.flags.z && !s.flags.n) s ∧ jumpsTo (.jlt a) a s.flags.n s ∧
      jumpsTo (.jge a) a (!s.flags.n) s ∧ jumpsTo (.jle a) a (s.flags.z || s.flags.n) s) ∧
    (jumpsTo (.jmpr r) (s.reg r) true s ∧ jumpsTo (.jeqr r) (s.reg r) s.flags.z s ∧
      jumpsTo (.jner r) (s.reg r) (!s.flags.z) s ∧ jumpsTo (.jgtr r) (s.reg r) (!s.flags.z && !s.flags.n) s ∧
      jumpsTo (.jltr r) (s.reg r) s.flags.n s ∧ jumpsTo (.jger r) (s.reg r) (!s.flags.n) s ∧
      jumpsTo (.jler r) (s.reg r) (s.flags.z || s.flags.n) s)

/-- The fourteen branches, if the condition on Z and N holds, push IP and go to the address or to the register's value
from before the push; not taken, they change nothing (44_control_flow.md R210, R218 to R224, R232 to R238). -/
def Obligations.BranchesPushTheReturnAddress : Prop :=
  ∀ (s : State) (a : Word) (r : Reg),
    (branchesTo (.bra a) a true s ∧ branchesTo (.beq a) a s.flags.z s ∧ branchesTo (.bne a) a (!s.flags.z) s ∧
      branchesTo (.bgt a) a (!s.flags.z && !s.flags.n) s ∧ branchesTo (.blt a) a s.flags.n s ∧
      branchesTo (.bge a) a (!s.flags.n) s ∧ branchesTo (.ble a) a (s.flags.z || s.flags.n) s) ∧
    (branchesTo (.brar r) (s.reg r) true s ∧ branchesTo (.beqr r) (s.reg r) s.flags.z s ∧
      branchesTo (.bner r) (s.reg r) (!s.flags.z) s ∧ branchesTo (.bgtr r) (s.reg r) (!s.flags.z && !s.flags.n) s ∧
      branchesTo (.bltr r) (s.reg r) s.flags.n s ∧ branchesTo (.bger r) (s.reg r) (!s.flags.n) s ∧
      branchesTo (.bler r) (s.reg r) (s.flags.z || s.flags.n) s)

/-- RET goes to the word above SP and pops it (44_control_flow.md R239). -/
def Obligations.RetPopsIp : Prop :=
  ∀ (s : State) (v : Word), wordIs s (s.reg .sp + 8) v →
    ∃ t, exec .ret s = .next t ∧ t.reg .ip = v ∧ t.reg .sp = s.reg .sp + 8 ∧ poppedWord [.ip] s t

/-! ### The stack and calls -/

/-- PUSH and PUSHI write the word where SP points, then move SP down; PUSH SP pushes SP as it was
(45_stack_call.md R240, R247, R248). -/
def Obligations.PushWritesWhereSpPoints : Prop :=
  ∀ (s : State) (r : Reg) (v : Word) (l : Loc), locate s (s.reg .sp) 8 = .next l →
    (∃ t, exec (.push r) s = .next t ∧ pushedWord (s.reg r) [] l s t) ∧
    (∃ t, exec (.pushi v) s = .next t ∧ pushedWord v [] l s t)

/-- POP moves SP up, reads there and writes the register last, so that POP SP leaves the popped value in SP
(45_stack_call.md R241, R249). -/
def Obligations.PopReadsAboveSp : Prop :=
  ∀ (s : State) (r : Reg) (v : Word), wordIs s (s.reg .sp + 8) v →
    ∃ t, exec (.pop r) s = .next t ∧ t.reg r = v ∧ (r ≠ .sp → t.reg .sp = s.reg .sp + 8) ∧ poppedWord [r] s t

/-- A push that cannot write faults with everything unchanged, IP too where a taken branch makes it; a pop that cannot
read faults with SP moved up and the counter unchanged (45_stack_call.md R240, R241, 44_control_flow.md R210). -/
def Obligations.FailedPushAndPop : Prop :=
  ∀ (s : State) (r : Reg) (v : Word) (k : FaultKind),
    (locate s (s.reg .sp) 8 = .fault k →
      (faultsUnchanged (.push r) k s ∧ faultsUnchanged (.pushi v) k s) ∧
      (branchFaults (.bra v) true k s ∧ branchFaults (.beq v) s.flags.z k s ∧ branchFaults (.bne v) (!s.flags.z) k s ∧
        branchFaults (.bgt v) (!s.flags.z && !s.flags.n) k s ∧ branchFaults (.blt v) s.flags.n k s ∧
        branchFaults (.bge v) (!s.flags.n) k s ∧ branchFaults (.ble v) (s.flags.z || s.flags.n) k s) ∧
      (branchFaults (.brar r) true k s ∧ branchFaults (.beqr r) s.flags.z k s ∧
        branchFaults (.bner r) (!s.flags.z) k s ∧ branchFaults (.bgtr r) (!s.flags.z && !s.flags.n) k s ∧
        branchFaults (.bltr r) s.flags.n k s ∧ branchFaults (.bger r) (!s.flags.n) k s ∧
        branchFaults (.bler r) (s.flags.z || s.flags.n) k s)) ∧
    (locate s (s.reg .sp + 8) 8 = .fault k →
      exec (.pop r) s = .fault (.halt k { s.setReg .sp (s.reg .sp + 8) with run := .faulted k }) ∧
      exec .ret s = .fault (.halt k { s.setReg .sp (s.reg .sp + 8) with run := .faulted k }))

/-- Popping after a push gives the pushed value and restores SP, and under the default setting the counter too
(45_stack_call.md R241). -/
def Obligations.PopReturnsThePushedWord : Prop :=
  ∀ (s t : State) (v : Word), push64 v s = .next t →
    ∃ u, pop64 t = .next (v, u) ∧ u.reg .sp = s.reg .sp ∧
      (s.params.pushCountsFrame = true → u.stackFrameSize = s.stackFrameSize)

/-- CALL and CALLR complete where the ten words can be pushed: R1 to R8, the return address and the frame size are saved
below SP, FP is SP, the counter 0 and IP the target as read before the pushes (45_stack_call.md R243, R244, R250,
R251). -/
def Obligations.CallEntersAFrame : Prop :=
  ∀ (s : State) (a : Word) (r : Reg), pushable s 10 →
    (∃ t, exec (.call a) s = .next t ∧ t.flags = s.flags ∧ enteredFrame (frameWords s 0) a s t) ∧
    (∃ t, exec (.callr r) s = .next t ∧ t.flags = s.flags ∧ enteredFrame (frameWords s 0) (s.reg r) s t)

/-- A frame whose word `k` cannot be pushed: CALL, CALLR and INT fault there and roll nothing back, the words below it
staying written, with FP, IP and F.I as before; an INT that cannot read its vector faults with nothing pushed
(45_stack_call.md R244, 60_exceptions.md R311, R313, R320). -/
def Obligations.FailedFramePush : Prop :=
  ∀ (s : State) (a v : Word) (r : Reg) (k : Nat) (f : FaultKind),
    (k < 10 → pushable s k → locate s (wordBelow (s.reg .sp) k) 8 = .fault f →
      faultsAtPush (.call a) (frameWords s 0) k f s ∧ faultsAtPush (.callr r) (frameWords s 0) k f s) ∧
    ((s.reg .im).getLsbD (v.toNat % 64) = true →
      (s.flags.i = false →
        accessible s (s.params.ivtBase + BitVec.ofNat 64 (8 * (v.toNat % 64))) 8 →
        k < 11 → pushable s k → locate s (wordBelow (s.reg .sp) k) 8 = .fault f →
          faultsAtPush (.int v) (0 :: frameWords s 1) k f s) ∧
      (locate s (s.params.ivtBase + BitVec.ofNat 64 (8 * (v.toNat % 64))) 8 = .fault f →
        faultsUnchanged (.int v) f s))

/-- A frame whose word `k` cannot be read: RTC and RTI fault there and roll nothing back, SP standing at that word and the
registers popped before it written, FP as before; RTI has cleared F.I (45_stack_call.md R245, 47_interrupt_ops.md R291,
60_exceptions.md R311). -/
def Obligations.FailedFramePop : Prop :=
  ∀ (s : State) (w : Nat → Word) (k : Nat) (f : FaultKind), frameBreaksAt s w k f →
    (∃ t, exec .rtc s = .fault (.halt f t) ∧ t.flags = s.flags ∧ poppedBeforeFault w k f s t) ∧
    (∃ t, exec .rti s = .fault (.halt f t) ∧ t.flags = { s.flags with i := false } ∧ poppedBeforeFault w k f s t)

/-- RTC completes where the frame at FP and the argument words above it can be read: it restores IP and R8 to R1, leaves
SP past the arguments and FP advanced by the saved frame size (45_stack_call.md R245, R252). -/
def Obligations.ReturnFromCallLeavesTheFrame : Prop :=
  ∀ (s : State) (w : Nat → Word), frameAtFp s w →
    ∃ t, exec .rtc s = .next t ∧ t.flags = s.flags ∧ leftFrame w s t

/-- Call and return round trip: after a CALL or CALLR, in any state with the FP of its entry in which the frame's words and the
count above them still read as they did, RTC goes to the instruction after the call and restores R1 to R8
(45_stack_call.md R254). -/
def Obligations.CallThenReturn : Prop :=
  ∀ (s t c : State) (a n : Word) (q : Reg),
    exec (.call a) s = .next t ∨ exec (.callr q) s = .next t → oneStackRegion s 10 →
    wordIs t (wordAbove (t.reg .fp) 11) n →
    c.reg .fp = t.reg .fp →
    (∀ k v, 1 ≤ k → k ≤ 11 → wordIs t (wordAbove (t.reg .fp) k) v → wordIs c (wordAbove (t.reg .fp) k) v) →
    (∀ k, 11 < k → k ≤ 11 + n.toNat → accessible c (wordAbove (t.reg .fp) k) 8) →
      ∃ u, exec .rtc c = .next u ∧ u.reg .ip = s.reg .ip ∧
        (∀ r ∈ [Reg.r1, .r2, .r3, .r4, .r5, .r6, .r7, .r8], u.reg r = s.reg r) ∧
        u.reg .sp = wordAbove (s.reg .sp) (1 + n.toNat) ∧
        (s.params.pushCountsFrame = true → u.reg .fp = s.reg .sp + s.stackFrameSize)

/-- While only pushes and pops move SP, the counter is FP minus SP: every instruction but the two returns from a frame
and those that write SP or FP as an operand keeps that, under the default setting (45_stack_call.md R246). -/
def Obligations.CounterTracksFpMinusSp : Prop :=
  ∀ (i : Instr) (s t : State),
    s.params.pushCountsFrame = true → s.stackFrameSize = s.reg .fp - s.reg .sp → keepsFrameCount i →
    exec i s = .next t → t.stackFrameSize = t.reg .fp - t.reg .sp

/-- After every return from a frame under the default setting, the counter is 8 more than FP minus SP
(45_stack_call.md R246). -/
def Obligations.CounterIsEightAheadAfterReturn : Prop :=
  ∀ s t : State, s.params.popStateCounter = .restore →
    exec .rtc s = .next t ∨ exec .rti s = .next t → t.stackFrameSize = t.reg .fp - t.reg .sp + 8

/-! ### Flags, interrupts, NOP and HLT -/

/-- Each of the ten flag instructions sets one flag to its constant and changes nothing else (46_flag_ops.md R270 to
R279). -/
def Obligations.FlagInstructionsSetOneFlag : Prop :=
  ∀ s : State,
    (∃ t, exec .clc s = .next t ∧ onlyFlags { s.flags with c := false } s t) ∧
    (∃ t, exec .sec s = .next t ∧ onlyFlags { s.flags with c := true } s t) ∧
    (∃ t, exec .clz s = .next t ∧ onlyFlags { s.flags with z := false } s t) ∧
    (∃ t, exec .sez s = .next t ∧ onlyFlags { s.flags with z := true } s t) ∧
    (∃ t, exec .cln s = .next t ∧ onlyFlags { s.flags with n := false } s t) ∧
    (∃ t, exec .sen s = .next t ∧ onlyFlags { s.flags with n := true } s t) ∧
    (∃ t, exec .clo s = .next t ∧ onlyFlags { s.flags with o := false } s t) ∧
    (∃ t, exec .seo s = .next t ∧ onlyFlags { s.flags with o := true } s t) ∧
    (∃ t, exec .cli s = .next t ∧ onlyFlags { s.flags with i := false } s t) ∧
    (∃ t, exec .sei s = .next t ∧ onlyFlags { s.flags with i := true } s t)

/-- A masked interrupt changes nothing, not even where the vector table cannot be read, and leaves nothing pending
(60_exceptions.md R321). -/
def Obligations.MaskedInterruptChangesNothing : Prop :=
  ∀ (s : State) (v : Word), (s.reg .im).getLsbD (v.toNat % 64) = false →
    exec (.int v) s = .next s ∧
    (s.run = .running → s.nextMove = .deliver v → step s = .next s.dropMove)

/-- Interrupt entry outside a handler completes where the vector can be read and eleven words pushed: the zero count and
a full frame are saved, FP is SP, the counter 0, I set and IP the handler's address; IM, ACC, MB and the other flags
stay (60_exceptions.md R322). -/
def Obligations.InterruptEntrySavesAFrame : Prop :=
  ∀ (s : State) (v handler : Word),
    (s.reg .im).getLsbD (v.toNat % 64) = true → s.flags.i = false →
    wordIs s (s.params.ivtBase + BitVec.ofNat 64 (8 * (v.toNat % 64))) handler → pushable s 11 →
      ∃ t, exec (.int v) s = .next t ∧ t.flags = { s.flags with i := true } ∧
        enteredFrame (0 :: frameWords s 1) handler s t

/-- A nested interrupt only goes to the handler: nothing is saved and all else stays (60_exceptions.md R323). -/
def Obligations.NestedInterruptOnlyJumps : Prop :=
  ∀ (s : State) (v handler : Word),
    (s.reg .im).getLsbD (v.toNat % 64) = true → s.flags.i = true →
    wordIs s (s.params.ivtBase + BitVec.ofNat 64 (8 * (v.toNat % 64))) handler →
      ∃ t, exec (.int v) s = .next t ∧ onlyRegister .ip handler s t

/-- RTI completes where the frame at FP can be read: it clears I, keeps the other flags and pops the frame as RTC does
(47_interrupt_ops.md R291, 60_exceptions.md R329). -/
def Obligations.ReturnFromInterruptLeavesTheFrame : Prop :=
  ∀ (s : State) (w : Nat → Word), frameAtFp s w →
    ∃ t, exec .rti s = .next t ∧ t.flags = { s.flags with i := false } ∧ leftFrame w s t

/-- Interrupt and return round trip: after an entry that saved a frame, in any state with the FP of that entry in which
its eleven words still read as they did, RTI resumes the interrupted code with R1 to R8 and SP as before
(47_interrupt_ops.md R290, R291). -/
def Obligations.InterruptThenReturn : Prop :=
  ∀ (s t c : State) (v : Word),
    (s.reg .im).getLsbD (v.toNat % 64) = true → s.flags.i = false →
    exec (.int v) s = .next t → oneStackRegion s 11 →
    c.reg .fp = t.reg .fp →
    (∀ k w, 1 ≤ k → k ≤ 11 → wordIs t (wordAbove (t.reg .fp) k) w → wordIs c (wordAbove (t.reg .fp) k) w) →
      ∃ u, exec .rti c = .next u ∧ u.reg .ip = s.reg .ip ∧
        (∀ r ∈ [Reg.r1, .r2, .r3, .r4, .r5, .r6, .r7, .r8], u.reg r = s.reg r) ∧
        u.reg .sp = s.reg .sp ∧ u.flags = { c.flags with i := false } ∧
        (s.params.pushCountsFrame = true → u.reg .fp = s.reg .sp + s.stackFrameSize)

/-- NOP changes nothing; HLT changes the run state alone (48_misc.md R300, R301). -/
def Obligations.NopAndHalt : Prop :=
  ∀ s : State, exec .nop s = .next s ∧ exec .hlt s = .next { s with run := .halted }
end

