-- ==== Sys2Proof/Laws/Bytes.lean ====
section
/-! SUPPORT. Little-endian bytes of a number and back. -/

namespace Sys2Proof.Machine

@[simp] theorem length_leBytes (n v : Nat) : (leBytes n v).length = n := by
  induction n generalizing v with
  | zero => rfl
  | succ n ih => simp [leBytes, ih]

/-- Writing `n` bytes of a number and reading them keeps the number modulo 256^n (20_memory.md R72). -/
theorem leNat_leBytes (n v : Nat) : leNat (leBytes n v) = v % 256 ^ n := by
  induction n generalizing v with
  | zero => simp [leBytes, leNat, Nat.mod_one]
  | succ n ih =>
    have h : v % 256 ^ (n + 1) = v % 256 + 256 * (v / 256 % 256 ^ n) := by rw [Nat.pow_succ', Nat.mod_mul]
    rw [h, leBytes, leNat, ih, BitVec.toNat_ofNat]

theorem leNat_lt (bs : List Byte) : leNat bs < 256 ^ bs.length := by
  induction bs with
  | nil => simp [leNat]
  | cons b bs ih =>
    have := b.isLt
    simp only [leNat, List.length_cons, Nat.pow_succ']
    omega

theorem leNat_append (as bs : List Byte) : leNat (as ++ bs) = leNat as + 256 ^ as.length * leNat bs := by
  induction as with
  | nil => simp [leNat]
  | cons a as ih => simp [leNat, ih, Nat.pow_succ', Nat.mul_add, Nat.mul_assoc, Nat.add_assoc]

/-- The bytes from number `j` up are the bytes of the quotient by 256^j. -/
theorem drop_leBytes (j n v : Nat) : (leBytes (j + n) v).drop j = leBytes n (v / 256 ^ j) := by
  induction j generalizing v with
  | zero => simp
  | succ j ih =>
    rw [show j + 1 + n = (j + n) + 1 by omega]
    simp only [leBytes, List.drop_succ_cons, ih]
    rw [Nat.div_div_eq_div_mul, Nat.pow_succ']

/-- The first `m` bytes of a number are its `m` bytes. -/
theorem take_leBytes (m n v : Nat) : (leBytes (m + n) v).take m = leBytes m v := by
  induction m generalizing v with
  | zero => simp [leBytes]
  | succ m ih =>
    rw [show m + 1 + n = (m + n) + 1 by omega]
    simp [leBytes, ih]

/-- A word is kept by writing and reading its eight bytes. -/
@[simp] theorem leWord_leBytes (v : Word) : leWord (leBytes 8 v.toNat) = v := by
  apply BitVec.eq_of_toNat_eq
  have := v.isLt
  simp only [leWord, leNat_leBytes, BitVec.toNat_ofNat]
  omega

@[simp] theorem takeLe_leBytes (n v : Nat) (rest : List Byte) :
    takeLe n (leBytes n v ++ rest) = .ok (v % 256 ^ n, rest) := by
  simp [takeLe, leNat_leBytes]

/-- A register's selector byte names that register (10_state.md R21, R22). -/
@[simp] theorem regOfSelector_selectorOf (r : Reg) : regOfSelector (selectorOf r) = r := by
  cases r <;> rfl

end Sys2Proof.Machine
end

