-- ==== Sys2Proof/Laws/Memory.lean ====
section
/-! SUPPORT. The laws of a device's contents: read after write, and every operation keeps the canonical form. -/

namespace Sys2Proof.Machine

@[simp] theorem Memory.get_erase (m : Memory) (k j : Nat) :
    Memory.get (Memory.erase m k) j = if j = k then unlistedByte else Memory.get m j := by
  induction m with
  | nil => simp [Memory.erase, Memory.get]
  | cons c m ih =>
    obtain ⟨a, b⟩ := c
    by_cases hak : a = k
    · subst hak
      by_cases hj : j = a
      · subst hj
        simpa [Memory.erase] using ih
      · simp [Memory.erase, Memory.get, ih, hj, Ne.symm hj]
    · by_cases haj : a = j
      · subst haj
        simp [Memory.erase, Memory.get, hak]
      · simp [Memory.erase, Memory.get, hak, haj, ih]

theorem Memory.ne_of_mem_erase {m : Memory} {k : Nat} {c : Host.Cell} (h : c ∈ Memory.erase m k) :
    c.1 ≠ k ∧ c ∈ m := by
  induction m with
  | nil => simp [Memory.erase] at h
  | cons d m ih =>
    obtain ⟨a, b⟩ := d
    simp only [Memory.erase] at h
    split at h
    · exact ⟨(ih h).1, List.mem_cons_of_mem _ (ih h).2⟩
    · next hak =>
      rcases List.mem_cons.mp h with rfl | h
      · exact ⟨hak, List.mem_cons_self ..⟩
      · exact ⟨(ih h).1, List.mem_cons_of_mem _ (ih h).2⟩

theorem Memory.get_insert (m : Memory) (k j : Nat) (b : Byte) (hk : ∀ c ∈ m, c.1 ≠ k) :
    Memory.get (Memory.insert m k b) j = if j = k then b else Memory.get m j := by
  induction m with
  | nil =>
    by_cases hj : j = k
    · simp [Memory.insert, Memory.get, hj]
    · simp [Memory.insert, Memory.get, hj, Ne.symm hj]
  | cons c m ih =>
    obtain ⟨a, d⟩ := c
    have hne : a ≠ k := hk (a, d) (by simp)
    have hk' : ∀ c ∈ m, c.1 ≠ k := fun c hc => hk c (by simp [hc])
    simp only [Memory.insert]
    split
    · by_cases hj : j = k
      · subst hj
        simp [Memory.get]
      · simp [Memory.get, hj, Ne.symm hj]
    · by_cases haj : a = j
      · subst haj
        simp [Memory.get, hne]
      · simp [Memory.get, haj, ih hk']

/-- Read after write: the written address reads the byte, every other address reads as before. -/
@[simp] theorem Memory.get_put (m : Memory) (k j : Nat) (b : Byte) :
    Memory.get (Memory.put m k b) j = if j = k then b else Memory.get m j := by
  unfold Memory.put
  split
  · next h => simp [h]
  · rw [Memory.get_insert _ _ _ _ (fun c hc => (Memory.ne_of_mem_erase hc).1), Memory.get_erase]
    split <;> simp_all

/-- Reading after a write of several bytes. -/
theorem Memory.get_store (m : Memory) (off : Nat) (bs : List Byte) (j : Nat) :
    Memory.get (Memory.store m off bs) j =
      if off ≤ j ∧ j < off + bs.length then bs[j - off]?.getD 0 else Memory.get m j := by
  induction bs generalizing m off with
  | nil =>
    have : ¬(off ≤ j ∧ j < off + ([] : List Byte).length) := by simp
    rw [if_neg this, Memory.store]
  | cons b bs ih =>
    rw [Memory.store, ih, Memory.get_put]
    by_cases h1 : j = off
    · subst h1
      simp
    · by_cases h2 : off + 1 ≤ j ∧ j < off + 1 + bs.length
      · rw [if_pos h2, if_pos (by simp; omega)]
        rw [show j - off = (j - (off + 1)) + 1 by omega]
        simp
      · rw [if_neg h2, if_neg h1, if_neg (by simp; omega)]

@[simp] theorem Memory.length_load (m : Memory) (off n : Nat) : (Memory.load m off n).length = n := by
  induction n generalizing off with
  | zero => rfl
  | succ n ih => simp [Memory.load, ih]

/-- A load depends on the bytes it covers alone. -/
theorem Memory.load_congr (m m' : Memory) (off n : Nat) 
    (h : ∀ k, off ≤ k → k < off + n → Memory.get m' k = Memory.get m k) :
    Memory.load m' off n = Memory.load m off n := by
  induction n generalizing off with
  | zero => rfl
  | succ n ih =>
    simp only [Memory.load]
    rw [h off (Nat.le_refl _) (by omega), ih (off + 1) (fun k h1 h2 => h k (by omega) (by omega))]

/-- Loading from inside a store gives the stored bytes. -/
theorem Memory.load_store (m : Memory) (off j n : Nat) (bs : List Byte) (h : j + n ≤ bs.length) :
    (Memory.store m off bs).load (off + j) n = (bs.drop j).take n := by
  induction n generalizing j with
  | zero => simp [Memory.load]
  | succ n ih =>
    have hj : j < bs.length := by omega
    simp only [Memory.load]
    rw [Memory.get_store, if_pos ⟨by omega, by omega⟩, Nat.add_assoc, ih (j + 1) (by omega)]
    rw [show off + j - off = j by omega, List.drop_eq_getElem_cons hj, List.take_succ_cons]
    simp [hj]

theorem Memory.wfFrom_mono {lo lo' : Nat} (h : lo' ≤ lo) {m : Memory} (hm : Memory.wfFrom lo m = true) :
    Memory.wfFrom lo' m = true := by
  cases m with
  | nil => rfl
  | cons c m =>
    obtain ⟨a, b⟩ := c
    simp only [Memory.wfFrom, Bool.and_eq_true, decide_eq_true_eq] at hm ⊢
    exact ⟨⟨by omega, hm.1.2⟩, hm.2⟩

/-- Erasing an entry keeps the canonical form. -/
theorem Memory.wfFrom_erase {lo : Nat} {m : Memory} (k : Nat) (h : Memory.wfFrom lo m = true) :
    Memory.wfFrom lo (Memory.erase m k) = true := by
  induction m generalizing lo with
  | nil => rfl
  | cons c m ih =>
    obtain ⟨a, b⟩ := c
    simp only [Memory.wfFrom, Bool.and_eq_true, decide_eq_true_eq] at h
    simp only [Memory.erase]
    split
    · exact Memory.wfFrom_mono (by omega) (ih h.2)
    · simp only [Memory.wfFrom, Bool.and_eq_true, decide_eq_true_eq]
      exact ⟨h.1, ih h.2⟩

/-- Inserting a nonzero byte at a fresh address keeps the canonical form. -/
theorem Memory.wfFrom_insert {lo k : Nat} {b : Byte} {m : Memory} (hb : b ≠ 0) (hlo : lo ≤ k)
    (hk : ∀ c ∈ m, c.1 ≠ k) (h : Memory.wfFrom lo m = true) :
    Memory.wfFrom lo (Memory.insert m k b) = true := by
  induction m generalizing lo with
  | nil =>
    simp only [Memory.insert, Memory.wfFrom, Bool.and_eq_true, decide_eq_true_eq]
    exact ⟨⟨hlo, hb⟩, trivial⟩
  | cons c m ih =>
    obtain ⟨a, d⟩ := c
    have hne : a ≠ k := hk (a, d) (by simp)
    simp only [Memory.wfFrom, Bool.and_eq_true, decide_eq_true_eq] at h
    simp only [Memory.insert]
    split
    · simp only [Memory.wfFrom, Bool.and_eq_true, decide_eq_true_eq]
      exact ⟨⟨hlo, hb⟩, ⟨by omega, h.1.2⟩, h.2⟩
    · simp only [Memory.wfFrom, Bool.and_eq_true, decide_eq_true_eq]
      exact ⟨h.1, ih (by omega) (fun c hc => hk c (by simp [hc])) h.2⟩

/-- A write of one byte keeps the canonical form. -/
theorem Memory.wf_put {m : Memory} (k : Nat) (b : Byte) (h : m.wf = true) : (Memory.put m k b).wf = true := by
  unfold Memory.put Memory.wf
  split
  · exact Memory.wfFrom_erase k h
  · next hb =>
    exact Memory.wfFrom_insert hb (Nat.zero_le _) (fun c hc => (Memory.ne_of_mem_erase hc).1)
      (Memory.wfFrom_erase k h)

/-- A write of several bytes keeps the canonical form. -/
theorem Memory.wf_store {m : Memory} (off : Nat) (bs : List Byte) (h : m.wf = true) :
    (Memory.store m off bs).wf = true := by
  induction bs generalizing m off with
  | nil => exact h
  | cons b bs ih => exact ih (off + 1) (Memory.wf_put off b h)

theorem Memory.mem_insert {m : Memory} {k : Nat} {b : Byte} {c : Host.Cell} (h : c ∈ Memory.insert m k b) :
    c.1 = k ∨ c ∈ m := by
  induction m with
  | nil =>
    simp only [Memory.insert, List.mem_singleton] at h
    exact .inl (by simp [h])
  | cons d m ih =>
    obtain ⟨a, e⟩ := d
    simp only [Memory.insert] at h
    split at h
    · rcases List.mem_cons.mp h with h | h
      · exact .inl (by simp [h])
      · exact .inr h
    · rcases List.mem_cons.mp h with h | h
      · exact .inr (by simp [h])
      · rcases ih h with h | h
        · exact .inl h
        · exact .inr (by simp [h])

/-- A write adds no entry but at its own address. -/
theorem Memory.mem_put {m : Memory} {k : Nat} {b : Byte} {c : Host.Cell} (h : c ∈ Memory.put m k b) : c.1 = k ∨ c ∈ m := by
  unfold Memory.put at h
  split at h
  · exact .inr (Memory.ne_of_mem_erase h).2
  · rcases Memory.mem_insert h with h | h
    · exact .inl h
    · exact .inr (Memory.ne_of_mem_erase h).2

/-- A store inside a device keeps the device well formed. -/
theorem Device.wf_store {d : Device} {off : Nat} {bs : List Byte} (h : d.wf = true) (hs : off + bs.length ≤ d.size) :
    Device.wf { d with cells := d.cells.store off bs } = true := by
  simp only [Device.wf, Bool.and_eq_true] at h ⊢
  refine ⟨Memory.wf_store off bs h.1, ?_⟩
  have h2 := h.2
  rw [List.all_eq_true] at h2 ⊢
  revert h2
  generalize d.cells = m
  intro h2
  induction bs generalizing m off with
  | nil => exact h2
  | cons b bs ih =>
    simp only [List.length_cons] at hs
    refine ih (off := off + 1) (by omega) _ ?_
    intro c hc
    rcases Memory.mem_put hc with hc | hc
    · simp only [decide_eq_true_eq]
      omega
    · exact h2 c hc

end Sys2Proof.Machine
end

