-- ==== Sys2Proof/Laws/State.lean ====
section
/-! SUPPORT. One lemma per field per update of `State`, true by rfl, and the read-after-write lemmas of the register
file. -/

namespace Sys2Proof.Machine

/-- A slot reads what was written to it (10_state.md R36). -/
@[simp] theorem RegFile.get_set_self (f : RegFile) (r : Reg) (v : Word) : (f.set r v).get r = v := by
  cases r <;> rfl

/-- A write leaves every other slot alone. -/
@[simp] theorem RegFile.get_set_of_ne (f : RegFile) {r q : Reg} (v : Word) (h : q ≠ r) :
    (f.set r v).get q = f.get q := by
  cases r <;> cases q <;> first | rfl | exact absurd rfl h

@[simp] theorem State.reg_setReg_self (s : State) (r : Reg) (v : Word) : (s.setReg r v).reg r = v :=
  RegFile.get_set_self s.regs r v

@[simp] theorem State.reg_setReg_of_ne (s : State) {r q : Reg} (v : Word) (h : q ≠ r) :
    (s.setReg r v).reg q = s.reg q := RegFile.get_set_of_ne s.regs v h

@[simp] theorem State.setReg_flags (s : State) (r : Reg) (v : Word) : (s.setReg r v).flags = s.flags := rfl
@[simp] theorem State.setReg_stackFrameSize (s : State) (r : Reg) (v : Word) :
    (s.setReg r v).stackFrameSize = s.stackFrameSize := rfl
@[simp] theorem State.setReg_run (s : State) (r : Reg) (v : Word) : (s.setReg r v).run = s.run := rfl
@[simp] theorem State.setReg_devices (s : State) (r : Reg) (v : Word) : (s.setReg r v).devices = s.devices := rfl
@[simp] theorem State.setReg_params (s : State) (r : Reg) (v : Word) : (s.setReg r v).params = s.params := rfl
@[simp] theorem State.setReg_hostMoves (s : State) (r : Reg) (v : Word) : (s.setReg r v).hostMoves = s.hostMoves := rfl
@[simp] theorem State.setReg_byteAt (s : State) (r : Reg) (v : Word) : (s.setReg r v).byteAt = s.byteAt := rfl
@[simp] theorem State.setReg_loadAt (s : State) (r : Reg) (v : Word) : (s.setReg r v).loadAt = s.loadAt := rfl

@[simp] theorem State.setFlags_reg (s : State) (f : Flags) : (s.setFlags f).reg = s.reg := rfl
@[simp] theorem State.setFlags_flags (s : State) (f : Flags) : (s.setFlags f).flags = f := rfl
@[simp] theorem State.setFlags_stackFrameSize (s : State) (f : Flags) :
    (s.setFlags f).stackFrameSize = s.stackFrameSize := rfl
@[simp] theorem State.setFlags_run (s : State) (f : Flags) : (s.setFlags f).run = s.run := rfl
@[simp] theorem State.setFlags_devices (s : State) (f : Flags) : (s.setFlags f).devices = s.devices := rfl
@[simp] theorem State.setFlags_params (s : State) (f : Flags) : (s.setFlags f).params = s.params := rfl
@[simp] theorem State.setFlags_hostMoves (s : State) (f : Flags) : (s.setFlags f).hostMoves = s.hostMoves := rfl
@[simp] theorem State.setFlags_byteAt (s : State) (f : Flags) : (s.setFlags f).byteAt = s.byteAt := rfl
@[simp] theorem State.setFlags_loadAt (s : State) (f : Flags) : (s.setFlags f).loadAt = s.loadAt := rfl

@[simp] theorem State.setFrameSize_reg (s : State) (v : Word) : (s.setFrameSize v).reg = s.reg := rfl
@[simp] theorem State.setFrameSize_flags (s : State) (v : Word) : (s.setFrameSize v).flags = s.flags := rfl
@[simp] theorem State.setFrameSize_stackFrameSize (s : State) (v : Word) :
    (s.setFrameSize v).stackFrameSize = v := rfl
@[simp] theorem State.setFrameSize_run (s : State) (v : Word) : (s.setFrameSize v).run = s.run := rfl
@[simp] theorem State.setFrameSize_devices (s : State) (v : Word) : (s.setFrameSize v).devices = s.devices := rfl
@[simp] theorem State.setFrameSize_params (s : State) (v : Word) : (s.setFrameSize v).params = s.params := rfl
@[simp] theorem State.setFrameSize_hostMoves (s : State) (v : Word) :
    (s.setFrameSize v).hostMoves = s.hostMoves := rfl
@[simp] theorem State.setFrameSize_byteAt (s : State) (v : Word) : (s.setFrameSize v).byteAt = s.byteAt := rfl
@[simp] theorem State.setFrameSize_loadAt (s : State) (v : Word) : (s.setFrameSize v).loadAt = s.loadAt := rfl

@[simp] theorem State.setInHandler_reg (s : State) (b : Bool) : (s.setInHandler b).reg = s.reg := rfl
@[simp] theorem State.setInHandler_flags (s : State) (b : Bool) :
    (s.setInHandler b).flags = { s.flags with i := b } := rfl
@[simp] theorem State.setInHandler_stackFrameSize (s : State) (b : Bool) :
    (s.setInHandler b).stackFrameSize = s.stackFrameSize := rfl
@[simp] theorem State.setInHandler_run (s : State) (b : Bool) : (s.setInHandler b).run = s.run := rfl
@[simp] theorem State.setInHandler_devices (s : State) (b : Bool) : (s.setInHandler b).devices = s.devices := rfl
@[simp] theorem State.setInHandler_params (s : State) (b : Bool) : (s.setInHandler b).params = s.params := rfl
@[simp] theorem State.setInHandler_hostMoves (s : State) (b : Bool) :
    (s.setInHandler b).hostMoves = s.hostMoves := rfl
@[simp] theorem State.setInHandler_byteAt (s : State) (b : Bool) : (s.setInHandler b).byteAt = s.byteAt := rfl
@[simp] theorem State.setInHandler_loadAt (s : State) (b : Bool) : (s.setInHandler b).loadAt = s.loadAt := rfl

@[simp] theorem State.storeAt_reg (s : State) (l : Loc) (bs : List Byte) : (s.storeAt l bs).reg = s.reg := rfl
@[simp] theorem State.storeAt_flags (s : State) (l : Loc) (bs : List Byte) : (s.storeAt l bs).flags = s.flags := rfl
@[simp] theorem State.storeAt_stackFrameSize (s : State) (l : Loc) (bs : List Byte) :
    (s.storeAt l bs).stackFrameSize = s.stackFrameSize := rfl
@[simp] theorem State.storeAt_run (s : State) (l : Loc) (bs : List Byte) : (s.storeAt l bs).run = s.run := rfl
@[simp] theorem State.storeAt_params (s : State) (l : Loc) (bs : List Byte) : (s.storeAt l bs).params = s.params := rfl
@[simp] theorem State.storeAt_hostMoves (s : State) (l : Loc) (bs : List Byte) :
    (s.storeAt l bs).hostMoves = s.hostMoves := rfl

@[simp] theorem State.dropMove_reg (s : State) : s.dropMove.reg = s.reg := rfl
@[simp] theorem State.dropMove_flags (s : State) : s.dropMove.flags = s.flags := rfl
@[simp] theorem State.dropMove_stackFrameSize (s : State) : s.dropMove.stackFrameSize = s.stackFrameSize := rfl
@[simp] theorem State.dropMove_run (s : State) : s.dropMove.run = s.run := rfl
@[simp] theorem State.dropMove_devices (s : State) : s.dropMove.devices = s.devices := rfl
@[simp] theorem State.dropMove_params (s : State) : s.dropMove.params = s.params := rfl
@[simp] theorem State.dropMove_hostMoves (s : State) : s.dropMove.hostMoves = s.hostMoves.tail := rfl
@[simp] theorem State.dropMove_byteAt (s : State) : s.dropMove.byteAt = s.byteAt := rfl
@[simp] theorem State.dropMove_loadAt (s : State) : s.dropMove.loadAt = s.loadAt := rfl

end Sys2Proof.Machine
end

