-- ==== Sys2Proof/Laws/Ops.lean ====
section
/-! SUPPORT. For each shared operation, what it can do, said once: provers cite these instead of unfolding the
operation. -/

namespace Sys2Proof.Machine

/-! ### Statements in order -/

@[simp] theorem andThen_next {α β : Type} (a : α) (f : α → Result β) : andThen (.next a) f = f a := rfl

theorem andThen_eq_next {α β : Type} {x : Result α} {f : α → Result β} {b : β} :
    andThen x f = .next b ↔ ∃ a, x = .next a ∧ f a = .next b := by
  cases x <;> simp [andThen]

theorem andThen_assoc {α β γ : Type} (x : Result α) (f : α → Result β) (g : β → Result γ) :
    andThen (andThen x f) g = andThen x fun a => andThen (f a) g := by
  cases x <;> rfl

@[simp] theorem andThen_raise {α β : Type} (k : FaultKind) (s : State) (f : α → Result β) :
    andThen (raise k s) f = raise k s := rfl

@[simp] theorem during_next {α β : Type} (s : State) (a : α) (f : α → Result β) : during s (.next a) f = f a := rfl

@[simp] theorem during_fault {α β : Type} (s : State) (k : FaultKind) (f : α → Result β) :
    during s (.fault k) f = raise k s := rfl

theorem during_eq_next {α β : Type} {s : State} {x : Access α} {f : α → Result β} {b : β} :
    during s x f = .next b ↔ ∃ a, x = .next a ∧ f a = .next b := by
  cases x <;> simp [during, raise]

theorem raise_ne_next {α : Type} (k : FaultKind) (s : State) (a : α) : (raise k s : Result α) ≠ .next a := by
  simp [raise]

/-! ### Where an access lands -/

/-- What a successful access is: a region contains the address, its device is RAM, and the access ends inside the
device (20_memory.md R61, R66 to R68). -/
theorem locate_eq_next {s : State} {a : Word} {n : Nat} {l : Loc} :
    locate s a n = .next l ↔
      ∃ g d, findRegion s.params.regions a = some g ∧ s.devices[g.dev]? = some d ∧
        (Region.effective g a).toNat + n ≤ d.size ∧ l = { dev := g.dev, off := (Region.effective g a).toNat } := by
  unfold locate
  cases hg : findRegion s.params.regions a with
  | none => simp
  | some g =>
    cases hd : s.devices[g.dev]? with
    | none => simp [hd]
    | some d =>
      by_cases h : d.size < (Region.effective g a).toNat + n
      · simp only [hd, h, if_true, reduceCtorEq, Option.some.injEq, false_iff]
        rintro ⟨g', d', rfl, hd', hle, -⟩
        rw [hd] at hd'
        cases hd'
        omega
      · simp only [hd, h, if_false, Host.Outcome.next.injEq, Option.some.injEq]
        constructor
        · rintro rfl
          exact ⟨g, d, rfl, hd, by omega, rfl⟩
        · rintro ⟨g', d', rfl, -, -, rfl⟩
          rfl

/-- Where an access lands depends on the memory map and the device sizes alone. -/
theorem locate_congr {s t : State} (h : sameShape s t) (a : Word) (n : Nat) : locate t a n = locate s a n := by
  obtain ⟨hp, hd⟩ := h
  unfold locate
  rw [hp]
  cases hg : findRegion s.params.regions a with
  | none => rfl
  | some g =>
    have hk : (t.devices[g.dev]?).map Device.size = (s.devices[g.dev]?).map Device.size := by
      rw [← List.getElem?_map, ← List.getElem?_map, hd]
    cases ht : t.devices[g.dev]? <;> cases hs : s.devices[g.dev]? <;> simp_all

theorem sameShape.refl (s : State) : sameShape s s := ⟨rfl, rfl⟩

theorem sameShape.trans {s t u : State} (h : sameShape s t) (h' : sameShape t u) : sameShape s u :=
  ⟨h'.1.trans h.1, h'.2.trans h.2⟩

/-! ### Stores and loads at a location -/

theorem sizes_modify_cells (ds : List Device) (dev : Nat) (f : Memory → Memory) :
    (ds.modify dev (fun d => { d with cells := f d.cells })).map Device.size = ds.map Device.size := by
  apply List.ext_getElem?
  intro i
  simp only [List.getElem?_map, List.getElem?_modify]
  split <;> cases ds[i]? <;> rfl

/-- A store changes no size and no parameter. -/
theorem sameShape_storeAt (s : State) (l : Loc) (bs : List Byte) : sameShape s (s.storeAt l bs) :=
  ⟨rfl, sizes_modify_cells s.devices l.dev (fun m => Memory.store m l.off bs)⟩

/-- A byte after a store: the stored bytes where they lie, every other byte of every device as before. -/
theorem byteAt_storeAt (s : State) (l : Loc) (bs : List Byte) (dev off : Nat) (hl : l.dev < s.devices.length) :
    (s.storeAt l bs).byteAt dev off =
      if dev = l.dev ∧ l.off ≤ off ∧ off < l.off + bs.length then bs[off - l.off]?.getD 0 else s.byteAt dev off := by
  unfold State.byteAt State.storeAt
  simp only [List.getElem?_modify]
  by_cases hd : dev = l.dev
  · subst hd
    rw [List.getElem?_eq_getElem hl]
    simp [Memory.get_store]
  · simp [hd, Ne.symm hd]

/-- Bytes of other places survive a store. -/
theorem sameMemoryOutside_storeAt (s : State) (l : Loc) (bs : List Byte) :
    sameMemoryOutside l bs.length s (s.storeAt l bs) := by
  intro dev off h
  by_cases hl : l.dev < s.devices.length
  · rw [byteAt_storeAt s l bs dev off hl, if_neg h]
  · have : s.storeAt l bs = s := by
      unfold State.storeAt
      rw [List.modify_eq_self (by omega)]
    rw [this]

/-- Reading inside a store gives the stored bytes. -/
theorem loadAt_storeAt (s : State) (l : Loc) (bs : List Byte) (j n : Nat) (hl : l.dev < s.devices.length)
    (h : j + n ≤ bs.length) :
    (s.storeAt l bs).loadAt { dev := l.dev, off := l.off + j } n = (bs.drop j).take n := by
  unfold State.loadAt State.storeAt
  simp only [List.getElem?_modify]
  rw [List.getElem?_eq_getElem hl]
  simp [Memory.load_store _ _ _ _ _ h]

/-- A load depends on the bytes it covers alone. -/
theorem loadAt_congr {s t : State} {l : Loc} {n : Nat} (hl : (t.devices[l.dev]?).isSome = (s.devices[l.dev]?).isSome)
    (h : ∀ k, l.off ≤ k → k < l.off + n → t.byteAt l.dev k = s.byteAt l.dev k) : t.loadAt l n = s.loadAt l n := by
  unfold State.loadAt
  unfold State.byteAt at h
  cases ht : t.devices[l.dev]? <;> cases hs : s.devices[l.dev]? <;> simp_all
  exact Memory.load_congr _ _ _ _ h

/-! ### The memory primitives -/

/-- What a successful read is (20_memory.md R68, R70). -/
theorem memRead_eq_next {s : State} {a v : Word} {n : Nat} :
    memRead s a n = .next v ↔ ∃ l, locate s a n = .next l ∧ v = leWord (s.loadAt l n) := by
  unfold memRead memReadBytes
  cases h : locate s a n with
  | next l => simp [eq_comm]
  | fault k => simp
  | refused r => simp

theorem memReadBytes_eq_next {s : State} {a : Word} {n : Nat} {bs : List Byte} :
    memReadBytes s a n = .next bs ↔ ∃ l, locate s a n = .next l ∧ bs = s.loadAt l n := by
  unfold memReadBytes
  cases h : locate s a n with
  | next l => simp [eq_comm]
  | fault k => simp
  | refused r => simp

/-- What a successful write is: the bytes are stored where the access lands, and nothing else changes
(20_memory.md R68, R71). -/
theorem memWrite_eq_next {s t : State} {a v : Word} {n : Nat} :
    memWrite a n v s = .next t ↔ ∃ l, locate s a n = .next l ∧ t = s.storeAt l (leBytes n v.toNat) := by
  unfold memWrite
  rw [during_eq_next]
  simp [eq_comm]

/-- The same memory, map and sizes give the same reads. -/
theorem memRead_congr {s t : State} (h : sameShape s t) (hm : t.devices = s.devices) (a : Word) (n : Nat) :
    memRead t a n = memRead s a n := by
  unfold memRead memReadBytes
  rw [locate_congr h]
  simp only [State.loadAt, hm]

/-! ### The stack primitives -/

/-- The counter after a push (45_stack_call.md R240). -/
def countedPush (p : Params) (size : Word) : Word := if p.pushCountsFrame then size + 8 else size

/-- The state after a push whose word lands at a location. -/
def State.pushed (s : State) (l : Loc) (v : Word) : State :=
  ((s.storeAt l (leBytes 8 v.toNat)).setReg .sp (s.reg .sp - 8)).setFrameSize (countedPush s.params s.stackFrameSize)

/-- All that `push64` can do when it answers (45_stack_call.md R240). -/
theorem push64_eq_next {s t : State} {v : Word} :
    push64 v s = .next t ↔ ∃ l, locate s (s.reg .sp) 8 = .next l ∧ t = s.pushed l v := by
  unfold push64
  rw [andThen_eq_next]
  constructor
  · rintro ⟨s1, h1, h2⟩
    obtain ⟨l, hl, rfl⟩ := memWrite_eq_next.mp h1
    refine ⟨l, hl, ?_⟩
    rw [← Host.Outcome.next.inj h2, State.pushed, countedPush]
    cases hc : s.params.pushCountsFrame
    · simp [hc]
      rfl
    · simp [hc]
  · rintro ⟨l, hl, rfl⟩
    refine ⟨_, memWrite_eq_next.mpr ⟨l, hl, rfl⟩, ?_⟩
    rw [State.pushed, countedPush]
    cases hc : s.params.pushCountsFrame
    · simp [hc]
      rfl
    · simp [hc]

@[simp] theorem State.pushed_reg_sp (s : State) (l : Loc) (v : Word) : (s.pushed l v).reg .sp = s.reg .sp - 8 := by
  simp [State.pushed]
@[simp] theorem State.pushed_reg (s : State) (l : Loc) (v : Word) {q : Reg} (h : q ≠ .sp) :
    (s.pushed l v).reg q = s.reg q := by simp [State.pushed, h]
@[simp] theorem State.pushed_flags (s : State) (l : Loc) (v : Word) : (s.pushed l v).flags = s.flags := rfl
@[simp] theorem State.pushed_run (s : State) (l : Loc) (v : Word) : (s.pushed l v).run = s.run := rfl
@[simp] theorem State.pushed_params (s : State) (l : Loc) (v : Word) : (s.pushed l v).params = s.params := rfl
@[simp] theorem State.pushed_hostMoves (s : State) (l : Loc) (v : Word) :
    (s.pushed l v).hostMoves = s.hostMoves := rfl
@[simp] theorem State.pushed_stackFrameSize (s : State) (l : Loc) (v : Word) :
    (s.pushed l v).stackFrameSize = countedPush s.params s.stackFrameSize := rfl
@[simp] theorem State.pushed_devices (s : State) (l : Loc) (v : Word) :
    (s.pushed l v).devices = (s.storeAt l (leBytes 8 v.toNat)).devices := rfl

theorem sameShape_pushed (s : State) (l : Loc) (v : Word) : sameShape s (s.pushed l v) :=
  sameShape_storeAt s l (leBytes 8 v.toNat)

/-- A push that cannot write faults in the state before it (45_stack_call.md R240). -/
theorem push64_faults {s : State} {v : Word} {f : FaultKind} (h : locate s (s.reg .sp) 8 = .fault f) :
    push64 v s = raise f s := by
  simp only [push64, memWrite, h, during_fault, andThen_raise]

/-- The state after a pop. -/
def State.popped (s : State) : State :=
  (s.setReg .sp (s.reg .sp + 8)).setFrameSize (s.stackFrameSize - 8)

/-- All that `pop64` can do when it answers (45_stack_call.md R241). -/
theorem pop64_eq_next {s : State} {p : Word × State} :
    pop64 s = .next p ↔ ∃ v, memRead s (s.reg .sp + 8) 8 = .next v ∧ p = (v, s.popped) := by
  unfold pop64
  simp only [State.reg_setReg_self]
  rw [during_eq_next]
  have h : memRead (s.setReg .sp (s.reg .sp + 8)) (s.reg .sp + 8) 8 = memRead s (s.reg .sp + 8) 8 := rfl
  rw [h]
  constructor
  · rintro ⟨v, hv, h2⟩
    simp only [Host.Outcome.next.injEq] at h2
    exact ⟨v, hv, h2.symm⟩
  · rintro ⟨v, hv, rfl⟩
    exact ⟨v, hv, rfl⟩

/-- A pop that cannot read faults with SP moved up (45_stack_call.md R241). -/
theorem pop64_faults {s : State} {f : FaultKind} (h : locate s (s.reg .sp + 8) 8 = .fault f) :
    pop64 s = raise f (s.setReg .sp (s.reg .sp + 8)) := by
  have h' : locate (s.setReg .sp (s.reg .sp + 8)) (s.reg .sp + 8) 8 = .fault f := h
  simp only [pop64, State.reg_setReg_self, memRead, memReadBytes, h', during_fault]

@[simp] theorem State.popped_reg_sp (s : State) : s.popped.reg .sp = s.reg .sp + 8 := by simp [State.popped]
@[simp] theorem State.popped_reg (s : State) {q : Reg} (h : q ≠ .sp) : s.popped.reg q = s.reg q := by
  simp [State.popped, h]
@[simp] theorem State.popped_flags (s : State) : s.popped.flags = s.flags := rfl
@[simp] theorem State.popped_run (s : State) : s.popped.run = s.run := rfl
@[simp] theorem State.popped_params (s : State) : s.popped.params = s.params := rfl
@[simp] theorem State.popped_hostMoves (s : State) : s.popped.hostMoves = s.hostMoves := rfl
@[simp] theorem State.popped_devices (s : State) : s.popped.devices = s.devices := rfl
@[simp] theorem State.popped_stackFrameSize (s : State) : s.popped.stackFrameSize = s.stackFrameSize - 8 := rfl
@[simp] theorem State.popped_byteAt (s : State) : s.popped.byteAt = s.byteAt := rfl

/-! ### Frames -/

/-- All that `pushRegs` can do: one push, then the rest. -/
theorem pushRegs_cons_eq_next {r : Reg} {rs : List Reg} {s t : State} :
    pushRegs (r :: rs) s = .next t ↔
      ∃ l, locate s (s.reg .sp) 8 = .next l ∧ pushRegs rs (s.pushed l (s.reg r)) = .next t := by
  simp only [pushRegs, andThen_eq_next, push64_eq_next]
  constructor
  · rintro ⟨s1, ⟨l, hl, rfl⟩, h⟩
    exact ⟨l, hl, h⟩
  · rintro ⟨l, hl, h⟩
    exact ⟨_, ⟨l, hl, rfl⟩, h⟩

/-- All that `popRegs` can do: one pop into a register, then the rest. -/
theorem popRegs_cons_eq_next {r : Reg} {rs : List Reg} {s t : State} :
    popRegs (r :: rs) s = .next t ↔
      ∃ v, memRead s (s.reg .sp + 8) 8 = .next v ∧ popRegs rs (s.popped.setReg r v) = .next t := by
  simp only [popRegs, andThen_eq_next, pop64_eq_next]
  constructor
  · rintro ⟨p, ⟨v, hv, rfl⟩, h⟩
    exact ⟨v, hv, h⟩
  · rintro ⟨v, hv, h⟩
    exact ⟨_, ⟨v, hv, rfl⟩, h⟩

/-- All that `discardWords` can do: one pop, then the rest. -/
theorem discardWords_succ_eq_next {n : Nat} {s t : State} :
    discardWords (n + 1) s = .next t ↔
      ∃ v, memRead s (s.reg .sp + 8) 8 = .next v ∧ discardWords n s.popped = .next t := by
  simp only [discardWords, andThen_eq_next, pop64_eq_next]
  constructor
  · rintro ⟨p, ⟨v, hv, rfl⟩, h⟩
    exact ⟨v, hv, h⟩
  · rintro ⟨v, hv, h⟩
    exact ⟨_, ⟨v, hv, rfl⟩, h⟩

/-- All that `pushState` can do when it answers (45_stack_call.md R244). -/
theorem pushState_eq_next {s t : State} :
    pushState s = .next t ↔
      ∃ s1 l, pushRegs frameRegs s = .next s1 ∧ locate s1 (s1.reg .sp) 8 = .next l ∧
        t = ((s1.pushed l (s1.stackFrameSize + 8)).setReg .fp (s1.reg .sp - 8)).setFrameSize 0 := by
  unfold pushState
  simp only [andThen_eq_next, push64_eq_next]
  constructor
  · rintro ⟨s1, h1, s2, ⟨l, hl, rfl⟩, h2⟩
    simp only [State.pushed_reg_sp, Host.Outcome.next.injEq] at h2
    exact ⟨s1, l, h1, hl, h2.symm⟩
  · rintro ⟨s1, l, h1, hl, rfl⟩
    exact ⟨s1, h1, _, ⟨l, hl, rfl⟩, by simp only [State.pushed_reg_sp]⟩

/-- All that `popState` can do when it answers (45_stack_call.md R245). -/
theorem popState_eq_next {s t : State} :
    popState s = .next t ↔
      ∃ size s2 n s4, memRead s (s.reg .fp + 8) 8 = .next size ∧
        popRegs frameRegs.reverse (restoreCounter size (s.setReg .sp (s.reg .fp)).popped) = .next s2 ∧
        memRead s2 (s2.reg .sp + 8) 8 = .next n ∧ discardWords n.toNat s2.popped = .next s4 ∧
        t = s4.setReg .fp (s.reg .fp + size) := by
  unfold popState
  simp only [andThen_eq_next, pop64_eq_next, State.reg_setReg_self]
  have h0 : ∀ a n, memRead (s.setReg .sp (s.reg .fp)) a n = memRead s a n := fun _ _ => rfl
  simp only [h0]
  constructor
  · rintro ⟨p, ⟨size, hs, rfl⟩, s2, h2, q, ⟨n, hn, rfl⟩, s4, h4, h5⟩
    simp only [Host.Outcome.next.injEq] at h5
    exact ⟨size, s2, n, s4, hs, h2, hn, h4, h5.symm⟩
  · rintro ⟨size, s2, n, s4, hs, h2, hn, h4, rfl⟩
    exact ⟨_, ⟨size, hs, rfl⟩, s2, h2, _, ⟨n, hn, rfl⟩, s4, h4, rfl⟩

/-! ### Interrupts -/

/-- All that `handleInterrupt` can do when it answers (60_exceptions.md R320). -/
theorem handleInterrupt_eq_next {v : Word} {s t : State} :
    handleInterrupt v s = .next t ↔
      ((s.reg .im).getLsbD (v.toNat % 64) = false ∧ t = s) ∨
      ((s.reg .im).getLsbD (v.toNat % 64) = true ∧
        ∃ handler s1, memRead s (vectorAddress s.params (v.toNat % 64)) 8 = .next handler ∧
          saveInterruptFrame s = .next s1 ∧ t = (s1.setInHandler true).setReg .ip handler) := by
  unfold handleInterrupt
  simp only [Config.interruptLines]
  by_cases h : (s.reg .im).getLsbD (v.toNat % 64) = true
  swap
  · simp [h, eq_comm]
  · simp only [h, if_true, during_eq_next, andThen_eq_next, Host.Outcome.next.injEq, Bool.true_eq_false, false_and,
      false_or, true_and]
    constructor
    · rintro ⟨hd, hr, s1, h1, h2⟩
      exact ⟨hd, s1, hr, h1, h2.symm⟩
    · rintro ⟨hd, s1, hr, h1, rfl⟩
      exact ⟨hd, hr, s1, h1, rfl⟩

/-- All that `saveInterruptFrame` can do when it answers (60_exceptions.md R322, R323). -/
theorem saveInterruptFrame_eq_next {s t : State} :
    saveInterruptFrame s = .next t ↔
      (s.flags.i = true ∧ t = s) ∨
      (s.flags.i = false ∧ ∃ l, locate s (s.reg .sp) 8 = .next l ∧ pushState (s.pushed l 0) = .next t) := by
  unfold saveInterruptFrame
  cases h : s.flags.i
  · simp only [Bool.false_eq_true, if_false, andThen_eq_next, push64_eq_next, false_and, false_or, true_and]
    constructor
    · rintro ⟨s1, ⟨l, hl, rfl⟩, h⟩
      exact ⟨l, hl, h⟩
    · rintro ⟨l, hl, h⟩
      exact ⟨_, ⟨l, hl, rfl⟩, h⟩
  · simp [eq_comm]

/-! ### Fetch -/

/-- All that a fetch of `n` bytes can do when it answers (30_encoding.md R101). -/
theorem fetchBytes_eq_next {n : Nat} {s : State} {p : List Byte × State} :
    fetchBytes n s = .next p ↔
      ∃ bs, memReadBytes s (s.reg .ip) n = .next bs ∧ p = (bs, s.setReg .ip (s.reg .ip + BitVec.ofNat 64 n)) := by
  unfold fetchBytes
  rw [during_eq_next]
  constructor
  · rintro ⟨bs, h, h2⟩
    simp only [Host.Outcome.next.injEq] at h2
    exact ⟨bs, h, h2.symm⟩
  · rintro ⟨bs, h, rfl⟩
    exact ⟨bs, h, rfl⟩

/-- All that a fetch of several fields can do: one field, then the rest. -/
theorem fetchFields_cons_eq_next {n : Nat} {ns : List Nat} {s : State} {p : List Byte × State} :
    fetchFields (n :: ns) s = .next p ↔
      ∃ bs cs t, memReadBytes s (s.reg .ip) n = .next bs ∧
        fetchFields ns (s.setReg .ip (s.reg .ip + BitVec.ofNat 64 n)) = .next (cs, t) ∧ p = (bs ++ cs, t) := by
  simp only [fetchFields, andThen_eq_next, fetchBytes_eq_next]
  constructor
  · rintro ⟨q, ⟨bs, hb, rfl⟩, ⟨cs, t⟩, h, h2⟩
    simp only [Host.Outcome.next.injEq] at h2
    exact ⟨bs, cs, t, hb, h, h2.symm⟩
  · rintro ⟨bs, cs, t, hb, h, rfl⟩
    exact ⟨_, ⟨bs, hb, rfl⟩, (cs, t), h, rfl⟩

/-- All that fetching an instruction can do when it answers: the opcode's two bytes, then its format's fields, which
decode to the instruction (30_encoding.md R102). -/
theorem fetchInstr_eq_next {s t : State} {i : Instr} :
    fetchInstr s = .next (i, t) ↔
      ∃ bs l cs rest, memReadBytes s (s.reg .ip) 2 = .next bs ∧ layoutOf s.params.opcodeMap (fetchedOpcode bs) = some l ∧
        fetchFields l.fields (s.setReg .ip (s.reg .ip + 2)) = .next (cs, t) ∧
        decode s.params.opcodeMap (bs ++ cs) = .ok (i, rest) := by
  unfold fetchInstr
  simp only [andThen_eq_next, fetchBytes_eq_next]
  constructor
  · rintro ⟨p, ⟨bs, hb, rfl⟩, h⟩
    cases hl : layoutOf s.params.opcodeMap (fetchedOpcode bs) with
    | none => simp [hl, raise] at h
    | some l =>
      simp only [hl, andThen_eq_next, decodeFetched] at h
      obtain ⟨⟨cs, u⟩, hq, h2⟩ := h
      cases hdec : decode s.params.opcodeMap (bs ++ cs) with
      | error e => simp [hdec, raise] at h2
      | ok q =>
        obtain ⟨j, rest⟩ := q
        simp only [hdec, Host.Outcome.next.injEq, Prod.mk.injEq] at h2
        obtain ⟨rfl, rfl⟩ := h2
        exact ⟨bs, l, cs, rest, hb, hl, hq, hdec⟩
  · rintro ⟨bs, l, cs, rest, hb, hl, hq, hdec⟩
    refine ⟨_, ⟨bs, hb, rfl⟩, ?_⟩
    simp only [hl, andThen_eq_next]
    exact ⟨(cs, t), hq, by simp [decodeFetched, hdec]⟩

end Sys2Proof.Machine
end

