-- ==== Sys2Proof/Laws/Bus.lean ====
section
/-! SUPPORT. The memory map and the bytes that an access reads and writes. -/

namespace Sys2Proof.Machine

/-! ### The memory map -/

/-- In a well-formed map every region is ordered and bound to RAM (20_memory.md R62, R63). -/
theorem region_of_wellFormedMap {n : Nat} {gs : List Region} {g : Region} (hw : wellFormedMap n gs = true) (hg : g ∈ gs) :
    g.first.toNat ≤ g.last.toNat ∧ g.dev < n := by
  induction gs with
  | nil => simp at hg
  | cons h hs ih =>
    simp only [wellFormedMap, Bool.and_eq_true] at hw
    rcases List.mem_cons.mp hg with rfl | hx
    · exact ⟨by simpa [Region.ordered] using hw.1.1.1, by simpa [Region.boundToRam] using hw.1.1.2⟩
    · exact ih hw.2 hx

/-- In a well-formed map the region that contains an address is the one found (20_memory.md R66). -/
theorem findRegion_of_wellFormedMap {n : Nat} {gs : List Region} {g : Region} {a : Word}
    (hw : wellFormedMap n gs = true) (hg : g ∈ gs) (ha : g.covers a = true) : findRegion gs a = some g := by
  induction gs with
  | nil => simp at hg
  | cons h hs ih =>
    simp only [wellFormedMap, Bool.and_eq_true, List.all_eq_true] at hw
    obtain ⟨⟨-, hd⟩, hrest⟩ := hw
    unfold findRegion at ih ⊢
    rcases List.mem_cons.mp hg with rfl | hmem
    · simp [List.find?, ha]
    · have hno := hd g hmem
      have : h.covers a = false := by
        simp [Region.covers, Region.overlaps] at *
        omega
      simp [List.find?, this, ih hrest hmem]

/-- The region found contains the address and is one of the map. -/
theorem findRegion_eq_some {gs : List Region} {g : Region} {a : Word} (h : findRegion gs a = some g) :
    g ∈ gs ∧ g.first.toNat ≤ a.toNat ∧ a.toNat ≤ g.last.toNat := by
  have hc := List.find?_some h
  simp only [Region.covers, decide_eq_true_eq] at hc
  exact ⟨List.mem_of_find?_eq_some h, hc⟩

/-- Two ordered regions overlap exactly if they share an address (20_memory.md R64). -/
theorem overlaps_iff_shared {g h : Region} (hg : g.first.toNat ≤ g.last.toNat) (hh : h.first.toNat ≤ h.last.toNat) :
    g.overlaps h = true ↔ ∃ a : Word, g.covers a = true ∧ h.covers a = true := by
  simp only [Region.overlaps, Region.covers, decide_eq_true_eq]
  constructor
  · rintro ⟨h1, h2⟩
    by_cases hc : g.first.toNat ≤ h.first.toNat
    · exact ⟨h.first, by omega⟩
    · exact ⟨g.first, by omega⟩
  · rintro ⟨a, _⟩
    omega

/-! ### Bytes -/

/-- An access that succeeds lands on a device of the launch. -/
theorem dev_lt_of_locate {s : State} {a : Word} {n : Nat} {l : Loc} (h : locate s a n = .next l) :
    l.dev < s.devices.length := by
  obtain ⟨g, d, -, hd, -, rfl⟩ := locate_eq_next.mp h
  exact (List.getElem?_eq_some_iff.mp hd).1

/-- A failed access names its address, and the width where the device ends too early (60_exceptions.md R310). -/
theorem locate_eq_fault {s : State} {a : Word} {n : Nat} {k : FaultKind} (h : locate s a n = .fault k) :
    k = .unmappedAddress a ∨ k = .outOfBounds a n := by
  unfold locate at h
  split at h
  · cases h
    exact .inl rfl
  · split at h
    · cases h
    · split at h
      · cases h
        exact .inr rfl
      · cases h

theorem getElem_leBytes (n v j : Nat) (h : j < (leBytes n v).length) :
    (leBytes n v)[j] = BitVec.ofNat 8 (v / 256 ^ j) := by
  induction n generalizing v j with
  | zero => simp [leBytes] at h
  | succ n ih =>
    cases j with
    | zero => simp [leBytes]
    | succ j => simp [leBytes, ih (v / 256) j (by simpa [leBytes] using h), Nat.div_div_eq_div_mul, Nat.pow_succ']

/-- Byte `j` of a word, counted from the least significant. -/
theorem ofNat_div_pow (v : Word) (j : Nat) : BitVec.ofNat 8 (v.toNat / 256 ^ j) = v.extractLsb' (8 * j) 8 := by
  apply BitVec.eq_of_toNat_eq
  simp [Nat.shiftRight_eq_div_pow, Nat.pow_mul]

theorem load_eq_map (m : Memory) (off n : Nat) : Memory.load m off n = (List.range n).map (fun k => m.get (off + k)) := by
  induction n generalizing off with
  | zero => rfl
  | succ n ih =>
    rw [Memory.load, ih, List.range_succ_eq_map]
    simp only [List.map_cons, List.map_map, Nat.add_zero]
    congr 1
    apply List.map_congr_left
    intro k _
    simp only [Function.comp]
    congr 1
    omega

/-- The bytes read in one access are the bytes read one by one. -/
theorem loadAt_eq_bytesAt {s : State} {l : Loc} {n : Nat} (h : l.dev < s.devices.length) :
    s.loadAt l n = bytesAt s l n := by
  simp [State.loadAt, bytesAt, State.byteAt, List.getElem?_eq_getElem h, load_eq_map]

/-- After a write of a word's low bytes, byte `j` of the stored ones is byte `j` of the word (20_memory.md R61, R72). -/
theorem byteAt_storeAt_leBytes {s : State} {l : Loc} {n j : Nat} (v : Word) (hl : l.dev < s.devices.length) (hj : j < n) :
    (s.storeAt l (leBytes n v.toNat)).byteAt l.dev (l.off + j) = v.extractLsb' (8 * j) 8 := by
  rw [byteAt_storeAt _ _ _ _ _ hl, if_pos (by simp; omega), show l.off + j - l.off = j by omega,
    List.getElem?_eq_getElem (by simpa using hj), Option.getD_some, getElem_leBytes, ofNat_div_pow]

/-- What a store leaves alone (20_memory.md R77). -/
theorem storeAt_frame (s : State) (l : Loc) (bs : List Byte) :
    sameMemoryOutside l bs.length s (s.storeAt l bs) ∧ sameRegsBut [] s (s.storeAt l bs) ∧
      (s.storeAt l bs).flags = s.flags ∧ sameHidden s (s.storeAt l bs) :=
  ⟨sameMemoryOutside_storeAt s l bs, fun _ _ => rfl, rfl, rfl, rfl, rfl, rfl, (sameShape_storeAt s l bs).2⟩

/-! ### The invariant -/

/-- The invariant depends on the map and the devices alone. -/
theorem inv_congr {s t : State} (hp : t.params = s.params) (hd : t.devices = s.devices) (h : Inv s) : Inv t := by
  unfold Inv
  rw [hp, hd]
  exact h

/-- A store where an access lands keeps the invariant: the bytes lie inside the device. -/
theorem inv_storeAt {s : State} {a : Word} {l : Loc} {bs : List Byte} (h : Inv s)
    (hl : locate s a bs.length = .next l) : Inv (s.storeAt l bs) := by
  obtain ⟨g, d, -, hd, hle, rfl⟩ := locate_eq_next.mp hl
  refine ⟨?_, ?_⟩
  · have := h.1
    simpa [State.storeAt] using this
  · intro x hx
    obtain ⟨i, hi⟩ := List.mem_iff_getElem?.mp hx
    simp only [State.storeAt, List.getElem?_modify] at hi
    split at hi
    · next he =>
      subst he
      rw [hd] at hi
      cases hi
      exact Device.wf_store (h.2 d (List.mem_of_getElem? hd)) hle
    · rw [Option.map_eq_map, Option.map_id'] at hi
      exact h.2 x (List.mem_of_getElem? hi)

/-- All that inspecting a memory range can do when it answers: each byte of the range is read by itself, in whatever
region it stands (60_exceptions.md R345). -/
theorem inspectMemory_eq_next {s : State} {a : Word} {n : Nat} {bs : List Byte} :
    inspectMemory s a n = .next bs ↔
      bs.length = n ∧ ∀ k (hk : k < bs.length), memReadBytes s (a + BitVec.ofNat 64 k) 1 = .next [bs[k]] := by
  induction n generalizing a bs with
  | zero =>
    simp only [inspectMemory, Host.Outcome.next.injEq, List.length_eq_zero_iff]
    constructor
    · rintro rfl
      simp
    · rintro ⟨h, -⟩
      exact h.symm
  | succ n ih =>
    have hlen : ∀ cs, memReadBytes s a 1 = .next cs → ∃ b, cs = [b] := by
      intro cs h
      obtain ⟨l, hl, rfl⟩ := memReadBytes_eq_next.mp h
      rw [loadAt_eq_bytesAt (dev_lt_of_locate hl)]
      exact ⟨_, rfl⟩
    have hstep : ∀ k : Nat, a + BitVec.ofNat 64 (k + 1) = a + 1 + BitVec.ofNat 64 k := by
      intro k
      bv_omega
    have heq : inspectMemory s a (n + 1) = .next bs ↔
        ∃ cs ds, memReadBytes s a 1 = .next cs ∧ inspectMemory s (a + 1) n = .next ds ∧ bs = cs ++ ds := by
      cases h : memReadBytes s a 1 <;> cases h2 : inspectMemory s (a + 1) n <;> simp only [inspectMemory, h, h2] <;>
        simp [eq_comm]
    rw [heq]
    constructor
    · rintro ⟨cs, ds, hc, hd, rfl⟩
      obtain ⟨b, rfl⟩ := hlen cs hc
      obtain ⟨h1, h2⟩ := ih.mp hd
      refine ⟨by simp [h1], fun k hk => ?_⟩
      cases k with
      | zero => simpa using hc
      | succ k =>
        rw [hstep]
        exact h2 k (by simpa using hk)
    · rintro ⟨h1, h2⟩
      cases bs with
      | nil => simp at h1
      | cons b ds =>
        have h0 := h2 0 (by simp)
        rw [show a + BitVec.ofNat 64 0 = a by simp] at h0
        refine ⟨[b], ds, h0, ih.mpr ⟨by simpa using h1, fun k hk => ?_⟩, rfl⟩
        rw [← hstep]
        exact h2 (k + 1) (by simpa using hk)

end Sys2Proof.Machine
end

