-- ==== Sys2Proof/Laws/Decode.lean ====
section
/-! SUPPORT. What the decoder answers: on an opcode of the map it reads the operands of that opcode's format. -/

namespace Sys2Proof

open Sys2Proof.Machine

theorem takeLe_of_le {n : Nat} {bs : List Byte} (h : n ≤ bs.length) :
    takeLe n bs = .ok (leNat (bs.take n), bs.drop n) := by simp [takeLe, h]

theorem takeReg_of_le {bs : List Byte} (h : 1 ≤ bs.length) : ∃ r, takeReg bs = .ok (r, bs.drop 1) := by
  cases bs with
  | nil => simp at h
  | cons b bs => exact ⟨_, rfl⟩

theorem takeReg_eq_ok {bs : List Byte} {p : Reg × List Byte} (h : takeReg bs = .ok p) :
    1 ≤ bs.length ∧ p.2 = bs.drop 1 := by
  cases bs with
  | nil => simp [takeReg] at h
  | cons b bs =>
    cases h
    simp

theorem takeLe_eq_ok {n : Nat} {bs : List Byte} {p : Nat × List Byte} (h : takeLe n bs = .ok p) :
    n ≤ bs.length ∧ p.2 = bs.drop n := by
  unfold takeLe at h
  split at h
  · next hn =>
    cases h
    exact ⟨hn, rfl⟩
  · cases h

/-- A format reads its operands from any bytes that are enough (30_encoding.md R112). -/
theorem read_of_le {l : Layout} {bs : List Byte} (h : l.fields.sum ≤ bs.length) :
    ∃ i, l.read bs = .ok (i, bs.drop l.fields.sum) := by
  cases l <;> simp [Layout.fields] at h
  case f0 i => exact ⟨i, by simp [Layout.read, Layout.fields]⟩
  case fr b =>
    obtain ⟨r, hr⟩ := takeReg_of_le h
    exact ⟨b r, by simp [Layout.read, hr, Layout.fields, bind, Except.bind]⟩
  case frr b =>
    obtain ⟨r, hr⟩ := takeReg_of_le (bs := bs) (by omega)
    obtain ⟨q, hq⟩ := takeReg_of_le (bs := bs.drop 1) (by simp; omega)
    exact ⟨b r q, by simp only [Layout.read, hr, bind, Except.bind, hq]; simp [Layout.fields]⟩
  case fa b => exact ⟨_, by simp [Layout.read, takeLe_of_le h, Layout.fields, bind, Except.bind]; rfl⟩
  case fi64 b => exact ⟨_, by simp [Layout.read, takeLe_of_le h, Layout.fields, bind, Except.bind]; rfl⟩
  all_goals
    obtain ⟨r, hr⟩ := takeReg_of_le (bs := bs) (by omega)
    simp only [Layout.read, hr, Layout.fields, bind, Except.bind]
    rw [takeLe_of_le (by simp; omega)]
    exact ⟨_, by simp; rfl⟩

/-- A format that answers has taken its operands' bytes (30_encoding.md R107). -/
theorem read_eq_ok {l : Layout} {bs : List Byte} {p : Instr × List Byte} (h : l.read bs = .ok p) :
    l.fields.sum ≤ bs.length ∧ p.2 = bs.drop l.fields.sum := by
  have hle : l.fields.sum ≤ bs.length := by
    by_contra hlt
    cases l <;> simp only [Layout.read, bind, Except.bind, Layout.fields, List.sum_cons, List.sum_nil] at h hlt
    case f0 i => omega
    case fa b =>
      cases e : takeLe 8 bs with
      | error x => simp [e] at h
      | ok q => exact hlt (takeLe_eq_ok e).1
    case fi64 b =>
      cases e : takeLe 8 bs with
      | error x => simp [e] at h
      | ok q => exact hlt (takeLe_eq_ok e).1
    case fr b =>
      cases e : takeReg bs with
      | error x => simp [e] at h
      | ok q => exact hlt (takeReg_eq_ok e).1
    case frr b =>
      cases e : takeReg bs with
      | error x => simp [e] at h
      | ok q =>
        obtain ⟨h1, h2⟩ := takeReg_eq_ok e
        simp only [e] at h
        cases e2 : takeReg q.2 with
        | error x => simp [e2] at h
        | ok q2 =>
          have := (takeReg_eq_ok e2).1
          rw [h2, List.length_drop] at this
          omega
    all_goals
      cases e : takeReg bs with
      | error x => simp [e] at h
      | ok q =>
        obtain ⟨h1, h2⟩ := takeReg_eq_ok e
        simp only [e] at h
        split at h
        · cases h
        · next e2 =>
          have := (takeLe_eq_ok e2).1
          rw [h2, List.length_drop] at this
          omega
  obtain ⟨i, hi⟩ := read_of_le hle
  rw [hi] at h
  cases h
  exact ⟨hle, rfl⟩

theorem Mnemonic.mem_all (n : Mnemonic) : n ∈ Mnemonic.all := by
  cases n <;> decide

/-- What a well-formed opcode map says of each of its rows: a 16-bit opcode, which looks up the row's mnemonic. -/
theorem OpcodeMap.wf_row {m : OpcodeMap} (h : m.wf = true) {op : Nat} {n : Mnemonic} (hr : (op, n) ∈ m) :
    op < 65536 ∧ m.lookup op = some n := by
  simp only [OpcodeMap.wf, Bool.and_eq_true, List.all_eq_true, decide_eq_true_eq] at h
  obtain ⟨⟨⟨h1, h2⟩, -⟩, -⟩ := h
  refine ⟨h1 _ hr, ?_⟩
  clear h1
  induction m with
  | nil => simp at hr
  | cons row m ih =>
    obtain ⟨k, v⟩ := row
    simp only [List.map_cons, List.nodup_cons, List.mem_map, Prod.exists, exists_and_right, exists_eq_right,
      not_exists] at h2
    rcases List.mem_cons.mp hr with h | h
    · cases h
      simp [List.lookup]
    · have hne : op ≠ k := fun e => h2.1 n (e ▸ h)
      simpa [List.lookup, beq_eq_false_iff_ne.mpr hne] using ih h h2.2

/-- A mnemonic that a map looks up is one of its rows. -/
theorem mem_of_lookup {m : OpcodeMap} {op : Nat} {n : Mnemonic} (h : m.lookup op = some n) : (op, n) ∈ m := by
  induction m with
  | nil => simp at h
  | cons row m ih =>
    obtain ⟨k, v⟩ := row
    by_cases e : op = k
    · subst e
      simp only [List.lookup, BEq.rfl, Option.some.injEq] at h
      simp [h]
    · simp only [List.lookup, beq_eq_false_iff_ne.mpr e] at h
      simp [ih h]

/-- All that finding a mnemonic's opcode can do when it answers. -/
theorem mem_of_opcodeFor {m : OpcodeMap} {n : Mnemonic} {op : Nat} (h : opcodeFor m n = some op) : (op, n) ∈ m := by
  simp only [opcodeFor, Option.map_eq_some_iff] at h
  obtain ⟨⟨k, v⟩, hf, rfl⟩ := h
  have hv := List.find?_some hf
  simp only [beq_iff_eq] at hv
  exact hv ▸ List.mem_of_find?_eq_some hf

/-- A well-formed opcode map gives every mnemonic an opcode. -/
theorem opcodeFor_completes {m : OpcodeMap} (h : m.wf = true) (n : Mnemonic) : ∃ op, opcodeFor m n = some op := by
  simp only [OpcodeMap.wf, Bool.and_eq_true, List.all_eq_true, List.contains_iff_mem, List.mem_map, Prod.exists,
    exists_eq_right] at h
  obtain ⟨op, hop⟩ := h.2 n n.mem_all
  simp only [opcodeFor, Option.map_eq_some_iff]
  cases hf : m.find? (fun row => row.2 == n) with
  | none => exact absurd (List.find?_eq_none.mp hf _ hop) (by simp)
  | some row => exact ⟨_, row, rfl, rfl⟩

/-- The two bytes of an opcode of the map, then its operands in its format (30_encoding.md R102, R105). -/
theorem decode_op16 {m : OpcodeMap} {op : Nat} {n : Mnemonic} (hop : op < 65536) (hl : m.lookup op = some n)
    (bs : List Byte) : decode m (op16 op ++ bs) = n.layout.read bs := by
  have h : opcodeOfBytes (BitVec.ofNat 8 op) (BitVec.ofNat 8 (op / 256)) = BitVec.ofNat 16 op := by
    apply BitVec.eq_of_toNat_eq
    simp only [opcodeOfBytes, leNat, BitVec.toNat_ofNat]
    omega
  simp only [op16, leBytes, List.cons_append, List.nil_append, decode, h, layoutOf, BitVec.toNat_ofNat]
  rw [Nat.mod_eq_of_lt hop, hl]
  rfl

/-- Decoding an instruction's bytes reads its operand bytes in the format of its mnemonic. -/
theorem decode_of_encode {m : OpcodeMap} (h : m.wf = true) {i : Instr} {bs : List Byte} (he : encode m i = some bs)
    (rest : List Byte) : decode m (bs ++ rest) = i.mnemonic.layout.read (operandBytes i ++ rest) := by
  simp only [encode, Option.map_eq_some_iff] at he
  obtain ⟨op, hop, rfl⟩ := he
  obtain ⟨h1, h2⟩ := OpcodeMap.wf_row h (mem_of_opcodeFor hop)
  rw [List.append_assoc]
  exact decode_op16 h1 h2 _

end Sys2Proof
end

