-- ==== Sys2Proof/Laws/Fetch.lean ====
section
/-! SUPPORT. Fetching bytes that stand at IP gives those bytes, field by field. -/

namespace Sys2Proof.Machine

theorem loadAt_of_byteAt {s : State} {bs : List Byte} {dev : Nat} {d : Device} (hd : s.devices[dev]? = some d)
    {off : Nat} (h : ∀ k (hk : k < bs.length), s.byteAt dev (off + k) = bs[k]) (j n : Nat) (hj : j + n ≤ bs.length) :
    s.loadAt { dev := dev, off := off + j } n = (bs.drop j).take n := by
  have hb : ∀ o, s.byteAt dev o = d.cells.get o := by
    intro o
    simp [State.byteAt, hd]
  have key : ∀ n j, j + n ≤ bs.length → d.cells.load (off + j) n = (bs.drop j).take n := by
    intro n
    induction n with
    | zero => simp [Memory.load]
    | succ n ih =>
      intro j hj
      rw [Memory.load, ← hb, h j (by omega), Nat.add_assoc, ih (j + 1) (by omega)]
      rw [List.drop_eq_getElem_cons (show j < bs.length by omega), List.take_succ_cons]
  simpa only [State.loadAt, hd] using key n j hj

/-- One field of the bytes at IP (30_encoding.md R101). -/
theorem fetchBytes_of_standsAtIp {s : State} {bs : List Byte} (hs : standsAtIp s bs) (j n : Nat)
    (hj : j + n ≤ bs.length) (hn : 0 < n) :
    fetchBytes n (s.setReg .ip (s.reg .ip + BitVec.ofNat 64 j)) =
      .next ((bs.drop j).take n, s.setReg .ip (s.reg .ip + BitVec.ofNat 64 (j + n))) := by
  obtain ⟨g, d, hd, hsz, hk⟩ := hs
  obtain ⟨h1, h2, -⟩ := hk j (by omega)
  have hip : (s.reg .ip + BitVec.ofNat 64 j) + BitVec.ofNat 64 n = s.reg .ip + BitVec.ofNat 64 (j + n) := by bv_omega
  have hl : locate (s.setReg .ip (s.reg .ip + BitVec.ofNat 64 j)) (s.reg .ip + BitVec.ofNat 64 j) n =
      .next { dev := g.dev, off := (Region.effective g (s.reg .ip)).toNat + j } :=
    locate_eq_next.mpr ⟨g, d, h1, hd, by omega, by rw [h2]⟩
  refine fetchBytes_eq_next.mpr ⟨(bs.drop j).take n, ?_, ?_⟩
  · rw [State.reg_setReg_self]
    exact memReadBytes_eq_next.mpr
      ⟨_, hl, (loadAt_of_byteAt hd (fun k hk' => (hk k hk').2.2) j n hj).symm⟩
  · rw [State.reg_setReg_self, hip]
    rfl

/-- The fields of the bytes at IP, one after the other (30_encoding.md R104). -/
theorem fetchFields_of_standsAtIp {s : State} {bs : List Byte} (hs : standsAtIp s bs) (ns : List Nat)
    (hpos : ∀ n ∈ ns, 0 < n) (j : Nat) (hj : j + ns.sum ≤ bs.length) :
    fetchFields ns (s.setReg .ip (s.reg .ip + BitVec.ofNat 64 j)) =
      .next ((bs.drop j).take ns.sum, s.setReg .ip (s.reg .ip + BitVec.ofNat 64 (j + ns.sum))) := by
  induction ns generalizing j with
  | nil => simp [fetchFields]
  | cons n ns ih =>
    simp only [List.sum_cons] at hj
    rw [fetchFields, fetchBytes_of_standsAtIp hs j n (by omega) (hpos n (by simp))]
    simp only [andThen_next]
    rw [ih (fun m hm => hpos m (by simp [hm])) (j + n) (by omega)]
    simp [List.take_add, List.drop_drop, Nat.add_assoc]

end Sys2Proof.Machine
end

