-- ==== Sys2Proof/Laws/Frames.lean ====
section
/-! SUPPORT. The pushes of a frame as one sequence of words, and what such a sequence does, said once; the pops as a run
up the stack. -/

namespace Sys2Proof.Machine

/-! ### Pushing words -/

/-- Push words one after the other. -/
def pushAll : List Word → State → Result State
  | [], s => .next s
  | w :: ws, s => andThen (push64 w s) (pushAll ws)

theorem pushAll_cons_eq_next {w : Word} {ws : List Word} {s t : State} :
    pushAll (w :: ws) s = .next t ↔ ∃ l, locate s (s.reg .sp) 8 = .next l ∧ pushAll ws (s.pushed l w) = .next t := by
  simp only [pushAll, andThen_eq_next, push64_eq_next]
  constructor
  · rintro ⟨s1, ⟨l, hl, rfl⟩, h⟩
    exact ⟨l, hl, h⟩
  · rintro ⟨l, hl, h⟩
    exact ⟨_, ⟨l, hl, rfl⟩, h⟩

theorem pushAll_append (as bs : List Word) (s : State) :
    pushAll (as ++ bs) s = andThen (pushAll as s) (pushAll bs) := by
  induction as generalizing s with
  | nil => rfl
  | cons a as ih =>
    simp only [List.cons_append, pushAll]
    cases h : push64 a s with
    | next t => simpa [andThen] using ih t
    | fault r => rfl
    | refused r => rfl

/-- Pushing registers pushes their values: a push changes SP alone. -/
theorem pushRegs_eq_pushAll {rs : List Reg} (hr : Reg.sp ∉ rs) (s : State) :
    pushRegs rs s = pushAll (rs.map s.reg) s := by
  induction rs generalizing s with
  | nil => rfl
  | cons r rs ih =>
    simp only [List.mem_cons, not_or] at hr
    simp only [pushRegs, List.map_cons, pushAll]
    cases h : push64 (s.reg r) s with
    | next t =>
      obtain ⟨l, -, rfl⟩ := push64_eq_next.mp h
      simp only [andThen_next, ih hr.2]
      congr 1
      apply List.map_congr_left
      intro q hq
      exact State.pushed_reg s l _ (fun e => hr.2 (e ▸ hq))
    | fault r => rfl
    | refused r => rfl

/-- The counter after `n` pushes (45_stack_call.md R240). -/
def countedPushes (p : Params) (n : Nat) (size : Word) : Word :=
  size + (if p.pushCountsFrame then BitVec.ofNat 64 (8 * n) else 0)

theorem wordBelow_pushed (s : State) (l : Loc) (w : Word) (k : Nat) :
    wordBelow ((s.pushed l w).reg .sp) k = wordBelow (s.reg .sp) (k + 1) := by
  simp only [wordBelow, State.pushed_reg_sp]
  bv_omega

/-- All that pushing words changes when it answers, memory aside. -/
theorem pushAll_frame {ws : List Word} {s t : State} (h : pushAll ws s = .next t) :
    t.reg .sp = wordBelow (s.reg .sp) ws.length ∧ sameRegsBut [.sp] s t ∧ t.flags = s.flags ∧ t.run = s.run ∧
      sameLaunch s t ∧ t.stackFrameSize = countedPushes s.params ws.length s.stackFrameSize := by
  induction ws generalizing s with
  | nil =>
    cases h
    refine ⟨by simp [wordBelow], fun _ _ => rfl, rfl, rfl, ⟨rfl, rfl, rfl⟩, ?_⟩
    simp [countedPushes]
  | cons w ws ih =>
    obtain ⟨l, hl, h⟩ := pushAll_cons_eq_next.mp h
    obtain ⟨h1, h2, h3, h4, h5, h6⟩ := ih h
    refine ⟨by rw [h1, wordBelow_pushed, List.length_cons], ?_, h3, h4, ?_, ?_⟩
    · intro q hq
      rw [h2 q hq, State.pushed_reg s l w (by simpa using hq)]
    · exact ⟨h5.1, h5.2.1, h5.2.2.trans (sameShape_pushed s l w).2⟩
    · rw [h6]
      simp only [countedPushes, State.pushed_stackFrameSize, State.pushed_params, countedPush, List.length_cons]
      by_cases hp : s.params.pushCountsFrame = true
      · simp only [hp, if_true]
        bv_omega
      · simp [hp]

/-- The sequence keeps sizes and parameters. -/
theorem sameShape_pushAll {ws : List Word} {s t : State} (h : pushAll ws s = .next t) : sameShape s t := by
  obtain ⟨-, -, -, -, h, -⟩ := pushAll_frame h
  exact ⟨h.1, h.2.2⟩

/-- Pushing words completes where every word can be pushed. -/
theorem pushAll_completes {ws : List Word} {s : State} (h : pushable s ws.length) : ∃ t, pushAll ws s = .next t := by
  induction ws generalizing s with
  | nil => exact ⟨s, rfl⟩
  | cons w ws ih =>
    obtain ⟨l, hl⟩ := h 0 (by simp)
    simp only [wordBelow, Nat.mul_zero, BitVec.sub_zero] at hl
    obtain ⟨t, ht⟩ := ih (s := s.pushed l w) (by
      intro k hk
      obtain ⟨l', hl'⟩ := h (k + 1) (by simpa using hk)
      exact ⟨l', by rw [wordBelow_pushed, locate_congr (sameShape_pushed s l w)]; exact hl'⟩)
    exact ⟨t, pushAll_cons_eq_next.mpr ⟨l, hl, ht⟩⟩

/-- Bytes outside the pushed words survive. -/
theorem pushAll_sameMemoryOutside {ws : List Word} {s t : State} (h : pushAll ws s = .next t) :
    sameMemoryOutsidePushes ws.length s t := by
  induction ws generalizing s with
  | nil =>
    cases h
    exact fun _ _ _ => rfl
  | cons w ws ih =>
    obtain ⟨l, hl, h⟩ := pushAll_cons_eq_next.mp h
    intro dev off hout
    rw [ih h dev off]
    · have h0 := hout 0 l (by simp) (by simpa [wordBelow] using hl)
      have := sameMemoryOutside_storeAt s l (leBytes 8 w.toNat) dev off (by simpa using h0)
      exact this
    · intro k l' hk hl'
      exact hout (k + 1) l' (by simpa using hk)
        (by rw [wordBelow_pushed, locate_congr (sameShape_pushed s l w)] at hl'; exact hl')

/-- Where a word of one stack region lies: below the first by eight bytes a word. -/
theorem locate_wordBelow {s : State} {n k : Nat} {g : Region} {l : Loc} (h8 : 8 * n ≤ (s.reg .sp).toNat + 8)
    (hg : ∀ k, k < n → findRegion s.params.regions (wordBelow (s.reg .sp) k) = some g) (hk : k < n)
    (hl : locate s (wordBelow (s.reg .sp) k) 8 = .next l) :
    l.dev = g.dev ∧ l.off + 8 * k = (Region.effective g (s.reg .sp)).toNat := by
  obtain ⟨g', d, hg', hd, hle, rfl⟩ := locate_eq_next.mp hl
  rw [hg k hk] at hg'
  cases hg'
  refine ⟨rfl, ?_⟩
  have h0 := hg 0 (by omega)
  have hc : ∀ {a : Word}, findRegion s.params.regions a = some g → g.first.toNat ≤ a.toNat := by
    intro a ha
    have := List.find?_some ha
    simp only [Region.covers, decide_eq_true_eq] at this
    exact this.1
  have h1 := hc h0
  have h2 := hc (hg k hk)
  have hlt := (s.reg .sp).isLt
  revert h1 h2 h8
  generalize s.reg .sp = sp at *
  intro h8 h1 h2
  simp only [wordBelow, Nat.mul_zero, BitVec.sub_zero] at h1 h2 ⊢
  have hk8 : (sp - BitVec.ofNat 64 (8 * k)).toNat = sp.toNat - 8 * k := by
    rw [BitVec.toNat_sub, BitVec.toNat_ofNat]
    omega
  rw [hk8] at h2
  have h8k : 8 * k ≤ sp.toNat := by omega
  simp only [Region.effective]
  cases g.rebase
  · simp only [Bool.false_eq_true, if_false, hk8]
    omega
  · have hf := g.first.isLt
    simp only [if_true, BitVec.toNat_sub, hk8]
    rw [BitVec.toNat_sub] at hk8
    omega

/-- In one stack region every pushed word reads back: no two of them share a byte. -/
theorem pushAll_reads {ws : List Word} {s t : State} (h : pushAll ws s = .next t) (h1 : oneStackRegion s ws.length) :
    ∀ k (hk : k < ws.length), wordIs t (wordBelow (s.reg .sp) k) ws[k] := by
  induction ws generalizing s with
  | nil =>
    intro k hk
    simp at hk
  | cons w ws ih =>
    obtain ⟨l, hl, h⟩ := pushAll_cons_eq_next.mp h
    obtain ⟨h8, g, hg⟩ := h1
    simp only [List.length_cons] at h8 hg
    intro k hk
    cases k with
    | succ k =>
      rw [← wordBelow_pushed s l w k]
      simp only [List.length_cons] at hk
      by_cases he : ws = []
      · subst he
        simp at hk
      have hpos : 0 < ws.length := List.length_pos_iff.mpr he
      exact ih h (s := s.pushed l w) ⟨by rw [State.pushed_reg_sp, BitVec.toNat_sub]; simp; omega, g, fun j hj => by
        rw [wordBelow_pushed]
        exact hg (j + 1) (by omega)⟩ k (by omega)
    | zero =>
      have hl0 : locate s (wordBelow (s.reg .sp) 0) 8 = .next l := by simpa [wordBelow] using hl
      have hdev : l.dev < s.devices.length := by
        obtain ⟨g', d, -, hd, -, rfl⟩ := locate_eq_next.mp hl
        exact (List.getElem?_eq_some_iff.mp hd).1
      obtain ⟨hd0, ho0⟩ := locate_wordBelow h8 hg (by omega) hl0
      have hshape := (sameShape_pushed s l w).trans (sameShape_pushAll h)
      refine memRead_eq_next.mpr ⟨l, by rw [locate_congr hshape]; exact hl0, ?_⟩
      have hload : t.loadAt l 8 = (s.storeAt l (leBytes 8 w.toNat)).loadAt l 8 := by
        refine loadAt_congr ?_ ?_
        · have hs := congrArg List.length (sameShape_pushAll h).2
          simp only [List.length_map, State.pushed_devices] at hs
          rw [Bool.eq_iff_iff]
          simp only [Option.isSome_iff_ne_none, ne_eq, List.getElem?_eq_none_iff]
          omega
        · intro j hj1 hj2
          refine pushAll_sameMemoryOutside h l.dev j ?_
          intro k l' hk hl'
          rw [wordBelow_pushed, locate_congr (sameShape_pushed s l w)] at hl'
          obtain ⟨-, ho⟩ := locate_wordBelow h8 hg (k := k + 1) (by omega) hl'
          omega
      rw [hload]
      have := loadAt_storeAt s l (leBytes 8 w.toNat) 0 8 hdev (by simp)
      simp only [Nat.add_zero, List.drop_zero] at this
      rw [show ({ dev := l.dev, off := l.off } : Loc) = l from rfl] at this
      rw [this, List.take_of_length_le (by simp)]
      simp

/-- Pushing words stops at the first that cannot be pushed, in the state that the words before it leave, with nothing
rolled back (45_stack_call.md R244, 60_exceptions.md R311). -/
theorem pushAll_faults {ws : List Word} {s : State} {k : Nat} {f : FaultKind} (hk : k < ws.length)
    (hp : pushable s k) (hf : locate s (wordBelow (s.reg .sp) k) 8 = .fault f) :
    ∃ u, pushAll (ws.take k) s = .next u ∧ pushAll ws s = raise f u := by
  have hlen : (ws.take k).length = k := by
    simp only [List.length_take]
    omega
  obtain ⟨u, hu⟩ := pushAll_completes (ws := ws.take k) (s := s) (by rwa [hlen])
  refine ⟨u, hu, ?_⟩
  have hsp := (pushAll_frame hu).1
  rw [hlen] at hsp
  have hpush : ∀ w, push64 w u = raise f u :=
    fun w => push64_faults (by rw [hsp, locate_congr (sameShape_pushAll hu), hf])
  rw [← List.take_append_drop k ws, pushAll_append, hu, andThen_next, List.drop_eq_getElem_cons hk, pushAll, hpush,
    andThen_raise]

/-- `pushState` pushes the words of a frame, then starts the new one (45_stack_call.md R244). -/
theorem pushState_eq (s : State) :
    pushState s = andThen (pushAll (frameWords s 0) s) fun u => .next ((u.setReg .fp (u.reg .sp)).setFrameSize 0) := by
  have hw : frameWords s 0 = frameRegs.map s.reg ++ [countedPushes s.params 9 s.stackFrameSize + 8] := by
    simp [frameWords, frameRegs, countedPushes]
  rw [pushState, pushRegs_eq_pushAll (by decide), hw, pushAll_append, andThen_assoc]
  cases h : pushAll (frameRegs.map s.reg) s with
  | next s1 =>
    obtain ⟨-, -, -, -, -, hc⟩ := pushAll_frame h
    rw [show countedPushes s.params 9 s.stackFrameSize = s1.stackFrameSize from hc.symm]
    simp only [andThen_next, pushAll, andThen_assoc]
  | fault f => rfl
  | refused r => rfl

/-- The words of a frame after one push, which the frame size counts. -/
theorem frameWords_pushed (s : State) (l : Loc) (v : Word) : frameWords (s.pushed l v) 0 = frameWords s 1 := by
  have hr : ∀ q, q ≠ Reg.sp → (s.pushed l v).reg q = s.reg q := fun q hq => State.pushed_reg s l v hq
  have hc : ∀ p : Params,
      countedPush p s.stackFrameSize + (if p.pushCountsFrame then BitVec.ofNat 64 (8 * (0 + 9)) else 0) =
        s.stackFrameSize + (if p.pushCountsFrame then BitVec.ofNat 64 (8 * (1 + 9)) else 0) := by
    intro p
    cases hp : p.pushCountsFrame
    · simp [countedPush, hp]
    · simp only [countedPush, hp, if_true]
      bv_omega
  show [_, _, _, _, _, _, _, _, _, _ + _ + 8] = _
  unfold frameWords
  rw [← hc s.params, hr .r1 (by decide), hr .r2 (by decide), hr .r3 (by decide), hr .r4 (by decide),
    hr .r5 (by decide), hr .r6 (by decide), hr .r7 (by decide), hr .r8 (by decide), hr .ip (by decide)]
  rfl

/-- Interrupt entry outside a handler pushes the zero count and the words of a frame, then starts the new one
(60_exceptions.md R322). -/
theorem saveInterruptFrame_eq {s : State} (hi : s.flags.i = false) :
    saveInterruptFrame s =
      andThen (pushAll (0 :: frameWords s 1) s) fun u => .next ((u.setReg .fp (u.reg .sp)).setFrameSize 0) := by
  rw [saveInterruptFrame, hi, pushAll, andThen_assoc]
  cases h : push64 0 s with
  | next t =>
    obtain ⟨l, -, rfl⟩ := push64_eq_next.mp h
    simp only [Bool.false_eq_true, if_false, andThen_next, pushState_eq, frameWords_pushed]
  | fault f => rfl
  | refused r => rfl

/-- All that `pushState` can do when it answers. -/
theorem pushState_eq_pushAll (s t : State) :
    pushState s = .next t ↔
      ∃ u, pushAll (frameWords s 0) s = .next u ∧ t = (u.setReg .fp (u.reg .sp)).setFrameSize 0 := by
  simp only [pushState_eq, andThen_eq_next, Host.Outcome.next.injEq]
  exact exists_congr fun u => and_congr_right fun _ => eq_comm

/-- All that the frame of an interrupt outside a handler can do when it answers. -/
theorem saveInterruptFrame_eq_pushAll {s t : State} (hi : s.flags.i = false) :
    saveInterruptFrame s = .next t ↔
      ∃ u, pushAll (0 :: frameWords s 1) s = .next u ∧ t = (u.setReg .fp (u.reg .sp)).setFrameSize 0 := by
  simp only [saveInterruptFrame_eq hi, andThen_eq_next, Host.Outcome.next.injEq]
  exact exists_congr fun u => and_congr_right fun _ => eq_comm

/-! ### Popping words -/

theorem State.setReg_comm (s : State) {r q : Reg} (v w : Word) (h : r ≠ q) :
    (s.setReg r v).setReg q w = (s.setReg q w).setReg r v := by
  cases r <;> cases q <;> first | rfl | exact absurd rfl h

@[simp] theorem State.setReg_setReg (s : State) (r : Reg) (v w : Word) :
    (s.setReg r v).setReg r w = s.setReg r w := by
  cases r <;> rfl

@[simp] theorem State.setReg_reg (s : State) (r : Reg) : s.setReg r (s.reg r) = s := by
  cases r <;> rfl

theorem State.setReg_setFrameSize (s : State) (r : Reg) (v w : Word) :
    (s.setReg r v).setFrameSize w = (s.setFrameSize w).setReg r v := rfl

/-- The state after `n` pops whose words go nowhere (45_stack_call.md R241). -/
def State.poppedWords (n : Nat) (s : State) : State :=
  (s.setReg .sp (wordAbove (s.reg .sp) n)).setFrameSize (s.stackFrameSize - BitVec.ofNat 64 (8 * n))

@[simp] theorem State.poppedWords_zero (s : State) : s.poppedWords 0 = s := by
  simp only [State.poppedWords, wordAbove, Nat.mul_zero, BitVec.add_zero, BitVec.sub_zero, State.setReg_reg]
  rfl

theorem wordAbove_popped (s : State) (k : Nat) : wordAbove (s.popped.reg .sp) k = wordAbove (s.reg .sp) (k + 1) := by
  simp only [wordAbove, State.popped_reg_sp]
  bv_omega

theorem State.poppedWords_popped (n : Nat) (s : State) : s.popped.poppedWords n = s.poppedWords (n + 1) := by
  simp only [State.poppedWords, wordAbove_popped, State.popped_stackFrameSize]
  have : s.stackFrameSize - 8 - BitVec.ofNat 64 (8 * n) = s.stackFrameSize - BitVec.ofNat 64 (8 * (n + 1)) := by
    bv_omega
  rw [this]
  simp only [State.popped, State.setReg_setFrameSize, State.setReg_setReg]
  rfl

/-- Discarding words completes where each can be read (45_stack_call.md R245). -/
theorem discardWords_completes {n : Nat} {s : State}
    (h : ∀ k, 0 < k → k ≤ n → accessible s (wordAbove (s.reg .sp) k) 8) :
    discardWords n s = .next (s.poppedWords n) := by
  induction n generalizing s with
  | zero => simp [discardWords]
  | succ n ih =>
    obtain ⟨l, hl⟩ := h 1 (by omega) (by omega)
    refine discardWords_succ_eq_next.mpr ⟨_, memRead_eq_next.mpr ⟨l, by simpa [wordAbove] using hl, rfl⟩, ?_⟩
    rw [ih, State.poppedWords_popped]
    intro k h1 h2
    obtain ⟨l, hl⟩ := h (k + 1) (by omega) (by omega)
    exact ⟨l, by rw [wordAbove_popped]; exact hl⟩

/-- Write registers one after the other, the words numbered from `k` up. -/
def State.setRegs (w : Nat → Word) : List Reg → Nat → State → State
  | [], _, s => s
  | r :: rs, k, s => State.setRegs w rs (k + 1) (s.setReg r (w k))

theorem State.poppedWords_setReg (n : Nat) (s : State) {r : Reg} (v : Word) (h : r ≠ .sp) :
    (s.setReg r v).poppedWords n = (s.poppedWords n).setReg r v := by
  simp only [State.poppedWords, State.reg_setReg_of_ne s v (Ne.symm h), State.setReg_stackFrameSize]
  rw [State.setReg_comm s v _ h]
  rfl

/-- Popping into registers other than SP completes where each word can be read, and leaves those words in them
(45_stack_call.md R245). -/
theorem popRegs_completes {rs : List Reg} (hr : Reg.sp ∉ rs) {s : State} {w : Nat → Word} {j : Nat}
    (h : ∀ k, k < rs.length → wordIs s (wordAbove (s.reg .sp) (k + 1)) (w (j + k))) :
    popRegs rs s = .next (State.setRegs w rs j (s.poppedWords rs.length)) := by
  induction rs generalizing s j with
  | nil => simp [popRegs, State.setRegs]
  | cons r rs ih =>
    simp only [List.mem_cons, not_or] at hr
    have h0 := h 0 (by simp)
    refine popRegs_cons_eq_next.mpr ⟨w j, by simpa [wordIs, wordAbove] using h0, ?_⟩
    rw [ih hr.2 (j := j + 1)]
    · rw [State.poppedWords_setReg _ _ _ (Ne.symm hr.1), State.poppedWords_popped]
      rfl
    · intro k hk
      have := h (k + 1) (by simpa using hk)
      rw [State.reg_setReg_of_ne _ _ hr.1, wordAbove_popped, show j + 1 + k = j + (k + 1) by omega]
      exact this

/-- The state in which the pop after `n` others has moved SP and could not read (45_stack_call.md R241). -/
def State.poppedTo (n : Nat) (s : State) : State :=
  (s.poppedWords n).setReg .sp (wordAbove (s.reg .sp) (n + 1))

theorem State.poppedTo_zero (s : State) : s.poppedTo 0 = s.setReg .sp (s.reg .sp + 8) := by
  simp [State.poppedTo, wordAbove]

theorem State.poppedTo_popped (n : Nat) (s : State) : s.popped.poppedTo n = s.poppedTo (n + 1) := by
  simp only [State.poppedTo, wordAbove_popped, State.poppedWords_popped]

theorem State.poppedTo_setReg (n : Nat) (s : State) {r : Reg} (v : Word) (h : r ≠ .sp) :
    (s.setReg r v).poppedTo n = (s.poppedTo n).setReg r v := by
  simp only [State.poppedTo, State.poppedWords_setReg _ _ _ h, State.reg_setReg_of_ne s v (Ne.symm h)]
  rw [State.setReg_comm _ _ _ h]

/-- Popping into registers stops at the first word that cannot be read, with the registers before it written
(45_stack_call.md R245, 60_exceptions.md R311). -/
theorem popRegs_faults {rs : List Reg} (hr : Reg.sp ∉ rs) {s : State} {w : Nat → Word} {j k : Nat} {f : FaultKind}
    (hk : k < rs.length) (h : ∀ i, i < k → wordIs s (wordAbove (s.reg .sp) (i + 1)) (w (j + i)))
    (hf : locate s (wordAbove (s.reg .sp) (k + 1)) 8 = .fault f) :
    popRegs rs s = raise f (State.setRegs w (rs.take k) j (s.poppedTo k)) := by
  induction rs generalizing s j k with
  | nil => simp at hk
  | cons r rs ih =>
    simp only [List.mem_cons, not_or] at hr
    cases k with
    | zero =>
      rw [popRegs, pop64_faults (by simpa [wordAbove] using hf), andThen_raise, ← State.poppedTo_zero]
      rfl
    | succ k =>
      have h0 := h 0 (by omega)
      have e : pop64 s = .next (w j, s.popped) :=
        pop64_eq_next.mpr ⟨w j, by simpa [wordIs, wordAbove] using h0, rfl⟩
      rw [popRegs, e, andThen_next, ih hr.2 (j := j + 1) (k := k) (by simpa using hk)]
      · rw [State.poppedTo_setReg _ _ _ (Ne.symm hr.1), State.poppedTo_popped]
        rfl
      · intro i hi
        have := h (i + 1) (by omega)
        rw [State.reg_setReg_of_ne _ _ hr.1, wordAbove_popped, show j + 1 + i = j + (i + 1) by omega]
        exact this
      · rw [State.reg_setReg_of_ne _ _ hr.1, wordAbove_popped]
        exact hf

/-- Discarding words stops at the first that cannot be read (45_stack_call.md R245). -/
theorem discardWords_faults {n k : Nat} {s : State} {f : FaultKind} (hk : k < n)
    (h : ∀ i, 0 < i → i ≤ k → accessible s (wordAbove (s.reg .sp) i) 8)
    (hf : locate s (wordAbove (s.reg .sp) (k + 1)) 8 = .fault f) : discardWords n s = raise f (s.poppedTo k) := by
  induction n generalizing s k with
  | zero => omega
  | succ n ih =>
    cases k with
    | zero =>
      rw [discardWords, pop64_faults (by simpa [wordAbove] using hf), andThen_raise, ← State.poppedTo_zero]
    | succ k =>
      obtain ⟨l, hl⟩ := h 1 (by omega) (by omega)
      have e : pop64 s = .next (_, s.popped) :=
        pop64_eq_next.mpr ⟨_, memRead_eq_next.mpr ⟨l, by simpa [wordAbove] using hl, rfl⟩, rfl⟩
      rw [discardWords, e, andThen_next, ih (k := k) (by omega), State.poppedTo_popped]
      · intro i h1 h2
        obtain ⟨l, hl⟩ := h (i + 1) (by omega) (by omega)
        exact ⟨l, by rw [wordAbove_popped]; exact hl⟩
      · rw [wordAbove_popped]
        exact hf

end Sys2Proof.Machine
end

