-- ==== Sys2Proof/Laws/Meanings.lean ====
section
/-! SUPPORT. For each operation that a family's meanings share, what it does, said once. -/

namespace Sys2Proof.Machine

/-! ### Results and flags in registers -/

/-- A written register and written flags, and nothing else. -/
theorem onlyRegisterAndFlags_set (s : State) (r : Reg) (v : Word) (f : Flags) :
    onlyRegisterAndFlags r v f s ((s.setReg r v).setFlags f) := by
  refine ⟨by simp, ?_, rfl, ⟨rfl, rfl, rfl, rfl, rfl⟩, fun _ _ => rfl⟩
  intro q hq
  simp only [List.mem_singleton] at hq
  simp [hq]

/-- A written register and nothing else. -/
theorem onlyRegister_set (s : State) (r : Reg) (v : Word) : onlyRegister r v s (s.setReg r v) := by
  refine ⟨by simp, ?_, rfl, ⟨rfl, rfl, rfl, rfl, rfl⟩, fun _ _ => rfl⟩
  intro q hq
  simp only [List.mem_singleton] at hq
  simp [hq]

theorem withZN_eq (f : Flags) (res : Word) : f.withZN res = resultFlags res f := by
  simp [Flags.withZN, resultFlags, BitVec.msb_eq_getLsbD_last, Bool.beq_eq_decide_eq]

/-- `arith` with a result (41_arithmetic.md R160). -/
theorem arith_of_ok {op : ArithOp} {r : Reg} {b res : Word} {s : State} (h : op.compute (s.reg r) b = .ok res) :
    arith op r b s = .next ((s.setReg r res).setFlags
      (arithmeticFlags (carryOf op.carryTest op.signed (s.reg r) res) res s.flags)) := by
  simp [arith, h, arithFlags, withZN_eq, resultFlags, arithmeticFlags]

/-- `arith` with a fault (41_arithmetic.md R175). -/
theorem arith_of_error {op : ArithOp} {r : Reg} {b : Word} {k : FaultKind} {s : State}
    (h : op.compute (s.reg r) b = .error k) : arith op r b s = raise k s := by
  simp [arith, h]

/-- `logic` (42_bitwise.md R180). -/
theorem logic_eq (r : Reg) (res : Word) (s : State) :
    logic r res s = .next ((s.setReg r res).setFlags (resultFlags res s.flags)) := by
  simp [logic, logicFlags, withZN_eq]

/-- `shift` by an allowed amount (42_bitwise.md R180). -/
theorem shift_of_allows {op : ShiftOp} {r : Reg} {n : Word} {s : State} (h : op.allows n = true) :
    shift op r n s = .next ((s.setReg r (op.compute (s.reg r) n.toNat)).setFlags
      (carriedFlags (carryOf op.carryTest false (s.reg r) (op.compute (s.reg r) n.toNat))
        (op.compute (s.reg r) n.toNat) s.flags)) := by
  simp [shift, h, shiftFlags, withZN_eq, resultFlags, carriedFlags]

/-- `shift` by an amount out of range (42_bitwise.md R180). -/
theorem shift_of_not_allows {op : ShiftOp} {r : Reg} {n : Word} {s : State} (h : op.allows n = false) :
    shift op r n s = raise (.undefinedShift n) s := by simp [shift, h]

theorem shiftLeft_eq (a : Word) (n : Nat) : shiftLeft a n = a <<< n := by
  apply BitVec.eq_of_toNat_eq
  simp [shiftLeft, Nat.shiftLeft_eq]

theorem shiftRight_eq (a : Word) (n : Nat) : shiftRight a n = a >>> n := by
  apply BitVec.eq_of_toNat_eq
  simp only [shiftRight, BitVec.toNat_ofNat, BitVec.toNat_ushiftRight, Nat.shiftRight_eq_div_pow]
  exact Nat.mod_eq_of_lt (Nat.lt_of_le_of_lt (Nat.div_le_self _ _) a.isLt)

/-- `compareWords` (43_compare.md R200, R201). -/
theorem compareWords_eq (a b : Word) (s : State) :
    compareWords a b s =
      .next (s.setFlags (carriedFlags (decide ((a - b).toNat > a.toNat)) (a - b) s.flags)) := by
  simp [compareWords, compareFlags, withZN_eq, resultFlags, carriedFlags, carryOf]

/-! ### Loads, jumps, branches and calls -/

/-- All that `loadMem` can do when it answers (40_load_store.md R144 to R147). -/
theorem loadMem_eq_next {n : Nat} {r : Reg} {a : Word} {s t : State} :
    loadMem n r a s = .next t ↔ ∃ l, locate s a n = .next l ∧ t = s.setReg r (leWord (s.loadAt l n)) := by
  unfold loadMem
  simp only [during_eq_next, memRead_eq_next]
  constructor
  · rintro ⟨v, ⟨l, hl, rfl⟩, h⟩
    simp only [Host.Outcome.next.injEq] at h
    exact ⟨l, hl, h.symm⟩
  · rintro ⟨l, hl, rfl⟩
    exact ⟨_, ⟨l, hl, rfl⟩, rfl⟩

/-- `jump` (44_control_flow.md R210). -/
theorem jump_eq (c : Cond) (a : Word) (s : State) :
    jump c a s = .next (s.setReg .ip (if c.holds s.flags then a else s.reg .ip)) := by
  unfold jump
  split
  · rfl
  · rfl

/-- All that `branch` can do when it answers (44_control_flow.md R210). -/
theorem branch_eq_next {c : Cond} {a : Word} {s t : State} :
    branch c a s = .next t ↔
      (c.holds s.flags = false ∧ t = s) ∨
      (c.holds s.flags = true ∧ ∃ l, locate s (s.reg .sp) 8 = .next l ∧ t = (s.pushed l (s.reg .ip)).setReg .ip a) := by
  unfold branch
  cases c.holds s.flags
  · simp [eq_comm]
  · simp only [if_true, andThen_eq_next, push64_eq_next, Bool.true_eq_false, false_and, false_or, true_and]
    constructor
    · rintro ⟨s1, ⟨l, hl, rfl⟩, h⟩
      simp only [Host.Outcome.next.injEq] at h
      exact ⟨l, hl, h.symm⟩
    · rintro ⟨l, hl, rfl⟩
      exact ⟨_, ⟨l, hl, rfl⟩, rfl⟩

/-- All that `call` can do when it answers (45_stack_call.md R250). -/
theorem call_eq_next {a : Word} {s t : State} :
    call a s = .next t ↔ ∃ u, pushState s = .next u ∧ t = u.setReg .ip a := by
  unfold call
  rw [andThen_eq_next]
  simp only [Host.Outcome.next.injEq]
  exact ⟨fun ⟨u, h, e⟩ => ⟨u, h, e.symm⟩, fun ⟨u, h, e⟩ => ⟨u, h, e.symm⟩⟩

end Sys2Proof.Machine
end

