-- ==== Sys2Proof/Laws/PerInstr.lean ====
section
/-! SUPPORT. The statements made of every instruction, one lemma per constructor of `Instr`. -/

namespace Sys2Proof.Laws

open Sys2Proof.Machine

/-- Under every well-formed opcode map, the bytes of an instruction start with the opcode of its format, and they are as
many as the length of that format (30_encoding.md R105, R107, R110). -/
def EncodedLength.Statement (i : Instr) : Prop :=
  ∀ m : OpcodeMap, m.wf = true →
    ∃ bs, encode m i = some bs ∧ layoutOf m (BitVec.ofNat 16 (leNat (bs.take 2))) = some i.mnemonic.layout ∧
      bs.length = i.mnemonic.layout.length

theorem encodedLength_of_operands {i : Instr} (hb : (operandBytes i).length = i.mnemonic.layout.fields.sum) :
    EncodedLength.Statement i := by
  intro m hm
  obtain ⟨op, hop⟩ := opcodeFor_completes hm i.mnemonic
  obtain ⟨h1, h2⟩ := OpcodeMap.wf_row hm (mem_of_opcodeFor hop)
  refine ⟨op16 op ++ operandBytes i, by simp [encode, hop], ?_, ?_⟩
  · rw [op16, List.take_append_of_le_length (by simp), List.take_of_length_le (by simp), leNat_leBytes, layoutOf,
      BitVec.toNat_ofNat, Nat.mod_eq_of_lt (by omega), Nat.mod_eq_of_lt (by omega), h2]
    rfl
  · rw [List.length_append, hb, Layout.length, op16, length_leBytes]

theorem EncodedLength.nop : EncodedLength.Statement (.nop) :=
  encodedLength_of_operands rfl
theorem EncodedLength.ldi (r : Reg) (imm : Word) : EncodedLength.Statement (.ldi r imm) :=
  encodedLength_of_operands rfl
theorem EncodedLength.ldbi (r : Reg) (imm : BitVec 8) : EncodedLength.Statement (.ldbi r imm) :=
  encodedLength_of_operands rfl
theorem EncodedLength.ldwi (r : Reg) (imm : BitVec 16) : EncodedLength.Statement (.ldwi r imm) :=
  encodedLength_of_operands rfl
theorem EncodedLength.lddi (r : Reg) (imm : BitVec 32) : EncodedLength.Statement (.lddi r imm) :=
  encodedLength_of_operands rfl
theorem EncodedLength.ldm (r : Reg) (addr : Word) : EncodedLength.Statement (.ldm r addr) :=
  encodedLength_of_operands rfl
theorem EncodedLength.ldbm (r : Reg) (addr : Word) : EncodedLength.Statement (.ldbm r addr) :=
  encodedLength_of_operands rfl
theorem EncodedLength.ldwm (r : Reg) (addr : Word) : EncodedLength.Statement (.ldwm r addr) :=
  encodedLength_of_operands rfl
theorem EncodedLength.lddm (r : Reg) (addr : Word) : EncodedLength.Statement (.lddm r addr) :=
  encodedLength_of_operands rfl
theorem EncodedLength.st (r : Reg) (addr : Word) : EncodedLength.Statement (.st r addr) :=
  encodedLength_of_operands rfl
theorem EncodedLength.stb (r : Reg) (addr : Word) : EncodedLength.Statement (.stb r addr) :=
  encodedLength_of_operands rfl
theorem EncodedLength.stw (r : Reg) (addr : Word) : EncodedLength.Statement (.stw r addr) :=
  encodedLength_of_operands rfl
theorem EncodedLength.std (r : Reg) (addr : Word) : EncodedLength.Statement (.std r addr) :=
  encodedLength_of_operands rfl
theorem EncodedLength.tf (dst : Reg) (src : Reg) : EncodedLength.Statement (.tf dst src) :=
  encodedLength_of_operands rfl
theorem EncodedLength.addi (r : Reg) (imm : Word) : EncodedLength.Statement (.addi r imm) :=
  encodedLength_of_operands rfl
theorem EncodedLength.subi (r : Reg) (imm : Word) : EncodedLength.Statement (.subi r imm) :=
  encodedLength_of_operands rfl
theorem EncodedLength.muli (r : Reg) (imm : Word) : EncodedLength.Statement (.muli r imm) :=
  encodedLength_of_operands rfl
theorem EncodedLength.divi (r : Reg) (imm : Word) : EncodedLength.Statement (.divi r imm) :=
  encodedLength_of_operands rfl
theorem EncodedLength.modi (r : Reg) (imm : Word) : EncodedLength.Statement (.modi r imm) :=
  encodedLength_of_operands rfl
theorem EncodedLength.mulis (r : Reg) (imm : Word) : EncodedLength.Statement (.mulis r imm) :=
  encodedLength_of_operands rfl
theorem EncodedLength.divis (r : Reg) (imm : Word) : EncodedLength.Statement (.divis r imm) :=
  encodedLength_of_operands rfl
theorem EncodedLength.add (dst : Reg) (src : Reg) : EncodedLength.Statement (.add dst src) :=
  encodedLength_of_operands rfl
theorem EncodedLength.sub (dst : Reg) (src : Reg) : EncodedLength.Statement (.sub dst src) :=
  encodedLength_of_operands rfl
theorem EncodedLength.mul (dst : Reg) (src : Reg) : EncodedLength.Statement (.mul dst src) :=
  encodedLength_of_operands rfl
theorem EncodedLength.div (dst : Reg) (src : Reg) : EncodedLength.Statement (.div dst src) :=
  encodedLength_of_operands rfl
theorem EncodedLength.mod (dst : Reg) (src : Reg) : EncodedLength.Statement (.mod dst src) :=
  encodedLength_of_operands rfl
theorem EncodedLength.muls (dst : Reg) (src : Reg) : EncodedLength.Statement (.muls dst src) :=
  encodedLength_of_operands rfl
theorem EncodedLength.divs (dst : Reg) (src : Reg) : EncodedLength.Statement (.divs dst src) :=
  encodedLength_of_operands rfl
theorem EncodedLength.andi (r : Reg) (imm : Word) : EncodedLength.Statement (.andi r imm) :=
  encodedLength_of_operands rfl
theorem EncodedLength.ori (r : Reg) (imm : Word) : EncodedLength.Statement (.ori r imm) :=
  encodedLength_of_operands rfl
theorem EncodedLength.xori (r : Reg) (imm : Word) : EncodedLength.Statement (.xori r imm) :=
  encodedLength_of_operands rfl
theorem EncodedLength.noti (r : Reg) (imm : Word) : EncodedLength.Statement (.noti r imm) :=
  encodedLength_of_operands rfl
theorem EncodedLength.shli (r : Reg) (imm : Word) : EncodedLength.Statement (.shli r imm) :=
  encodedLength_of_operands rfl
theorem EncodedLength.shri (r : Reg) (imm : Word) : EncodedLength.Statement (.shri r imm) :=
  encodedLength_of_operands rfl
theorem EncodedLength.rori (r : Reg) (imm : Word) : EncodedLength.Statement (.rori r imm) :=
  encodedLength_of_operands rfl
theorem EncodedLength.roli (r : Reg) (imm : Word) : EncodedLength.Statement (.roli r imm) :=
  encodedLength_of_operands rfl
theorem EncodedLength.and (dst : Reg) (src : Reg) : EncodedLength.Statement (.and dst src) :=
  encodedLength_of_operands rfl
theorem EncodedLength.or (dst : Reg) (src : Reg) : EncodedLength.Statement (.or dst src) :=
  encodedLength_of_operands rfl
theorem EncodedLength.xor (dst : Reg) (src : Reg) : EncodedLength.Statement (.xor dst src) :=
  encodedLength_of_operands rfl
theorem EncodedLength.not (dst : Reg) (src : Reg) : EncodedLength.Statement (.not dst src) :=
  encodedLength_of_operands rfl
theorem EncodedLength.shl (dst : Reg) (src : Reg) : EncodedLength.Statement (.shl dst src) :=
  encodedLength_of_operands rfl
theorem EncodedLength.shr (dst : Reg) (src : Reg) : EncodedLength.Statement (.shr dst src) :=
  encodedLength_of_operands rfl
theorem EncodedLength.ror (dst : Reg) (src : Reg) : EncodedLength.Statement (.ror dst src) :=
  encodedLength_of_operands rfl
theorem EncodedLength.rol (dst : Reg) (src : Reg) : EncodedLength.Statement (.rol dst src) :=
  encodedLength_of_operands rfl
theorem EncodedLength.cmp (dst : Reg) (src : Reg) : EncodedLength.Statement (.cmp dst src) :=
  encodedLength_of_operands rfl
theorem EncodedLength.cmpi (r : Reg) (imm : Word) : EncodedLength.Statement (.cmpi r imm) :=
  encodedLength_of_operands rfl
theorem EncodedLength.jmp (addr : Word) : EncodedLength.Statement (.jmp addr) :=
  encodedLength_of_operands rfl
theorem EncodedLength.jeq (addr : Word) : EncodedLength.Statement (.jeq addr) :=
  encodedLength_of_operands rfl
theorem EncodedLength.jne (addr : Word) : EncodedLength.Statement (.jne addr) :=
  encodedLength_of_operands rfl
theorem EncodedLength.jgt (addr : Word) : EncodedLength.Statement (.jgt addr) :=
  encodedLength_of_operands rfl
theorem EncodedLength.jlt (addr : Word) : EncodedLength.Statement (.jlt addr) :=
  encodedLength_of_operands rfl
theorem EncodedLength.jge (addr : Word) : EncodedLength.Statement (.jge addr) :=
  encodedLength_of_operands rfl
theorem EncodedLength.jle (addr : Word) : EncodedLength.Statement (.jle addr) :=
  encodedLength_of_operands rfl
theorem EncodedLength.bra (addr : Word) : EncodedLength.Statement (.bra addr) :=
  encodedLength_of_operands rfl
theorem EncodedLength.beq (addr : Word) : EncodedLength.Statement (.beq addr) :=
  encodedLength_of_operands rfl
theorem EncodedLength.bne (addr : Word) : EncodedLength.Statement (.bne addr) :=
  encodedLength_of_operands rfl
theorem EncodedLength.bgt (addr : Word) : EncodedLength.Statement (.bgt addr) :=
  encodedLength_of_operands rfl
theorem EncodedLength.blt (addr : Word) : EncodedLength.Statement (.blt addr) :=
  encodedLength_of_operands rfl
theorem EncodedLength.bge (addr : Word) : EncodedLength.Statement (.bge addr) :=
  encodedLength_of_operands rfl
theorem EncodedLength.ble (addr : Word) : EncodedLength.Statement (.ble addr) :=
  encodedLength_of_operands rfl
theorem EncodedLength.jmpr (r : Reg) : EncodedLength.Statement (.jmpr r) :=
  encodedLength_of_operands rfl
theorem EncodedLength.jeqr (r : Reg) : EncodedLength.Statement (.jeqr r) :=
  encodedLength_of_operands rfl
theorem EncodedLength.jner (r : Reg) : EncodedLength.Statement (.jner r) :=
  encodedLength_of_operands rfl
theorem EncodedLength.jgtr (r : Reg) : EncodedLength.Statement (.jgtr r) :=
  encodedLength_of_operands rfl
theorem EncodedLength.jltr (r : Reg) : EncodedLength.Statement (.jltr r) :=
  encodedLength_of_operands rfl
theorem EncodedLength.jger (r : Reg) : EncodedLength.Statement (.jger r) :=
  encodedLength_of_operands rfl
theorem EncodedLength.jler (r : Reg) : EncodedLength.Statement (.jler r) :=
  encodedLength_of_operands rfl
theorem EncodedLength.brar (r : Reg) : EncodedLength.Statement (.brar r) :=
  encodedLength_of_operands rfl
theorem EncodedLength.beqr (r : Reg) : EncodedLength.Statement (.beqr r) :=
  encodedLength_of_operands rfl
theorem EncodedLength.bner (r : Reg) : EncodedLength.Statement (.bner r) :=
  encodedLength_of_operands rfl
theorem EncodedLength.bgtr (r : Reg) : EncodedLength.Statement (.bgtr r) :=
  encodedLength_of_operands rfl
theorem EncodedLength.bltr (r : Reg) : EncodedLength.Statement (.bltr r) :=
  encodedLength_of_operands rfl
theorem EncodedLength.bger (r : Reg) : EncodedLength.Statement (.bger r) :=
  encodedLength_of_operands rfl
theorem EncodedLength.bler (r : Reg) : EncodedLength.Statement (.bler r) :=
  encodedLength_of_operands rfl
theorem EncodedLength.ret : EncodedLength.Statement (.ret) :=
  encodedLength_of_operands rfl
theorem EncodedLength.push (r : Reg) : EncodedLength.Statement (.push r) :=
  encodedLength_of_operands rfl
theorem EncodedLength.pushi (imm : Word) : EncodedLength.Statement (.pushi imm) :=
  encodedLength_of_operands rfl
theorem EncodedLength.pop (r : Reg) : EncodedLength.Statement (.pop r) :=
  encodedLength_of_operands rfl
theorem EncodedLength.call (addr : Word) : EncodedLength.Statement (.call addr) :=
  encodedLength_of_operands rfl
theorem EncodedLength.callr (r : Reg) : EncodedLength.Statement (.callr r) :=
  encodedLength_of_operands rfl
theorem EncodedLength.rtc : EncodedLength.Statement (.rtc) :=
  encodedLength_of_operands rfl
theorem EncodedLength.clc : EncodedLength.Statement (.clc) :=
  encodedLength_of_operands rfl
theorem EncodedLength.sec : EncodedLength.Statement (.sec) :=
  encodedLength_of_operands rfl
theorem EncodedLength.clz : EncodedLength.Statement (.clz) :=
  encodedLength_of_operands rfl
theorem EncodedLength.sez : EncodedLength.Statement (.sez) :=
  encodedLength_of_operands rfl
theorem EncodedLength.cln : EncodedLength.Statement (.cln) :=
  encodedLength_of_operands rfl
theorem EncodedLength.sen : EncodedLength.Statement (.sen) :=
  encodedLength_of_operands rfl
theorem EncodedLength.clo : EncodedLength.Statement (.clo) :=
  encodedLength_of_operands rfl
theorem EncodedLength.seo : EncodedLength.Statement (.seo) :=
  encodedLength_of_operands rfl
theorem EncodedLength.cli : EncodedLength.Statement (.cli) :=
  encodedLength_of_operands rfl
theorem EncodedLength.sei : EncodedLength.Statement (.sei) :=
  encodedLength_of_operands rfl
theorem EncodedLength.int (imm : Word) : EncodedLength.Statement (.int imm) :=
  encodedLength_of_operands rfl
theorem EncodedLength.rti : EncodedLength.Statement (.rti) :=
  encodedLength_of_operands rfl
theorem EncodedLength.hlt : EncodedLength.Statement (.hlt) :=
  encodedLength_of_operands rfl

end Sys2Proof.Laws
end

