-- ==== Sys2Proof/Tests/Slice0.lean ====
section
/-! SUPPORT. The model's own tests: ill-formed memory maps are refused, words written out from the encodings of the spec
decode, one step at a time follows the vectors of 95_test_vectors.md, and the hypotheses of every obligation are met
somewhere. Expected values are the spec's. -/

namespace Sys2Proof.Tests

open Sys2Proof.Machine
open Host (Outcome)

/-! ### Helpers -/

/-- The value of an outcome that has one. -/
def valueOf {α φ ρ : Type} : Outcome α φ ρ → Option α
  | .next a => some a
  | .fault _ => none
  | .refused _ => none

/-- The fault of an outcome that has one. -/
def faultOf {α φ ρ : Type} : Outcome α φ ρ → Option φ
  | .next _ => none
  | .fault k => some k
  | .refused _ => none

theorem eq_next {α φ ρ : Type} {x : Outcome α φ ρ} {a : α} (h : valueOf x = some a) : x = .next a := by
  cases x <;> simp_all [valueOf]

theorem eq_fault {α φ ρ : Type} {x : Outcome α φ ρ} {k : φ} (h : faultOf x = some k) : x = .fault k := by
  cases x <;> simp_all [faultOf]

/-- The flags at reset. -/
def clear : Flags := { c := false, z := false, n := false, o := false, i := false }

/-- The start of a vector of 95_test_vectors.md part 2: the reset state with IP = 0x100, these registers, memory bytes
and flags, and the instruction's bytes at 0x100. -/
def before (bytes : List Byte) (regs : List (Reg × Word) := []) (mem : List (Nat × List Byte) := [])
    (flags : Flags := clear) (counter : Word := 0) : State :=
  let s := regs.foldl (fun s p => s.setReg p.1 p.2) (State.reset.setReg .ip 0x100)
  let s := mem.foldl (fun s p => s.storeAt { dev := 0, off := p.1 } p.2) s
  ((s.storeAt { dev := 0, off := 0x100 } bytes).setFlags flags).setFrameSize counter

/-- The state that an outcome leaves; the state before where it is refused. -/
def leftBy (s : State) : Outcome State Fault Refusal → State
  | .next t => t
  | .fault (.halt _ t) => t
  | .refused _ => s

/-- One step leaves a state with these properties. -/
abbrev ends (s : State) (p : State → Prop) : Prop := p (leftBy s (step s))

/-- Every word decodes, whole, to the instruction beside it. -/
def decodesAll : List (List Byte × Instr) → Bool
  | [] => true
  | (bs, i) :: rest =>
    (match decode opcodeMap bs with
      | .ok (j, []) => decide (j = i)
      | .ok (_, _ :: _) => false
      | .error _ => false) && decodesAll rest

/-! ### Well-formedness -/

/-- A region whose range is reversed (20_memory.md R63). -/
theorem test_reversed_region_refused :
    wellFormedMap 1 [{ dev := 0, first := 0x100, last := 0x0FF, rebase := false }] = false := by decide

/-- A region on a device that is not RAM (20_memory.md R62). -/
theorem test_dangling_device_refused :
    wellFormedMap 1 [{ dev := 1, first := 0, last := 0xFF, rebase := false }] = false := by decide

/-- Two regions that share one address (95_test_vectors.md 1.5). -/
theorem test_overlap_refused :
    wellFormedMap 2 [{ dev := 0, first := 0x1000, last := 0x1FFF, rebase := true },
      { dev := 1, first := 0x1FFF, last := 0x2FFF, rebase := true }] = false := by decide

/-- A region strictly inside another (95_test_vectors.md 1.5, 90_conflicts.md C5). -/
theorem test_nested_region_refused :
    wellFormedMap 2 [{ dev := 0, first := 0x0000, last := 0xFFFF, rebase := true },
      { dev := 1, first := 0x1000, last := 0x1FFF, rebase := true }] = false := by decide

/-- Disjoint neighbours (95_test_vectors.md 1.5). -/
theorem test_disjoint_map_accepted :
    wellFormedMap 2 [{ dev := 0, first := 0x1000, last := 0x1FFF, rebase := true },
      { dev := 1, first := 0x2000, last := 0x2FFF, rebase := true }] = true := by decide

/-! ### Decoding: a word of every constructor, written out from 30_encoding.md R105 and R110 -/

theorem test_decode_misc : decodesAll
    [ ([0x00, 0x00], .nop)
    , ([0xFF, 0xFF], .hlt) ] = true := by
  decide

theorem test_decode_load_store : decodesAll
    [ ([0x01, 0x00, 0x0B, 0x88, 0x77, 0x66, 0x55, 0x44, 0x33, 0x22, 0xF1], .ldi .fp 0xF122334455667788)
    , ([0x01, 0x01, 0x0B, 0xF1], .ldbi .fp 0xF1)
    , ([0x01, 0x02, 0x0B, 0x22, 0xF1], .ldwi .fp 0xF122)
    , ([0x01, 0x04, 0x0B, 0x44, 0x33, 0x22, 0xF1], .lddi .fp 0xF1223344)
    , ([0x02, 0x00, 0x0B, 0x88, 0x77, 0x66, 0x55, 0x44, 0x33, 0x22, 0xF1], .ldm .fp 0xF122334455667788)
    , ([0x02, 0x01, 0x0B, 0x88, 0x77, 0x66, 0x55, 0x44, 0x33, 0x22, 0xF1], .ldbm .fp 0xF122334455667788)
    , ([0x02, 0x02, 0x0B, 0x88, 0x77, 0x66, 0x55, 0x44, 0x33, 0x22, 0xF1], .ldwm .fp 0xF122334455667788)
    , ([0x02, 0x04, 0x0B, 0x88, 0x77, 0x66, 0x55, 0x44, 0x33, 0x22, 0xF1], .lddm .fp 0xF122334455667788)
    , ([0x03, 0x00, 0x0B, 0x88, 0x77, 0x66, 0x55, 0x44, 0x33, 0x22, 0xF1], .st .fp 0xF122334455667788)
    , ([0x03, 0x01, 0x0B, 0x88, 0x77, 0x66, 0x55, 0x44, 0x33, 0x22, 0xF1], .stb .fp 0xF122334455667788)
    , ([0x03, 0x02, 0x0B, 0x88, 0x77, 0x66, 0x55, 0x44, 0x33, 0x22, 0xF1], .stw .fp 0xF122334455667788)
    , ([0x03, 0x04, 0x0B, 0x88, 0x77, 0x66, 0x55, 0x44, 0x33, 0x22, 0xF1], .std .fp 0xF122334455667788)
    , ([0x04, 0x00, 0x09, 0x0C], .tf .r8 .mb) ] = true := by
  decide

theorem test_decode_arithmetic : decodesAll
    [ ([0x11, 0x00, 0x0B, 0x88, 0x77, 0x66, 0x55, 0x44, 0x33, 0x22, 0xF1], .addi .fp 0xF122334455667788)
    , ([0x12, 0x00, 0x0B, 0x88, 0x77, 0x66, 0x55, 0x44, 0x33, 0x22, 0xF1], .subi .fp 0xF122334455667788)
    , ([0x13, 0x00, 0x0B, 0x88, 0x77, 0x66, 0x55, 0x44, 0x33, 0x22, 0xF1], .muli .fp 0xF122334455667788)
    , ([0x14, 0x00, 0x0B, 0x88, 0x77, 0x66, 0x55, 0x44, 0x33, 0x22, 0xF1], .divi .fp 0xF122334455667788)
    , ([0x15, 0x00, 0x0B, 0x88, 0x77, 0x66, 0x55, 0x44, 0x33, 0x22, 0xF1], .modi .fp 0xF122334455667788)
    , ([0x16, 0x00, 0x0B, 0x88, 0x77, 0x66, 0x55, 0x44, 0x33, 0x22, 0xF1], .mulis .fp 0xF122334455667788)
    , ([0x17, 0x00, 0x0B, 0x88, 0x77, 0x66, 0x55, 0x44, 0x33, 0x22, 0xF1], .divis .fp 0xF122334455667788)
    , ([0x21, 0x00, 0x09, 0x0C], .add .r8 .mb)
    , ([0x22, 0x00, 0x09, 0x0C], .sub .r8 .mb)
    , ([0x23, 0x00, 0x09, 0x0C], .mul .r8 .mb)
    , ([0x24, 0x00, 0x09, 0x0C], .div .r8 .mb)
    , ([0x25, 0x00, 0x09, 0x0C], .mod .r8 .mb)
    , ([0x26, 0x00, 0x09, 0x0C], .muls .r8 .mb)
    , ([0x27, 0x00, 0x09, 0x0C], .divs .r8 .mb) ] = true := by
  decide

theorem test_decode_bitwise : decodesAll
    [ ([0x31, 0x00, 0x0B, 0x88, 0x77, 0x66, 0x55, 0x44, 0x33, 0x22, 0xF1], .andi .fp 0xF122334455667788)
    , ([0x32, 0x00, 0x0B, 0x88, 0x77, 0x66, 0x55, 0x44, 0x33, 0x22, 0xF1], .ori .fp 0xF122334455667788)
    , ([0x33, 0x00, 0x0B, 0x88, 0x77, 0x66, 0x55, 0x44, 0x33, 0x22, 0xF1], .xori .fp 0xF122334455667788)
    , ([0x34, 0x00, 0x0B, 0x88, 0x77, 0x66, 0x55, 0x44, 0x33, 0x22, 0xF1], .noti .fp 0xF122334455667788)
    , ([0x35, 0x00, 0x0B, 0x88, 0x77, 0x66, 0x55, 0x44, 0x33, 0x22, 0xF1], .shli .fp 0xF122334455667788)
    , ([0x36, 0x00, 0x0B, 0x88, 0x77, 0x66, 0x55, 0x44, 0x33, 0x22, 0xF1], .shri .fp 0xF122334455667788)
    , ([0x37, 0x00, 0x0B, 0x88, 0x77, 0x66, 0x55, 0x44, 0x33, 0x22, 0xF1], .rori .fp 0xF122334455667788)
    , ([0x38, 0x00, 0x0B, 0x88, 0x77, 0x66, 0x55, 0x44, 0x33, 0x22, 0xF1], .roli .fp 0xF122334455667788)
    , ([0x41, 0x00, 0x09, 0x0C], .and .r8 .mb)
    , ([0x42, 0x00, 0x09, 0x0C], .or .r8 .mb)
    , ([0x43, 0x00, 0x09, 0x0C], .xor .r8 .mb)
    , ([0x44, 0x00, 0x09, 0x0C], .not .r8 .mb)
    , ([0x45, 0x00, 0x09, 0x0C], .shl .r8 .mb)
    , ([0x46, 0x00, 0x09, 0x0C], .shr .r8 .mb)
    , ([0x47, 0x00, 0x09, 0x0C], .ror .r8 .mb)
    , ([0x48, 0x00, 0x09, 0x0C], .rol .r8 .mb) ] = true := by
  decide

theorem test_decode_compare : decodesAll
    [ ([0x51, 0x00, 0x09, 0x0C], .cmp .r8 .mb)
    , ([0x52, 0x00, 0x0B, 0x88, 0x77, 0x66, 0x55, 0x44, 0x33, 0x22, 0xF1], .cmpi .fp 0xF122334455667788) ] = true := by
  decide

theorem test_decode_control_flow : decodesAll
    [ ([0x61, 0x00, 0x88, 0x77, 0x66, 0x55, 0x44, 0x33, 0x22, 0xF1], .jmp 0xF122334455667788)
    , ([0x62, 0x00, 0x88, 0x77, 0x66, 0x55, 0x44, 0x33, 0x22, 0xF1], .jeq 0xF122334455667788)
    , ([0x63, 0x00, 0x88, 0x77, 0x66, 0x55, 0x44, 0x33, 0x22, 0xF1], .jne 0xF122334455667788)
    , ([0x64, 0x00, 0x88, 0x77, 0x66, 0x55, 0x44, 0x33, 0x22, 0xF1], .jgt 0xF122334455667788)
    , ([0x65, 0x00, 0x88, 0x77, 0x66, 0x55, 0x44, 0x33, 0x22, 0xF1], .jlt 0xF122334455667788)
    , ([0x66, 0x00, 0x88, 0x77, 0x66, 0x55, 0x44, 0x33, 0x22, 0xF1], .jge 0xF122334455667788)
    , ([0x67, 0x00, 0x88, 0x77, 0x66, 0x55, 0x44, 0x33, 0x22, 0xF1], .jle 0xF122334455667788)
    , ([0x71, 0x00, 0x88, 0x77, 0x66, 0x55, 0x44, 0x33, 0x22, 0xF1], .bra 0xF122334455667788)
    , ([0x72, 0x00, 0x88, 0x77, 0x66, 0x55, 0x44, 0x33, 0x22, 0xF1], .beq 0xF122334455667788)
    , ([0x73, 0x00, 0x88, 0x77, 0x66, 0x55, 0x44, 0x33, 0x22, 0xF1], .bne 0xF122334455667788)
    , ([0x74, 0x00, 0x88, 0x77, 0x66, 0x55, 0x44, 0x33, 0x22, 0xF1], .bgt 0xF122334455667788)
    , ([0x75, 0x00, 0x88, 0x77, 0x66, 0x55, 0x44, 0x33, 0x22, 0xF1], .blt 0xF122334455667788)
    , ([0x76, 0x00, 0x88, 0x77, 0x66, 0x55, 0x44, 0x33, 0x22, 0xF1], .bge 0xF122334455667788)
    , ([0x77, 0x00, 0x88, 0x77, 0x66, 0x55, 0x44, 0x33, 0x22, 0xF1], .ble 0xF122334455667788)
    , ([0x61, 0x01, 0x0B], .jmpr .fp)
    , ([0x62, 0x01, 0x0B], .jeqr .fp)
    , ([0x63, 0x01, 0x0B], .jner .fp)
    , ([0x64, 0x01, 0x0B], .jgtr .fp)
    , ([0x65, 0x01, 0x0B], .jltr .fp)
    , ([0x66, 0x01, 0x0B], .jger .fp)
    , ([0x67, 0x01, 0x0B], .jler .fp)
    , ([0x71, 0x01, 0x0B], .brar .fp)
    , ([0x72, 0x01, 0x0B], .beqr .fp)
    , ([0x73, 0x01, 0x0B], .bner .fp)
    , ([0x74, 0x01, 0x0B], .bgtr .fp)
    , ([0x75, 0x01, 0x0B], .bltr .fp)
    , ([0x76, 0x01, 0x0B], .bger .fp)
    , ([0x77, 0x01, 0x0B], .bler .fp)
    , ([0x81, 0x00], .ret) ] = true := by
  decide

theorem test_decode_stack_call : decodesAll
    [ ([0x91, 0x00, 0x0B], .push .fp)
    , ([0x92, 0x00, 0x88, 0x77, 0x66, 0x55, 0x44, 0x33, 0x22, 0xF1], .pushi 0xF122334455667788)
    , ([0x93, 0x00, 0x0B], .pop .fp)
    , ([0xA1, 0x00, 0x88, 0x77, 0x66, 0x55, 0x44, 0x33, 0x22, 0xF1], .call 0xF122334455667788)
    , ([0xA2, 0x00, 0x0B], .callr .fp)
    , ([0xA3, 0x00], .rtc) ] = true := by
  decide

theorem test_decode_flag_ops : decodesAll
    [ ([0xB1, 0x00], .clc)
    , ([0xB2, 0x00], .sec)
    , ([0xB3, 0x00], .clz)
    , ([0xB4, 0x00], .sez)
    , ([0xB5, 0x00], .cln)
    , ([0xB6, 0x00], .sen)
    , ([0xB7, 0x00], .clo)
    , ([0xB8, 0x00], .seo)
    , ([0xB9, 0x00], .cli)
    , ([0xBA, 0x00], .sei) ] = true := by
  decide

theorem test_decode_interrupt_ops : decodesAll
    [ ([0xC1, 0x00, 0x88, 0x77, 0x66, 0x55, 0x44, 0x33, 0x22, 0xF1], .int 0xF122334455667788)
    , ([0xC2, 0x00], .rti) ] = true := by
  decide

/-- Selectors wrap modulo 14: 0x10 and 0x11 name R1 and R2, 0xFF names R2 (95_test_vectors.md 1.2). -/
theorem test_decode_selector_wrap :
    decodesAll [([0x04, 0x00, 0x10, 0x11], .tf .r1 .r2), ([0x91, 0x00, 0xFF], .push .r2),
      ([0x93, 0x00, 0x0E], .pop .ip)] = true := by
  decide

/-- Illegal opcodes (30_encoding.md R111). -/
theorem test_decode_illegal :
    [decode opcodeMap [0x05, 0x00], decode opcodeMap [0x00, 0x01], decode opcodeMap [0xFE, 0xFF]] =
      [.error (.invalidOpcode 0x0005), .error (.invalidOpcode 0x0100), .error (.invalidOpcode 0xFFFE)] := by
  decide

/-- A map that is not well formed: one opcode given twice, one mnemonic left without any, or a value past 16 bits. -/
theorem test_ill_formed_opcode_maps_refused :
    OpcodeMap.wf ((0xFFFF, .nop) :: opcodeMap.tail) = false ∧ OpcodeMap.wf opcodeMap.tail = false ∧
      OpcodeMap.wf ((0x10000, .nop) :: opcodeMap.tail) = false := by
  decide +kernel

/-- Under a configuration in which PUSHI and POP change their opcodes (30_encoding.md R113), the step follows the
configuration (00_scope.md R7). -/
theorem test_other_opcode_map :
    let s := before [0x92, 0x00, 0x03] (regs := [(.sp, 0xEFF7)]) (mem := [(0xEFFF, [0x05])])
    ends { s with params := { s.params with opcodeMap := [(0x0092, .pop), (0x0093, .pushi)] } } fun t =>
      t.reg .ip = 0x103 ∧ t.reg .r2 = 5 ∧ t.reg .sp = 0xEFFF := by
  decide

/-! ### Inspection: 60_exceptions.md R345 -/

/-- Two RAM devices of two bytes, mapped side by side at 0x10 and 0x12. -/
def twoRegions : State :=
  State.launch
    { setupParams with
      regions := [{ dev := 1, first := 0x12, last := 0x13, rebase := true },
        { dev := 0, first := 0x10, last := 0x11, rebase := true }] }
    [⟨2, [(0, 1), (1, 2)]⟩, ⟨2, [(0, 3), (1, 4)]⟩]

/-- A range over both regions is read whole, and one that runs past them answers the fault of its first bad address. -/
theorem test_inspect_over_two_regions :
    valueOf (inspectMemory twoRegions 0x10 4) = some [1, 2, 3, 4] ∧
      faultOf (inspectMemory twoRegions 0x11 5) = some (.unmappedAddress 0x14) := by
  decide

/-! ### Loads, stores and TF: 95_test_vectors.md 2.1 -/

theorem test_ldi : ends (before [0x01, 0x00, 0x02, 0x00, 0x00, 0x00, 0x00, 0x00, 0x00, 0x00, 0x80]) fun t =>
    t.reg .ip = 0x10B ∧ t.reg .r1 = 0x8000000000000000 ∧ t.flags = clear ∧ t.run = .running := by
  decide

theorem test_ldbi : ends (before [0x01, 0x01, 0x04, 0x80] (regs := [(.r3, 0xFFFFFFFFFFFFFFFF)])) fun t =>
    t.reg .ip = 0x104 ∧ t.reg .r3 = 0x80 ∧ t.flags = clear ∧ t.run = .running := by
  decide

theorem test_ldwi : ends (before [0x01, 0x02, 0x03, 0xEF, 0xBE]) fun t =>
    t.reg .ip = 0x105 ∧ t.reg .r2 = 0xBEEF ∧ t.flags = clear ∧ t.run = .running := by
  decide

theorem test_lddi : ends (before [0x01, 0x04, 0x05, 0xFF, 0xFF, 0xFF, 0xFF] (regs := [(.r4, 0xFFFFFFFFFFFFFFFF)]))
  fun t =>
    t.reg .ip = 0x107 ∧ t.reg .r4 = 0xFFFFFFFF ∧ t.flags = clear ∧ t.run = .running := by
  decide

theorem test_ldm : ends (before [0x02, 0x00, 0x02, 0x00, 0x02, 0x00, 0x00, 0x00, 0x00, 0x00, 0x00] (mem := [(0x200,
  [0x88, 0x77, 0x66, 0x55, 0x44, 0x33, 0x22, 0x11])])) fun t =>
    t.reg .ip = 0x10B ∧ t.reg .r1 = 0x1122334455667788 ∧ t.flags = clear ∧ t.run = .running := by
  decide

theorem test_ldbm : ends (before [0x02, 0x01, 0x02, 0x00, 0x02, 0x00, 0x00, 0x00, 0x00, 0x00, 0x00] (mem := [(0x200,
  [0x88, 0x77, 0x66, 0x55, 0x44, 0x33, 0x22, 0x11])])) fun t =>
    t.reg .ip = 0x10B ∧ t.reg .r1 = 0x88 ∧ t.flags = clear ∧ t.run = .running := by
  decide

theorem test_ldwm : ends (before [0x02, 0x02, 0x02, 0x06, 0x02, 0x00, 0x00, 0x00, 0x00, 0x00, 0x00] (mem := [(0x200,
  [0x88, 0x77, 0x66, 0x55, 0x44, 0x33, 0x22, 0x11])])) fun t =>
    t.reg .ip = 0x10B ∧ t.reg .r1 = 0x1122 ∧ t.flags = clear ∧ t.run = .running := by
  decide

theorem test_lddm : ends (before [0x02, 0x04, 0x02, 0x00, 0x02, 0x00, 0x00, 0x00, 0x00, 0x00, 0x00] (mem := [(0x200,
  [0x88, 0x77, 0x66, 0x55, 0x44, 0x33, 0x22, 0x11])])) fun t =>
    t.reg .ip = 0x10B ∧ t.reg .r1 = 0x55667788 ∧ t.flags = clear ∧ t.run = .running := by
  decide

theorem test_ldm_corner : ends (before [0x02, 0x00, 0x02, 0xF9, 0xFF, 0x00, 0x00, 0x00, 0x00, 0x00, 0x00]) fun t =>
    t.reg .ip = 0x10B ∧ t.flags = clear ∧ t.run = .faulted (.outOfBounds 0xFFF9 8) := by
  decide

theorem test_ldbm_corner : ends (before [0x02, 0x01, 0x02, 0x00, 0x00, 0x01, 0x00, 0x00, 0x00, 0x00, 0x00]) fun t =>
    t.reg .ip = 0x10B ∧ t.flags = clear ∧ t.run = .faulted (.unmappedAddress 0x10000) := by
  decide

theorem test_st : ends (before [0x03, 0x00, 0x02, 0x00, 0x03, 0x00, 0x00, 0x00, 0x00, 0x00, 0x00] (regs := [(.r1,
  0x1122334455667788)])) fun t =>
    t.reg .ip = 0x10B ∧ t.flags = clear ∧ bytesAt t ⟨0, 0x300⟩ 8 = [0x88, 0x77, 0x66, 0x55, 0x44, 0x33, 0x22, 0x11] ∧
      t.run = .running := by
  decide

theorem test_stb : ends (before [0x03, 0x01, 0x02, 0x00, 0x03, 0x00, 0x00, 0x00, 0x00, 0x00, 0x00] (regs := [(.r1,
  0x1122334455667788)])) fun t =>
    t.reg .ip = 0x10B ∧ t.flags = clear ∧ bytesAt t ⟨0, 0x300⟩ 1 = [0x11] ∧ t.run = .running := by
  decide

theorem test_stw : ends (before [0x03, 0x02, 0x02, 0x00, 0x03, 0x00, 0x00, 0x00, 0x00, 0x00, 0x00] (regs := [(.r1,
  0x1122334455667788)])) fun t =>
    t.reg .ip = 0x10B ∧ t.flags = clear ∧ bytesAt t ⟨0, 0x300⟩ 2 = [0x22, 0x11] ∧ t.run = .running := by
  decide

theorem test_std : ends (before [0x03, 0x04, 0x02, 0x00, 0x03, 0x00, 0x00, 0x00, 0x00, 0x00, 0x00] (regs := [(.r1,
  0x1122334455667788)])) fun t =>
    t.reg .ip = 0x10B ∧ t.flags = clear ∧ bytesAt t ⟨0, 0x300⟩ 4 = [0x44, 0x33, 0x22, 0x11] ∧ t.run = .running := by
  decide

theorem test_stb_corner : ends (before [0x03, 0x01, 0x02, 0x00, 0x03, 0x00, 0x00, 0x00, 0x00, 0x00, 0x00] (regs :=
  [(.r1, 0x41)]) (mem := [(0x300, [0xAA])])) fun t =>
    t.reg .ip = 0x10B ∧ t.flags = clear ∧ bytesAt t ⟨0, 0x300⟩ 1 = [0x00] ∧ t.run = .running := by
  decide

theorem test_st_corner : ends (before [0x03, 0x00, 0x02, 0xFC, 0xFF, 0x00, 0x00, 0x00, 0x00, 0x00, 0x00] (regs :=
  [(.r1, 0x1122334455667788)])) fun t =>
    t.reg .ip = 0x10B ∧ t.flags = clear ∧ t.run = .faulted (.outOfBounds 0xFFFC 8) := by
  decide

theorem test_tf : ends (before [0x04, 0x00, 0x02, 0x03] (regs := [(.r2, 0x7)])) fun t =>
    t.reg .ip = 0x104 ∧ t.reg .r1 = 0x7 ∧ t.reg .r2 = 0x7 ∧ t.flags = clear ∧ t.run = .running := by
  decide

theorem test_tf_corner : ends (before [0x04, 0x00, 0x10, 0x11] (regs := [(.r2, 0x9)])) fun t =>
    t.reg .ip = 0x104 ∧ t.reg .r1 = 0x9 ∧ t.flags = clear ∧ t.run = .running := by
  decide

/-! ### Arithmetic: 95_test_vectors.md 2.2 -/

theorem test_add : ends (before [0x21, 0x00, 0x02, 0x03] (regs := [(.r1, 0x2), (.r2, 0x3)])) fun t =>
    t.reg .ip = 0x104 ∧ t.reg .r1 = 0x5 ∧ t.flags = clear ∧ t.run = .running := by
  decide

theorem test_addi : ends (before [0x11, 0x00, 0x02, 0x00, 0x00, 0x00, 0x00, 0x00, 0x00, 0x00, 0x00] (regs := [(.r1,
  0x5)])) fun t =>
    t.reg .ip = 0x10B ∧ t.reg .r1 = 0x5 ∧ t.flags = clear ∧ t.run = .running := by
  decide

theorem test_sub : ends (before [0x22, 0x00, 0x02, 0x03] (regs := [(.r1, 0x5), (.r2, 0x5)])) fun t =>
    t.reg .ip = 0x104 ∧ t.reg .r1 = 0x0 ∧ t.flags = { clear with z := true } ∧ t.run = .running := by
  decide

theorem test_sub_corner : ends (before [0x22, 0x00, 0x02, 0x03] (regs := [(.r1, 0x3), (.r2, 0x5)])) fun t =>
    t.reg .ip = 0x104 ∧ t.reg .r1 = 0xFFFFFFFFFFFFFFFE ∧ t.flags = { clear with c := true, n := true, o := true } ∧
      t.run = .running := by
  decide

theorem test_subi : ends (before [0x12, 0x00, 0x02, 0x00, 0x00, 0x00, 0x00, 0x00, 0x00, 0x00, 0x80] (regs := [(.r1,
  0x0)])) fun t =>
    t.reg .ip = 0x10B ∧ t.reg .r1 = 0x8000000000000000 ∧ t.flags = { clear with c := true, n := true, o := true } ∧
      t.run = .running := by
  decide

theorem test_mul : ends (before [0x23, 0x00, 0x02, 0x03] (regs := [(.r1, 0x100000000), (.r2, 0x100000000)])) fun t =>
    t.reg .ip = 0x104 ∧ t.reg .r1 = 0x0 ∧ t.flags = { clear with c := true, z := true, o := true } ∧ t.run = .running
      := by
  decide

theorem test_muli : ends (before [0x13, 0x00, 0x02, 0x00, 0x00, 0x00, 0x00, 0x00, 0x00, 0x00, 0x00] (regs := [(.r1,
  0x3)])) fun t =>
    t.reg .ip = 0x10B ∧ t.reg .r1 = 0x0 ∧ t.flags = { clear with c := true, z := true, o := true } ∧ t.run = .running
      := by
  decide

theorem test_div : ends (before [0x24, 0x00, 0x02, 0x03] (regs := [(.r1, 0x7), (.r2, 0x2)])) fun t =>
    t.reg .ip = 0x104 ∧ t.reg .r1 = 0x3 ∧ t.flags = clear ∧ t.run = .running := by
  decide

theorem test_divi : ends (before [0x14, 0x00, 0x02, 0x05, 0x00, 0x00, 0x00, 0x00, 0x00, 0x00, 0x00] (regs := [(.r1,
  0x0)])) fun t =>
    t.reg .ip = 0x10B ∧ t.reg .r1 = 0x0 ∧ t.flags = { clear with z := true } ∧ t.run = .running := by
  decide

theorem test_div_corner : ends (before [0x24, 0x00, 0x02, 0x03] (regs := [(.r1, 0x7), (.r2, 0x0)])) fun t =>
    t.reg .ip = 0x104 ∧ t.reg .r1 = 0x7 ∧ t.flags = clear ∧ t.run = .faulted (.divideByZero) := by
  decide

theorem test_mod : ends (before [0x25, 0x00, 0x02, 0x03] (regs := [(.r1, 0x7), (.r2, 0xA)])) fun t =>
    t.reg .ip = 0x104 ∧ t.reg .r1 = 0x7 ∧ t.flags = clear ∧ t.run = .running := by
  decide

theorem test_modi : ends (before [0x15, 0x00, 0x02, 0x02, 0x00, 0x00, 0x00, 0x00, 0x00, 0x00, 0x00] (regs := [(.r1,
  0x7)])) fun t =>
    t.reg .ip = 0x10B ∧ t.reg .r1 = 0x1 ∧ t.flags = clear ∧ t.run = .running := by
  decide

theorem test_modi_corner : ends (before [0x15, 0x00, 0x02, 0x00, 0x00, 0x00, 0x00, 0x00, 0x00, 0x00, 0x00] (regs :=
  [(.r1, 0x7)])) fun t =>
    t.reg .ip = 0x10B ∧ t.reg .r1 = 0x7 ∧ t.flags = clear ∧ t.run = .faulted (.divideByZero) := by
  decide

theorem test_muls : ends (before [0x26, 0x00, 0x02, 0x03] (regs := [(.r1, 0xFFFFFFFFFFFFFFFE), (.r2, 0x3)])) fun t =>
    t.reg .ip = 0x104 ∧ t.reg .r1 = 0xFFFFFFFFFFFFFFFA ∧ t.flags = { clear with c := true, n := true, o := true } ∧
      t.run = .running := by
  decide

theorem test_mulis : ends (before [0x16, 0x00, 0x02, 0x02, 0x00, 0x00, 0x00, 0x00, 0x00, 0x00, 0x00] (regs := [(.r1,
  0x4000000000000000)])) fun t =>
    t.reg .ip = 0x10B ∧ t.reg .r1 = 0x8000000000000000 ∧ t.flags = { clear with c := true, n := true, o := true } ∧
      t.run = .running := by
  decide

theorem test_mulis_corner : ends (before [0x16, 0x00, 0x02, 0xFF, 0xFF, 0xFF, 0xFF, 0xFF, 0xFF, 0xFF, 0xFF] (regs :=
  [(.r1, 0x8000000000000000)])) fun t =>
    t.reg .ip = 0x10B ∧ t.reg .r1 = 0x8000000000000000 ∧ t.flags = { clear with n := true } ∧ t.run = .running := by
  decide

theorem test_divs : ends (before [0x27, 0x00, 0x02, 0x03] (regs := [(.r1, 0xFFFFFFFFFFFFFFF9), (.r2, 0x2)])) fun t =>
    t.reg .ip = 0x104 ∧ t.reg .r1 = 0xFFFFFFFFFFFFFFFD ∧ t.flags = { clear with c := true, n := true, o := true } ∧
      t.run = .running := by
  decide

theorem test_divis : ends (before [0x17, 0x00, 0x02, 0xFE, 0xFF, 0xFF, 0xFF, 0xFF, 0xFF, 0xFF, 0xFF] (regs := [(.r1,
  0xFFFFFFFFFFFFFFF9)])) fun t =>
    t.reg .ip = 0x10B ∧ t.reg .r1 = 0x3 ∧ t.flags = { clear with c := true, o := true } ∧ t.run = .running := by
  decide

theorem test_divs_corner : ends (before [0x27, 0x00, 0x02, 0x03] (regs := [(.r1, 0x8000000000000000), (.r2,
  0xFFFFFFFFFFFFFFFF)])) fun t =>
    t.reg .ip = 0x104 ∧ t.reg .r1 = 0x8000000000000000 ∧ t.flags = clear ∧ t.run = .faulted (.divideOverflow) := by
  decide

theorem test_divis_corner : ends (before [0x17, 0x00, 0x02, 0x00, 0x00, 0x00, 0x00, 0x00, 0x00, 0x00, 0x00] (regs :=
  [(.r1, 0x5)])) fun t =>
    t.reg .ip = 0x10B ∧ t.reg .r1 = 0x5 ∧ t.flags = clear ∧ t.run = .faulted (.divideByZero) := by
  decide

theorem test_add_corner : ends (before [0x21, 0x00, 0x00, 0x02] (regs := [(.r1, 0x20)])) fun t =>
    t.reg .ip = 0x124 ∧ t.flags = clear ∧ t.run = .running := by
  decide

/-! ### Bitwise, shifts and rotates: 95_test_vectors.md 2.3 -/

theorem test_andi : ends (before [0x31, 0x00, 0x02, 0xF0, 0x00, 0x00, 0x00, 0x00, 0x00, 0x00, 0x00] (regs := [(.r1,
  0xF)])) fun t =>
    t.reg .ip = 0x10B ∧ t.reg .r1 = 0x0 ∧ t.flags = { clear with z := true } ∧ t.run = .running := by
  decide

theorem test_ori : ends (before [0x32, 0x00, 0x02, 0x00, 0x00, 0x00, 0x00, 0x00, 0x00, 0x00, 0x80] (regs := [(.r1,
  0x1)])) fun t =>
    t.reg .ip = 0x10B ∧ t.reg .r1 = 0x8000000000000001 ∧ t.flags = { clear with n := true } ∧ t.run = .running := by
  decide

theorem test_xor : ends (before [0x43, 0x00, 0x02, 0x02] (regs := [(.r1, 0x1234)])) fun t =>
    t.reg .ip = 0x104 ∧ t.reg .r1 = 0x0 ∧ t.flags = { clear with z := true } ∧ t.run = .running := by
  decide

theorem test_and : ends (before [0x41, 0x00, 0x02, 0x03] (regs := [(.r1, 0xFF), (.r2, 0xF)]) (flags :=
  { clear with c := true, o := true })) fun t =>
    t.reg .ip = 0x104 ∧ t.reg .r1 = 0xF ∧ t.flags = { clear with c := true, o := true } ∧ t.run = .running := by
  decide

theorem test_or : ends (before [0x42, 0x00, 0x02, 0x03] (regs := [(.r1, 0x0), (.r2, 0x0)])) fun t =>
    t.reg .ip = 0x104 ∧ t.reg .r1 = 0x0 ∧ t.flags = { clear with z := true } ∧ t.run = .running := by
  decide

theorem test_xori : ends (before [0x33, 0x00, 0x02, 0xFF, 0xFF, 0xFF, 0xFF, 0xFF, 0xFF, 0xFF, 0xFF] (regs := [(.r1,
  0xF)])) fun t =>
    t.reg .ip = 0x10B ∧ t.reg .r1 = 0xFFFFFFFFFFFFFFF0 ∧ t.flags = { clear with n := true } ∧ t.run = .running := by
  decide

theorem test_noti : ends (before [0x34, 0x00, 0x02, 0x00, 0x00, 0x00, 0x00, 0x00, 0x00, 0x00, 0x00] (regs := [(.r1,
  0x55)])) fun t =>
    t.reg .ip = 0x10B ∧ t.reg .r1 = 0xFFFFFFFFFFFFFFFF ∧ t.flags = { clear with n := true } ∧ t.run = .running := by
  decide

theorem test_not : ends (before [0x44, 0x00, 0x02, 0x03] (regs := [(.r1, 0x55), (.r2, 0xFFFFFFFFFFFFFFFF)])) fun t =>
    t.reg .ip = 0x104 ∧ t.reg .r1 = 0x0 ∧ t.flags = { clear with z := true } ∧ t.run = .running := by
  decide

theorem test_not_corner : ends (before [0x44, 0x00, 0x02, 0x02] (regs := [(.r1, 0xF)])) fun t =>
    t.reg .ip = 0x104 ∧ t.reg .r1 = 0xFFFFFFFFFFFFFFF0 ∧ t.flags = { clear with n := true } ∧ t.run = .running := by
  decide

theorem test_shli : ends (before [0x35, 0x00, 0x02, 0x3F, 0x00, 0x00, 0x00, 0x00, 0x00, 0x00, 0x00] (regs := [(.r1,
  0x1)])) fun t =>
    t.reg .ip = 0x10B ∧ t.reg .r1 = 0x8000000000000000 ∧ t.flags = { clear with n := true } ∧ t.run = .running := by
  decide

theorem test_shl : ends (before [0x45, 0x00, 0x02, 0x03] (regs := [(.r1, 0x3), (.r2, 0x0)])) fun t =>
    t.reg .ip = 0x104 ∧ t.reg .r1 = 0x3 ∧ t.flags = clear ∧ t.run = .running := by
  decide

theorem test_shli_corner : ends (before [0x35, 0x00, 0x02, 0x40, 0x00, 0x00, 0x00, 0x00, 0x00, 0x00, 0x00] (regs :=
  [(.r1, 0x1)])) fun t =>
    t.reg .ip = 0x10B ∧ t.reg .r1 = 0x1 ∧ t.flags = clear ∧ t.run = .faulted (.undefinedShift 64) := by
  decide

theorem test_shri : ends (before [0x36, 0x00, 0x02, 0x01, 0x00, 0x00, 0x00, 0x00, 0x00, 0x00, 0x00] (regs := [(.r1,
  0x1)])) fun t =>
    t.reg .ip = 0x10B ∧ t.reg .r1 = 0x0 ∧ t.flags = { clear with z := true } ∧ t.run = .running := by
  decide

theorem test_shr : ends (before [0x46, 0x00, 0x02, 0x03] (regs := [(.r1, 0x8000000000000000), (.r2, 0x4)])) fun t =>
    t.reg .ip = 0x104 ∧ t.reg .r1 = 0x800000000000000 ∧ t.flags = clear ∧ t.run = .running := by
  decide

theorem test_shr_corner : ends (before [0x46, 0x00, 0x02, 0x03] (regs := [(.r1, 0x5), (.r2, 0x100)])) fun t =>
    t.reg .ip = 0x104 ∧ t.flags = clear ∧ t.run = .faulted (.undefinedShift 256) := by
  decide

theorem test_roli : ends (before [0x38, 0x00, 0x02, 0x01, 0x00, 0x00, 0x00, 0x00, 0x00, 0x00, 0x00] (regs := [(.r1,
  0x8000000000000001)])) fun t =>
    t.reg .ip = 0x10B ∧ t.reg .r1 = 0x3 ∧ t.flags = { clear with c := true } ∧ t.run = .running := by
  decide

theorem test_rol : ends (before [0x48, 0x00, 0x02, 0x03] (regs := [(.r1, 0x123456789ABCDEF), (.r2, 0x8)])) fun t =>
    t.reg .ip = 0x104 ∧ t.reg .r1 = 0x23456789ABCDEF01 ∧ t.flags = clear ∧ t.run = .running := by
  decide

theorem test_roli_corner : ends (before [0x38, 0x00, 0x02, 0x00, 0x00, 0x00, 0x00, 0x00, 0x00, 0x00, 0x00] (regs :=
  [(.r1, 0x5)])) fun t =>
    t.reg .ip = 0x10B ∧ t.flags = clear ∧ t.run = .faulted (.undefinedShift 0) := by
  decide

theorem test_rori : ends (before [0x37, 0x00, 0x02, 0x01, 0x00, 0x00, 0x00, 0x00, 0x00, 0x00, 0x00] (regs := [(.r1,
  0x1)])) fun t =>
    t.reg .ip = 0x10B ∧ t.reg .r1 = 0x8000000000000000 ∧ t.flags = { clear with c := true, n := true } ∧ t.run =
      .running := by
  decide

theorem test_ror : ends (before [0x47, 0x00, 0x02, 0x03] (regs := [(.r1, 0x123456789ABCDEF), (.r2, 0x4)])) fun t =>
    t.reg .ip = 0x104 ∧ t.reg .r1 = 0xF0123456789ABCDE ∧ t.flags = { clear with c := true, n := true } ∧ t.run =
      .running := by
  decide

theorem test_rori_corner : ends (before [0x37, 0x00, 0x02, 0x3F, 0x00, 0x00, 0x00, 0x00, 0x00, 0x00, 0x00] (regs :=
  [(.r1, 0x1)])) fun t =>
    t.reg .ip = 0x10B ∧ t.reg .r1 = 0x2 ∧ t.flags = { clear with c := true } ∧ t.run = .running := by
  decide

theorem test_ror_corner : ends (before [0x47, 0x00, 0x02, 0x03] (regs := [(.r1, 0x5), (.r2, 0x0)])) fun t =>
    t.reg .ip = 0x104 ∧ t.flags = clear ∧ t.run = .faulted (.undefinedShift 0) := by
  decide

/-! ### Compare: 95_test_vectors.md 2.4 -/

theorem test_cmp : ends (before [0x51, 0x00, 0x02, 0x03] (regs := [(.r1, 0x3), (.r2, 0x5)])) fun t =>
    t.reg .ip = 0x104 ∧ t.reg .r1 = 0x3 ∧ t.reg .r2 = 0x5 ∧ t.flags = { clear with c := true, n := true } ∧ t.run =
      .running := by
  decide

theorem test_cmp_corner : ends (before [0x51, 0x00, 0x02, 0x03] (regs := [(.r1, 0x0), (.r2, 0x8000000000000001)]))
  fun t =>
    t.reg .ip = 0x104 ∧ t.flags = { clear with c := true } ∧ t.run = .running := by
  decide

theorem test_cmpi : ends (before [0x52, 0x00, 0x02, 0x0A, 0x00, 0x00, 0x00, 0x00, 0x00, 0x00, 0x00] (regs := [(.r1,
  0xA)])) fun t =>
    t.reg .ip = 0x10B ∧ t.flags = { clear with z := true } ∧ t.run = .running := by
  decide

theorem test_cmpi_corner : ends (before [0x52, 0x00, 0x02, 0x01, 0x00, 0x00, 0x00, 0x00, 0x00, 0x00, 0x00] (regs :=
  [(.r1, 0x8000000000000000)])) fun t =>
    t.reg .ip = 0x10B ∧ t.flags = clear ∧ t.run = .running := by
  decide

/-! ### Jumps, branches and RET: 95_test_vectors.md 2.5 -/

theorem test_jmp : ends (before [0x61, 0x00, 0x40, 0x00, 0x00, 0x00, 0x00, 0x00, 0x00, 0x00]) fun t =>
    t.reg .ip = 0x40 ∧ t.flags = clear ∧ t.run = .running := by
  decide

theorem test_jeq : ends (before [0x62, 0x00, 0x40, 0x00, 0x00, 0x00, 0x00, 0x00, 0x00, 0x00] (flags :=
  { clear with z := true })) fun t =>
    t.reg .ip = 0x40 ∧ t.flags = { clear with z := true } ∧ t.run = .running := by
  decide

theorem test_jeq_corner : ends (before [0x62, 0x00, 0x40, 0x00, 0x00, 0x00, 0x00, 0x00, 0x00, 0x00]) fun t =>
    t.reg .ip = 0x10A ∧ t.flags = clear ∧ t.run = .running := by
  decide

theorem test_jne : ends (before [0x63, 0x00, 0x40, 0x00, 0x00, 0x00, 0x00, 0x00, 0x00, 0x00]) fun t =>
    t.reg .ip = 0x40 ∧ t.flags = clear ∧ t.run = .running := by
  decide

theorem test_jgt : ends (before [0x64, 0x00, 0x40, 0x00, 0x00, 0x00, 0x00, 0x00, 0x00, 0x00]) fun t =>
    t.reg .ip = 0x40 ∧ t.flags = clear ∧ t.run = .running := by
  decide

theorem test_jgt_corner : ends (before [0x64, 0x00, 0x40, 0x00, 0x00, 0x00, 0x00, 0x00, 0x00, 0x00] (flags :=
  { clear with n := true })) fun t =>
    t.reg .ip = 0x10A ∧ t.flags = { clear with n := true } ∧ t.run = .running := by
  decide

theorem test_jlt : ends (before [0x65, 0x00, 0x40, 0x00, 0x00, 0x00, 0x00, 0x00, 0x00, 0x00] (flags :=
  { clear with n := true })) fun t =>
    t.reg .ip = 0x40 ∧ t.flags = { clear with n := true } ∧ t.run = .running := by
  decide

theorem test_jge : ends (before [0x66, 0x00, 0x40, 0x00, 0x00, 0x00, 0x00, 0x00, 0x00, 0x00] (flags :=
  { clear with z := true })) fun t =>
    t.reg .ip = 0x40 ∧ t.flags = { clear with z := true } ∧ t.run = .running := by
  decide

theorem test_jle : ends (before [0x67, 0x00, 0x40, 0x00, 0x00, 0x00, 0x00, 0x00, 0x00, 0x00]) fun t =>
    t.reg .ip = 0x10A ∧ t.flags = clear ∧ t.run = .running := by
  decide

theorem test_jle_corner : ends (before [0x67, 0x00, 0x40, 0x00, 0x00, 0x00, 0x00, 0x00, 0x00, 0x00] (flags :=
  { clear with z := true, n := true })) fun t =>
    t.reg .ip = 0x40 ∧ t.flags = { clear with z := true, n := true } ∧ t.run = .running := by
  decide

theorem test_bra : ends (before [0x71, 0x00, 0x40, 0x00, 0x00, 0x00, 0x00, 0x00, 0x00, 0x00]) fun t =>
    t.reg .ip = 0x40 ∧ t.reg .sp = 0xEFF7 ∧ t.flags = clear ∧ t.stackFrameSize = 0x8 ∧ bytesAt t ⟨0, 0xEFFF⟩ 8 =
      [0x0A, 0x01, 0x00, 0x00, 0x00, 0x00, 0x00, 0x00] ∧ t.run = .running := by
  decide

theorem test_beq : ends (before [0x72, 0x00, 0x40, 0x00, 0x00, 0x00, 0x00, 0x00, 0x00, 0x00] (flags :=
  { clear with z := true })) fun t =>
    t.reg .ip = 0x40 ∧ t.reg .sp = 0xEFF7 ∧ t.flags = { clear with z := true } ∧ t.stackFrameSize = 0x8 ∧ bytesAt t
      ⟨0, 0xEFFF⟩ 8 = [0x0A, 0x01, 0x00, 0x00, 0x00, 0x00, 0x00, 0x00] ∧ t.run = .running := by
  decide

theorem test_beq_corner : ends (before [0x72, 0x00, 0x40, 0x00, 0x00, 0x00, 0x00, 0x00, 0x00, 0x00]) fun t =>
    t.reg .ip = 0x10A ∧ t.flags = clear ∧ t.run = .running := by
  decide

theorem test_bne : ends (before [0x73, 0x00, 0x40, 0x00, 0x00, 0x00, 0x00, 0x00, 0x00, 0x00]) fun t =>
    t.reg .ip = 0x40 ∧ t.reg .sp = 0xEFF7 ∧ t.flags = clear ∧ t.stackFrameSize = 0x8 ∧ bytesAt t ⟨0, 0xEFFF⟩ 8 =
      [0x0A, 0x01, 0x00, 0x00, 0x00, 0x00, 0x00, 0x00] ∧ t.run = .running := by
  decide

theorem test_bgt : ends (before [0x74, 0x00, 0x40, 0x00, 0x00, 0x00, 0x00, 0x00, 0x00, 0x00] (flags :=
  { clear with z := true })) fun t =>
    t.reg .ip = 0x10A ∧ t.flags = { clear with z := true } ∧ t.run = .running := by
  decide

theorem test_blt : ends (before [0x75, 0x00, 0x40, 0x00, 0x00, 0x00, 0x00, 0x00, 0x00, 0x00] (flags :=
  { clear with n := true })) fun t =>
    t.reg .ip = 0x40 ∧ t.reg .sp = 0xEFF7 ∧ t.flags = { clear with n := true } ∧ t.stackFrameSize = 0x8 ∧ bytesAt t
      ⟨0, 0xEFFF⟩ 8 = [0x0A, 0x01, 0x00, 0x00, 0x00, 0x00, 0x00, 0x00] ∧ t.run = .running := by
  decide

theorem test_bge : ends (before [0x76, 0x00, 0x40, 0x00, 0x00, 0x00, 0x00, 0x00, 0x00, 0x00]) fun t =>
    t.reg .ip = 0x40 ∧ t.reg .sp = 0xEFF7 ∧ t.flags = clear ∧ t.stackFrameSize = 0x8 ∧ bytesAt t ⟨0, 0xEFFF⟩ 8 =
      [0x0A, 0x01, 0x00, 0x00, 0x00, 0x00, 0x00, 0x00] ∧ t.run = .running := by
  decide

theorem test_ble : ends (before [0x77, 0x00, 0x40, 0x00, 0x00, 0x00, 0x00, 0x00, 0x00, 0x00] (flags :=
  { clear with n := true })) fun t =>
    t.reg .ip = 0x40 ∧ t.reg .sp = 0xEFF7 ∧ t.flags = { clear with n := true } ∧ t.stackFrameSize = 0x8 ∧ bytesAt t
      ⟨0, 0xEFFF⟩ 8 = [0x0A, 0x01, 0x00, 0x00, 0x00, 0x00, 0x00, 0x00] ∧ t.run = .running := by
  decide

theorem test_jmpr : ends (before [0x61, 0x01, 0x06] (regs := [(.r5, 0x40)])) fun t =>
    t.reg .ip = 0x40 ∧ t.flags = clear ∧ t.run = .running := by
  decide

theorem test_jeqr : ends (before [0x62, 0x01, 0x06] (regs := [(.r5, 0x40)])) fun t =>
    t.reg .ip = 0x103 ∧ t.flags = clear ∧ t.run = .running := by
  decide

theorem test_jner : ends (before [0x63, 0x01, 0x06] (regs := [(.r5, 0x40)])) fun t =>
    t.reg .ip = 0x40 ∧ t.flags = clear ∧ t.run = .running := by
  decide

theorem test_jgtr : ends (before [0x64, 0x01, 0x06] (regs := [(.r5, 0x40)])) fun t =>
    t.reg .ip = 0x40 ∧ t.flags = clear ∧ t.run = .running := by
  decide

theorem test_jltr : ends (before [0x65, 0x01, 0x06] (regs := [(.r5, 0x40)]) (flags := { clear with n := true })) fun
  t =>
    t.reg .ip = 0x40 ∧ t.flags = { clear with n := true } ∧ t.run = .running := by
  decide

theorem test_jger : ends (before [0x66, 0x01, 0x06] (regs := [(.r5, 0x40)]) (flags := { clear with n := true })) fun
  t =>
    t.reg .ip = 0x103 ∧ t.flags = { clear with n := true } ∧ t.run = .running := by
  decide

theorem test_jler : ends (before [0x67, 0x01, 0x06] (regs := [(.r5, 0x40)]) (flags := { clear with z := true })) fun
  t =>
    t.reg .ip = 0x40 ∧ t.flags = { clear with z := true } ∧ t.run = .running := by
  decide

theorem test_brar : ends (before [0x71, 0x01, 0x06] (regs := [(.r5, 0x40)])) fun t =>
    t.reg .ip = 0x40 ∧ t.reg .sp = 0xEFF7 ∧ t.flags = clear ∧ t.stackFrameSize = 0x8 ∧ bytesAt t ⟨0, 0xEFFF⟩ 8 =
      [0x03, 0x01, 0x00, 0x00, 0x00, 0x00, 0x00, 0x00] ∧ t.run = .running := by
  decide

theorem test_beqr : ends (before [0x72, 0x01, 0x06] (regs := [(.r5, 0x40)]) (flags := { clear with z := true })) fun
  t =>
    t.reg .ip = 0x40 ∧ t.reg .sp = 0xEFF7 ∧ t.flags = { clear with z := true } ∧ t.stackFrameSize = 0x8 ∧ bytesAt t
      ⟨0, 0xEFFF⟩ 8 = [0x03, 0x01, 0x00, 0x00, 0x00, 0x00, 0x00, 0x00] ∧ t.run = .running := by
  decide

theorem test_bner : ends (before [0x73, 0x01, 0x06] (regs := [(.r5, 0x40)]) (flags := { clear with z := true })) fun
  t =>
    t.reg .ip = 0x103 ∧ t.flags = { clear with z := true } ∧ t.run = .running := by
  decide

theorem test_bgtr : ends (before [0x74, 0x01, 0x06] (regs := [(.r5, 0x40)])) fun t =>
    t.reg .ip = 0x40 ∧ t.reg .sp = 0xEFF7 ∧ t.flags = clear ∧ t.stackFrameSize = 0x8 ∧ bytesAt t ⟨0, 0xEFFF⟩ 8 =
      [0x03, 0x01, 0x00, 0x00, 0x00, 0x00, 0x00, 0x00] ∧ t.run = .running := by
  decide

theorem test_bltr : ends (before [0x75, 0x01, 0x06] (regs := [(.r5, 0x40)])) fun t =>
    t.reg .ip = 0x103 ∧ t.flags = clear ∧ t.run = .running := by
  decide

theorem test_bger : ends (before [0x76, 0x01, 0x06] (regs := [(.r5, 0x40)])) fun t =>
    t.reg .ip = 0x40 ∧ t.reg .sp = 0xEFF7 ∧ t.flags = clear ∧ t.stackFrameSize = 0x8 ∧ bytesAt t ⟨0, 0xEFFF⟩ 8 =
      [0x03, 0x01, 0x00, 0x00, 0x00, 0x00, 0x00, 0x00] ∧ t.run = .running := by
  decide

theorem test_bler : ends (before [0x77, 0x01, 0x06] (regs := [(.r5, 0x40)]) (flags := { clear with z := true })) fun
  t =>
    t.reg .ip = 0x40 ∧ t.reg .sp = 0xEFF7 ∧ t.flags = { clear with z := true } ∧ t.stackFrameSize = 0x8 ∧ bytesAt t
      ⟨0, 0xEFFF⟩ 8 = [0x03, 0x01, 0x00, 0x00, 0x00, 0x00, 0x00, 0x00] ∧ t.run = .running := by
  decide

theorem test_brar_corner : ends (before [0x71, 0x01, 0x0A]) fun t =>
    t.reg .ip = 0xEFFF ∧ t.reg .sp = 0xEFF7 ∧ t.flags = clear ∧ bytesAt t ⟨0, 0xEFFF⟩ 8 = [0x03, 0x01, 0x00, 0x00,
      0x00, 0x00, 0x00, 0x00] ∧ t.run = .running := by
  decide

theorem test_ret : ends (before [0x81, 0x00] (regs := [(.sp, 0xEFFF)]) (mem := [(0xF007, [0x34, 0x12, 0x00, 0x00,
  0x00, 0x00, 0x00, 0x00])])) fun t =>
    t.reg .ip = 0x1234 ∧ t.reg .sp = 0xF007 ∧ t.flags = clear ∧ t.stackFrameSize = 0xFFFFFFFFFFFFFFF8 ∧ t.run =
      .running := by
  decide

theorem test_bra_corner : ends (before [0x71, 0x00, 0x40, 0x00, 0x00, 0x00, 0x00, 0x00, 0x00, 0x00] (regs := [(.sp,
  0x10004)])) fun t =>
    t.reg .ip = 0x10A ∧ t.flags = clear ∧ t.run = .faulted (.unmappedAddress 0x10004) := by
  decide

/-! ### Stack and calls: 95_test_vectors.md 2.6 -/

theorem test_push : ends (before [0x91, 0x00, 0x02] (regs := [(.r1, 0x5)])) fun t =>
    t.reg .ip = 0x103 ∧ t.reg .sp = 0xEFF7 ∧ t.flags = clear ∧ t.stackFrameSize = 0x8 ∧ bytesAt t ⟨0, 0xEFFF⟩ 8 =
      [0x05, 0x00, 0x00, 0x00, 0x00, 0x00, 0x00, 0x00] ∧ t.run = .running := by
  decide

theorem test_push_corner : ends (before [0x91, 0x00, 0x0A]) fun t =>
    t.reg .ip = 0x103 ∧ t.reg .sp = 0xEFF7 ∧ t.flags = clear ∧ t.stackFrameSize = 0x8 ∧ bytesAt t ⟨0, 0xEFFF⟩ 8 =
      [0xFF, 0xEF, 0x00, 0x00, 0x00, 0x00, 0x00, 0x00] ∧ t.run = .running := by
  decide

theorem test_pushi : ends (before [0x92, 0x00, 0x00, 0x00, 0x00, 0x00, 0x00, 0x00, 0x00, 0x00]) fun t =>
    t.reg .ip = 0x10A ∧ t.reg .sp = 0xEFF7 ∧ t.flags = clear ∧ t.stackFrameSize = 0x8 ∧ bytesAt t ⟨0, 0xEFFF⟩ 8 =
      [0x00, 0x00, 0x00, 0x00, 0x00, 0x00, 0x00, 0x00] ∧ t.run = .running := by
  decide

theorem test_pop : ends (before [0x93, 0x00, 0x03] (regs := [(.sp, 0xEFF7)]) (mem := [(0xEFFF, [0x05, 0x00, 0x00,
  0x00, 0x00, 0x00, 0x00, 0x00])]) (counter := 8)) fun t =>
    t.reg .ip = 0x103 ∧ t.reg .r2 = 0x5 ∧ t.reg .sp = 0xEFFF ∧ t.flags = clear ∧ t.stackFrameSize = 0x0 ∧ t.run =
      .running := by
  decide

theorem test_pop_corner : ends (before [0x93, 0x00, 0x0A] (regs := [(.sp, 0xEFF7)]) (mem := [(0xEFFF, [0x00, 0x40,
  0x00, 0x00, 0x00, 0x00, 0x00, 0x00])]) (counter := 8)) fun t =>
    t.reg .ip = 0x103 ∧ t.reg .sp = 0x4000 ∧ t.flags = clear ∧ t.stackFrameSize = 0x0 ∧ t.run = .running := by
  decide

theorem test_callr : ends (before [0xA2, 0x00, 0x06] (regs := [(.sp, 0xEFF7), (.r5, 0x400)]) (counter := 8)) fun t =>
    t.reg .ip = 0x400 ∧ t.reg .sp = 0xEFA7 ∧ t.reg .fp = 0xEFA7 ∧ t.flags = clear ∧ t.stackFrameSize = 0x0 ∧ bytesAt
      t ⟨0, 0xEFAF⟩ 8 = [0x58, 0x00, 0x00, 0x00, 0x00, 0x00, 0x00, 0x00] ∧ bytesAt t ⟨0, 0xEFB7⟩ 8 = [0x03, 0x01,
        0x00, 0x00, 0x00, 0x00, 0x00, 0x00] ∧ bytesAt t ⟨0, 0xEFD7⟩ 8 = [0x00, 0x04, 0x00, 0x00, 0x00, 0x00, 0x00,
          0x00] ∧ t.run = .running := by
  decide

/-! ### Flag operations: 95_test_vectors.md 2.7 -/

theorem test_clc : ends (before [0xB1, 0x00] (flags := ⟨true, true, true, true, true⟩)) fun t =>
    t.reg .ip = 0x102 ∧ t.flags = ⟨false, true, true, true, true⟩ ∧ t.run = .running := by
  decide

theorem test_sec : ends (before [0xB2, 0x00]) fun t =>
    t.reg .ip = 0x102 ∧ t.flags = { clear with c := true } ∧ t.run = .running := by
  decide

theorem test_clz : ends (before [0xB3, 0x00] (flags := ⟨true, true, true, true, true⟩)) fun t =>
    t.reg .ip = 0x102 ∧ t.flags = ⟨true, false, true, true, true⟩ ∧ t.run = .running := by
  decide

theorem test_sez : ends (before [0xB4, 0x00]) fun t =>
    t.reg .ip = 0x102 ∧ t.flags = { clear with z := true } ∧ t.run = .running := by
  decide

theorem test_cln : ends (before [0xB5, 0x00] (flags := ⟨true, true, true, true, true⟩)) fun t =>
    t.reg .ip = 0x102 ∧ t.flags = ⟨true, true, false, true, true⟩ ∧ t.run = .running := by
  decide

theorem test_sen : ends (before [0xB6, 0x00]) fun t =>
    t.reg .ip = 0x102 ∧ t.flags = { clear with n := true } ∧ t.run = .running := by
  decide

theorem test_clo : ends (before [0xB7, 0x00] (flags := ⟨true, true, true, true, true⟩)) fun t =>
    t.reg .ip = 0x102 ∧ t.flags = ⟨true, true, true, false, true⟩ ∧ t.run = .running := by
  decide

theorem test_seo : ends (before [0xB8, 0x00]) fun t =>
    t.reg .ip = 0x102 ∧ t.flags = { clear with o := true } ∧ t.run = .running := by
  decide

theorem test_cli : ends (before [0xB9, 0x00] (flags := ⟨true, true, true, true, true⟩)) fun t =>
    t.reg .ip = 0x102 ∧ t.flags = ⟨true, true, true, true, false⟩ ∧ t.run = .running := by
  decide

theorem test_sei : ends (before [0xBA, 0x00]) fun t =>
    t.reg .ip = 0x102 ∧ t.flags = { clear with i := true } ∧ t.run = .running := by
  decide

/-! ### Interrupts: 95_test_vectors.md 2.8 -/

theorem test_int : ends (before [0xC1, 0x00, 0x03, 0x00, 0x00, 0x00, 0x00, 0x00, 0x00, 0x00] (mem := [(0x8018, [0x00,
  0x05])])) fun t =>
    t.reg .ip = 0x500 ∧ t.reg .sp = 0xEFA7 ∧ t.reg .fp = 0xEFA7 ∧ t.flags = { clear with i := true } ∧ bytesAt t ⟨0,
      0xEFAF⟩ 8 = [0x58, 0x00, 0x00, 0x00, 0x00, 0x00, 0x00, 0x00] ∧ bytesAt t ⟨0, 0xEFB7⟩ 8 = [0x0A, 0x01, 0x00,
        0x00, 0x00, 0x00, 0x00, 0x00] ∧ bytesAt t ⟨0, 0xEFFF⟩ 8 = [0x00, 0x00, 0x00, 0x00, 0x00, 0x00, 0x00, 0x00] ∧
          t.run = .running := by
  decide +kernel

theorem test_int_corner : ends (before [0xC1, 0x00, 0x03, 0x00, 0x00, 0x00, 0x00, 0x00, 0x00, 0x00] (mem := [(0x8018,
  [0x00, 0x05])]) (flags := { clear with i := true })) fun t =>
    t.reg .ip = 0x500 ∧ t.flags = { clear with i := true } ∧ t.run = .running := by
  decide

/-! ### NOP, HLT and illegal opcodes: 95_test_vectors.md 2.9 -/

theorem test_nop : ends (before [0x00, 0x00]) fun t =>
    t.reg .ip = 0x102 ∧ t.flags = clear ∧ t.run = .running := by
  decide

theorem test_hlt : ends (before [0xFF, 0xFF]) fun t =>
    t.reg .ip = 0x102 ∧ t.flags = clear ∧ t.run = .halted := by
  decide

theorem test_illegal_opcode : ends (before [0x05, 0x00]) fun t =>
    t.reg .ip = 0x102 ∧ t.flags = clear ∧ t.run = .faulted (.invalidOpcode 0x0005) := by
  decide

/-! ### Calls and returns: 95_test_vectors.md 2.6 and 2.8 -/

/-- The start of the CALL vector, after `PUSHI 0`. -/
def atCall : State :=
  before [0xA1, 0x00, 0x00, 0x04, 0x00, 0x00, 0x00, 0x00, 0x00, 0x00] (regs := [(.sp, 0xEFF7), (.r1, 1), (.r8, 8)])
    (counter := 8)

theorem test_call : ends atCall fun t =>
    t.reg .ip = 0x400 ∧ t.reg .sp = 0xEFA7 ∧ t.reg .fp = 0xEFA7 ∧ t.stackFrameSize = 0 ∧
      bytesAt t ⟨0, 0xEFAF⟩ 8 = [0x58, 0, 0, 0, 0, 0, 0, 0] ∧ bytesAt t ⟨0, 0xEFB7⟩ 8 = [0x0A, 0x01, 0, 0, 0, 0, 0, 0] ∧
      bytesAt t ⟨0, 0xEFBF⟩ 8 = [8, 0, 0, 0, 0, 0, 0, 0] ∧ bytesAt t ⟨0, 0xEFF7⟩ 8 = [1, 0, 0, 0, 0, 0, 0, 0] := by
  decide

/-- A frame at FP as CALL or INT lays it down there, with R1 = 1, R8 = 8 and the return address 0x10A. -/
def frameBytes : List (Nat × List Byte) :=
  [(0xEFAF, [0x58]), (0xEFB7, [0x0A, 0x01]), (0xEFBF, [8]), (0xEFF7, [1])]

theorem test_rtc : ends (before [0xA3, 0x00] (regs := [(.sp, 0xEFA7), (.fp, 0xEFA7), (.r1, 77)]) (mem := frameBytes)
    (flags := { clear with z := true })) fun t =>
    t.reg .ip = 0x10A ∧ t.reg .r1 = 1 ∧ t.reg .r8 = 8 ∧ t.reg .sp = 0xEFFF ∧ t.reg .fp = 0xEFFF ∧
      t.stackFrameSize = 8 ∧ t.flags = { clear with z := true } := by
  decide

theorem test_rti : ends (before [0xC2, 0x00] (regs := [(.sp, 0xEFA7), (.fp, 0xEFA7), (.r1, 77)]) (mem := frameBytes)
    (flags := { clear with n := true, i := true })) fun t =>
    t.reg .ip = 0x10A ∧ t.reg .r1 = 1 ∧ t.reg .r8 = 8 ∧ t.reg .sp = 0xEFFF ∧ t.reg .fp = 0xEFFF ∧
      t.stackFrameSize = 8 ∧ t.flags = { clear with n := true } := by
  decide

/-- A request from outside at a boundary: the handler of line 3, IP of the next instruction saved (60_exceptions.md
R327). -/
theorem test_delivery :
    ends ((before [] (mem := [(0x8018, [0x00, 0x05])])).requestDelivery 3) fun t =>
      t.reg .ip = 0x500 ∧ t.reg .sp = 0xEFA7 ∧ t.flags = { clear with i := true } ∧
        bytesAt t ⟨0, 0xEFB7⟩ 2 = [0x00, 0x01] ∧ t.hostMoves = [] := by
  decide

/-- The host's word placed at the next fetch runs: `LDI R1, 5` from reset. -/
theorem test_withFetchWord : ends (State.reset.withFetchWord 88 0x05020001) fun t =>
    t.reg .ip = 11 ∧ t.reg .r1 = 5 := by
  decide

/-! ### Witnesses: the hypotheses of the obligations are met, each clause at a boundary of its range -/

theorem accessible_of {s : State} {a : Word} {n : Nat} (h : (valueOf (locate s a n)).isSome = true) :
    accessible s a n := by
  obtain ⟨l, hl⟩ := Option.isSome_iff_exists.mp h
  exact ⟨l, eq_next hl⟩

theorem pushable_of {s : State} {n : Nat}
    (h : (List.range n).all (fun k => (valueOf (locate s (wordBelow (s.reg .sp) k) 8)).isSome) = true) : pushable s n := by
  intro k hk
  exact accessible_of (List.all_eq_true.mp h k (List.mem_range.mpr hk))

/-- The words of the frame at FP. -/
def wordsAtFp (s : State) (k : Nat) : Word := (valueOf (memRead s (wordAbove (s.reg .fp) k) 8)).getD 0

theorem frameAtFp_of {s : State}
    (h1 : (List.range 11).all
      (fun k => valueOf (memRead s (wordAbove (s.reg .fp) (k + 1)) 8) == some (wordsAtFp s (k + 1))) = true)
    (h2 : (List.range (wordsAtFp s 11).toNat).all
      (fun k => (valueOf (locate s (wordAbove (s.reg .fp) (12 + k)) 8)).isSome) = true) :
    frameAtFp s (wordsAtFp s) := by
  constructor
  · intro k hk1 hk2
    have := List.all_eq_true.mp h1 (k - 1) (List.mem_range.mpr (by omega))
    rw [show k - 1 + 1 = k by omega] at this
    exact eq_next (by simpa using this)
  · intro k hk1 hk2
    have := List.all_eq_true.mp h2 (k - 12) (List.mem_range.mpr (by omega))
    rw [show 12 + (k - 12) = k by omega] at this
    exact accessible_of this

/-- The region of the common setup. -/
def setupRegion : Region := { dev := 0, first := 0x0000, last := 0xFFFF, rebase := false }

theorem wf_opcodeMap : opcodeMap.wf = true := by decide +kernel

theorem witness_DecodeInvertsEncode : opcodeMap.wf = true := wf_opcodeMap

/-- Decoding: an opcode with all its operand bytes and no more, and one with none. -/
theorem witness_OperandsAreNeverIllegal :
    opcodeMap.wf = true ∧
    (layoutOf opcodeMap (opcodeOfBytes 0x01 0x00) = some (.fri64 .ldi) ∧
      (Layout.fri64 Instr.ldi).fields.sum ≤ ([0xFF, 1, 2, 3, 4, 5, 6, 7, 0xFF] : List Byte).length) ∧
    (layoutOf opcodeMap (opcodeOfBytes 0xFF 0xFF) = some (.f0 .hlt) ∧
      (Layout.f0 Instr.hlt).fields.sum ≤ ([] : List Byte).length) :=
  ⟨wf_opcodeMap, ⟨rfl, by decide⟩, ⟨rfl, by decide⟩⟩

theorem witness_IllegalOpcodeFaults :
    (before [0x05, 0x00]).run = .running ∧ (before [0x05, 0x00]).nextMove = .step ∧
      memReadBytes (before [0x05, 0x00]) ((before [0x05, 0x00]).reg .ip) 2 = .next [0x05, 0x00] ∧
      leNat [0x05, 0x00] ∉ (before [0x05, 0x00]).params.opcodeMap.map Prod.fst :=
  ⟨rfl, rfl, eq_next (by decide), by decide⟩

/-- An instruction at 0x100, and one that ends with the last byte of the device. -/
theorem witness_StepRunsTheDecodedInstruction :
    ((before [0x21, 0x00, 0x02, 0x03]).run = .running ∧ (before [0x21, 0x00, 0x02, 0x03]).nextMove = .step ∧
      decode (before [0x21, 0x00, 0x02, 0x03]).params.opcodeMap [0x21, 0x00, 0x02, 0x03] = .ok (.add .r1 .r2, []) ∧
      standsAtIp (before [0x21, 0x00, 0x02, 0x03]) [0x21, 0x00, 0x02, 0x03]) ∧
    standsAtIp (before [] (regs := [(.ip, 0xFFFE)]) (mem := [(0xFFFE, [0xFF, 0xFF])])) [0xFF, 0xFF] := by
  refine ⟨⟨rfl, rfl, by decide, setupRegion, _, rfl, by decide, by decide⟩, setupRegion, _, rfl, by decide, by decide⟩

theorem witness_FetchAdvancesIpUnlessItFaults :
    memRead (before [0x21, 0x00]) ((before [0x21, 0x00]).reg .ip) 2 = .next 0x21 ∧
      memRead (before [] (regs := [(.ip, 0xFFFF)])) ((before [] (regs := [(.ip, 0xFFFF)])).reg .ip) 2 =
        .fault (.outOfBounds 0xFFFF 2) :=
  ⟨eq_next (by decide), eq_fault (by decide)⟩

theorem witness_HaltIsTheOnlyStop :
    ((before [0x00, 0x00]).run = .running ∧
      step (before [0x00, 0x00]) = .next (leftBy (before [0x00, 0x00]) (step (before [0x00, 0x00])))) ∧
    ((before [0xFF, 0xFF]).run = .running ∧
      step (before [0xFF, 0xFF]) = .next (leftBy (before [0xFF, 0xFF]) (step (before [0xFF, 0xFF])))) ∧
    { before [] with run := .halted }.run ≠ .running ∧ { before [] with run := .faulted .divideByZero }.run ≠ .running :=
  ⟨⟨rfl, eq_next (by decide)⟩, ⟨rfl, eq_next (by decide)⟩, by decide, by decide⟩

theorem witness_DeliveryTakesThePathOfInt :
    (State.reset.requestDelivery 3).run = .running ∧ (State.reset.requestDelivery 3).nextMove = .deliver 3 :=
  ⟨rfl, rfl⟩

theorem inv_before_nop : Inv (before [0x00, 0x00]) :=
  ⟨by decide, by intro d hd; simp only [before, State.reset, State.launch] at hd; revert d; decide⟩

/-- The invariant with a step that answers, and with one that faults. -/
theorem witness_StepKeepsTheInvariant :
    (Inv (before [0x00, 0x00]) ∧
      leaves (step (before [0x00, 0x00])) (leftBy (before [0x00, 0x00]) (step (before [0x00, 0x00])))) ∧
    (Inv { before [0x00, 0x00] with params := { setupParams with regions := [] } } ∧
      leaves (step { before [0x00, 0x00] with params := { setupParams with regions := [] } })
        (leftBy State.reset (step { before [0x00, 0x00] with params := { setupParams with regions := [] } }))) :=
  ⟨⟨inv_before_nop, .inl (eq_next (by decide))⟩, ⟨rfl, inv_before_nop.2⟩,
    .inr ⟨.unmappedAddress 0x100, eq_fault (by decide)⟩⟩

theorem witness_NoStepIsRefused : Inv (before [0x00, 0x00]) := inv_before_nop

theorem witness_StepKeepsTheLaunch :
    leaves (step (before [0x00, 0x00])) (leftBy (before [0x00, 0x00]) (step (before [0x00, 0x00]))) :=
  .inl (eq_next (by decide))

/-- A next state of an instruction of each group that writes a flag, and a fault. -/
theorem witness_FlagWriterTable :
    leaves (exec (.addi .r1 1) State.reset) (leftBy State.reset (exec (.addi .r1 1) State.reset)) ∧
      leaves (exec (.int 3) State.reset) (leftBy State.reset (exec (.int 3) State.reset)) ∧
      leaves (exec .rti State.reset) (leftBy State.reset (exec .rti State.reset)) ∧
      leaves (exec (.divi .r1 0) State.reset) (leftBy State.reset (exec (.divi .r1 0) State.reset)) :=
  ⟨.inl (eq_next (by decide)), .inl (eq_next (by decide +kernel)), .inl (eq_next (by decide +kernel)),
    .inr ⟨.divideByZero, eq_fault (by decide)⟩⟩

theorem witness_AccAndMbHaveNoImplicitRole :
    Reg.acc ∈ [Reg.acc, Reg.mb] ∧ Reg.acc ∉ registersOf (.add .r1 .mb) ∧ Reg.mb ∉ registersOf .rtc ∧
      fetchInstr (before [0xA3, 0x00]) = .next (.rtc, (before [0xA3, 0x00]).setReg .ip 0x102) :=
  ⟨by decide, by decide, by decide, eq_next (by decide)⟩

/-- 95_test_vectors.md 1.3: sixteen bytes at [0, 0xF]; the last address that succeeds and the first that fails. -/
def sixteen : State :=
  State.launch { setupParams with regions := [{ dev := 0, first := 0, last := 0xF, rebase := true }] } [⟨16, []⟩]

theorem witness_DeviceBoundIsExact :
    ([1, 2, 4, 8].all (fun n =>
      decide (findRegion sixteen.params.regions (BitVec.ofNat 64 (16 - n)) =
          some { dev := 0, first := 0, last := 0xF, rebase := true }) &&
        decide ((Region.effective { dev := 0, first := 0, last := 0xF, rebase := true }
          (BitVec.ofNat 64 (16 - n))).toNat + n = 16)) = true) ∧
    sixteen.devices[0]? = some ⟨16, []⟩ ∧
    findRegion sixteen.params.regions 0x9 = some { dev := 0, first := 0, last := 0xF, rebase := true } ∧
    (Region.effective { dev := 0, first := 0, last := 0xF, rebase := true } 0x9).toNat + 8 > 16 := by
  decide +kernel

/-- Addresses at both ends of a region, and the first one past it. -/
theorem witness_ContainingRegionServesTheAccess :
    let g : Region := { dev := 0, first := 0, last := 0xF, rebase := true }
    wellFormedMap sixteen.devices.length sixteen.params.regions = true ∧ sixteen.params.regions = [g] ∧
      (g.first.toNat ≤ (0 : Word).toNat ∧ (0 : Word).toNat ≤ g.last.toNat) ∧
      (g.first.toNat ≤ (0xF : Word).toNat ∧ (0xF : Word).toNat ≤ g.last.toNat) ∧
      ¬(g.first.toNat ≤ (0x10 : Word).toNat ∧ (0x10 : Word).toNat ≤ g.last.toNat) := by
  decide

/-- An access that lands, one with no region, one past the device's end. It serves the loads, the stores and their
faults too. -/
theorem witness_MemReadAndMemWrite :
    locate sixteen 0x8 8 = .next ⟨0, 8⟩ ∧ locate sixteen 0xF 1 = .next ⟨0, 15⟩ ∧
      locate sixteen 0x10 1 = .fault (.unmappedAddress 0x10) ∧ locate sixteen 0x9 8 = .fault (.outOfBounds 0x9 8) ∧
      locate sixteen 0xF 2 = .fault (.outOfBounds 0xF 2) ∧ locate sixteen 0xD 4 = .fault (.outOfBounds 0xD 4) ∧
      locate sixteen 0xE 2 = .next ⟨0, 14⟩ ∧ locate sixteen 0xC 4 = .next ⟨0, 12⟩ :=
  ⟨eq_next (by decide), eq_next (by decide), eq_fault (by decide), eq_fault (by decide), eq_fault (by decide),
    eq_fault (by decide), eq_next (by decide), eq_next (by decide)⟩

/-- Both ends of a rebasing region (95_test_vectors.md 1.4). -/
theorem witness_RebasedAccessIsDeviceAccess :
    let g : Region := { dev := 0, first := 0x1000, last := 0x10FF, rebase := true }
    let s := State.launch { setupParams with regions := [g] } [⟨0x100, []⟩]
    wellFormedMap s.devices.length s.params.regions = true ∧ g ∈ s.params.regions ∧ g.rebase = true ∧
      s.devices[g.dev]? = some ⟨0x100, []⟩ ∧ (0 : Nat) ≤ g.last.toNat - g.first.toNat ∧
      (0xFF : Nat) ≤ g.last.toNat - g.first.toNat := by
  decide

/-- The read of bytes 6 and 7 of an eight-byte write (20_memory.md R73). -/
theorem witness_NarrowReadInsideWideWrite :
    (8 ∈ [1, 2, 4, 8] ∧ 2 ∈ [1, 2, 4, 8] ∧ 6 + 2 ≤ 8 ∧ (0x200 : Word).toNat + 6 < 2 ^ 64 ∧
      findRegion State.reset.params.regions (0x200 + BitVec.ofNat 64 6) =
        findRegion State.reset.params.regions 0x200) ∧
    locate State.reset 0x200 8 = .next ⟨0, 0x200⟩ ∧
      memWrite 0x200 8 0x1122334455667788 State.reset =
        .next (leftBy State.reset (memWrite 0x200 8 0x1122334455667788 State.reset)) :=
  ⟨by decide, eq_next (by decide), eq_next (by decide)⟩

/-- 95_test_vectors.md 1.5: a bus with one region. -/
def oneRegionBus : Bus :=
  { devices := [⟨0x1000, []⟩, ⟨0x1000, []⟩]
    regions := [{ dev := 0, first := 0x1000, last := 0x1FFF, rebase := true }] }

/-- A reversed range, a range that shares the last address, one that starts right after it. -/
theorem witness_MapChecksRangeThenOverlap :
    wellFormedMap oneRegionBus.devices.length oneRegionBus.regions = true ∧ 1 < oneRegionBus.devices.length ∧
      (0x100 : Word).toNat > (0x0FF : Word).toNat ∧
      (∃ h ∈ oneRegionBus.regions, ∃ a : Word,
        Region.covers { dev := 1, first := 0x1FFF, last := 0x2FFF, rebase := true } a = true ∧ h.covers a = true) ∧
      ∀ h ∈ oneRegionBus.regions, ∀ a : Word,
        ¬(Region.covers { dev := 1, first := 0x2000, last := 0x2FFF, rebase := true } a = true ∧ h.covers a = true) := by
  refine ⟨by decide, by decide, by decide, ⟨_, List.mem_singleton.mpr rfl, 0x1FFF, by decide⟩, ?_⟩
  intro h hh a
  simp only [oneRegionBus, List.mem_singleton] at hh
  subst hh
  simp [Region.covers]
  omega

theorem witness_DisjointRegionsAreBothAddressable :
    ({ devices := [⟨0x1000, []⟩, ⟨0x1000, []⟩], regions := [] } : Bus).regions = [] ∧
      (∃ a : Word, Region.covers { dev := 0, first := 0x1000, last := 0x1FFF, rebase := true } a = true ∧
        Region.covers { dev := 1, first := 0x1FFF, last := 0x2FFF, rebase := true } a = true) ∧
      ∀ a : Word, ¬(Region.covers { dev := 0, first := 0x1000, last := 0x1FFF, rebase := true } a = true ∧
        Region.covers { dev := 1, first := 0x2000, last := 0x2FFF, rebase := true } a = true) := by
  refine ⟨rfl, ⟨0x1FFF, by decide⟩, ?_⟩
  intro a
  simp [Region.covers]
  omega

/-- For `MemoryLoadsReadLittleEndian`, `StoresTakeTheHighEnd` and `FailedLoadOrStoreChangesNothing`: the last address of
each width that succeeds in the common setup, and the first that fails. -/
theorem witness_LoadsAndStores :
    (locate State.reset 0xFFF8 8 = .next ⟨0, 0xFFF8⟩ ∧ locate State.reset 0xFFFF 1 = .next ⟨0, 0xFFFF⟩ ∧
      locate State.reset 0xFFFE 2 = .next ⟨0, 0xFFFE⟩ ∧ locate State.reset 0xFFFC 4 = .next ⟨0, 0xFFFC⟩) ∧
    (locate State.reset 0xFFF9 8 = .fault (.outOfBounds 0xFFF9 8) ∧
      locate State.reset 0x10000 1 = .fault (.unmappedAddress 0x10000) ∧
      locate State.reset 0xFFFF 2 = .fault (.outOfBounds 0xFFFF 2) ∧
      locate State.reset 0xFFFD 4 = .fault (.outOfBounds 0xFFFD 4)) :=
  ⟨⟨eq_next (by decide), eq_next (by decide), eq_next (by decide), eq_next (by decide)⟩,
    eq_fault (by decide), eq_fault (by decide), eq_fault (by decide), eq_fault (by decide)⟩

/-- R1 = -2^63, R2 = 1, R3 = -1, R4 = 0: divisors at the ends of their ranges. -/
def divisors : State := before [] (regs := [(.r1, 0x8000000000000000), (.r2, 1), (.r3, 0xFFFFFFFFFFFFFFFF)])

theorem witness_UnsignedDivisionClearsCarry : (1 : Word) ≠ 0 ∧ divisors.reg .r2 ≠ 0 := by decide

theorem witness_SignedDivisionTruncates :
    ((1 : Word) ≠ 0 ∧ ¬((divisors.reg .r1).toInt = -2 ^ 63 ∧ (1 : Word).toInt = -1)) ∧
      divisors.reg .r3 ≠ 0 ∧ ¬((divisors.reg .r2).toInt = -2 ^ 63 ∧ (divisors.reg .r3).toInt = -1) := by
  decide

theorem witness_DivisionFaults :
    divisors.reg .r4 = 0 ∧ divisors.reg .r1 = 0x8000000000000000 ∧ divisors.reg .r3 = 0xFFFFFFFFFFFFFFFF := by decide

/-- R2 = 0, R3 = 63, R4 = 64, R5 = 1: amounts at the ends of the ranges of shifts and rotates, in and out. -/
def amounts : State := before [] (regs := [(.r3, 63), (.r4, 64), (.r5, 1)])

theorem witness_ShiftsBelow64 :
    (0 : Word).toNat < 64 ∧ (63 : Word).toNat < 64 ∧ (amounts.reg .r2).toNat < 64 ∧ (amounts.reg .r3).toNat < 64 := by
  decide

theorem witness_RotatesFrom1To63 :
    (1 ≤ (1 : Word).toNat ∧ (1 : Word).toNat < 64) ∧ (1 ≤ (63 : Word).toNat ∧ (63 : Word).toNat < 64) ∧
      (1 ≤ (amounts.reg .r5).toNat ∧ (amounts.reg .r5).toNat < 64) ∧
      1 ≤ (amounts.reg .r3).toNat ∧ (amounts.reg .r3).toNat < 64 := by
  decide

theorem witness_ShiftAmountOutOfRangeFaults :
    64 ≤ (64 : Word).toNat ∧ 64 ≤ (0xFFFFFFFFFFFFFFFF : Word).toNat ∧ 64 ≤ (amounts.reg .r4).toNat ∧
      amounts.reg .r2 = 0 := by
  decide

/-- For `BranchesPushTheReturnAddress`, `PushWritesWhereSpPoints` and `FailedPushAndPop`: conditions that hold and fail,
a stack that takes a word, the highest one that does, and one that does not. -/
theorem witness_Pushes :
    (clear.z = false ∧ (!clear.z && !clear.n) = true ∧ ({ clear with z := true }).z = true ∧
      ({ clear with n := true }).n = true) ∧
      locate State.reset (State.reset.reg .sp) 8 = .next ⟨0, 0xEFFF⟩ ∧
      locate (before [] (regs := [(.sp, 0xFFF8)])) ((before [] (regs := [(.sp, 0xFFF8)])).reg .sp) 8 =
        .next ⟨0, 0xFFF8⟩ ∧
      locate (before [] (regs := [(.sp, 0xFFF9)])) ((before [] (regs := [(.sp, 0xFFF9)])).reg .sp) 8 =
        .fault (.outOfBounds 0xFFF9 8) ∧
      locate (before [] (regs := [(.sp, 0xFFF8)])) ((before [] (regs := [(.sp, 0xFFF8)])).reg .sp + 8) 8 =
        .fault (.unmappedAddress 0x10000) :=
  ⟨by decide, eq_next (by decide), eq_next (by decide), eq_fault (by decide), eq_fault (by decide)⟩

/-- For `RetPopsIp` and `PopReadsAboveSp`. -/
theorem witness_Pops :
    wordIs (before [] (regs := [(.sp, 0xEFF7)]) (mem := [(0xEFFF, [0x34, 0x12])]))
      ((before [] (regs := [(.sp, 0xEFF7)]) (mem := [(0xEFFF, [0x34, 0x12])])).reg .sp + 8) 0x1234 :=
  eq_next (by decide)

theorem witness_PopReturnsThePushedWord :
    push64 5 State.reset = .next (leftBy State.reset (push64 5 State.reset)) ∧
      State.reset.params.pushCountsFrame = true :=
  ⟨eq_next (by decide), rfl⟩

theorem witness_CallEntersAFrame : pushable atCall 10 := pushable_of (by decide)

/-- A stack that runs out at the first word, and at the last one of a frame; at the last word after an interrupt's zero; and
a vector that cannot be read. -/
theorem witness_FailedFramePush :
    (pushable (before [] (regs := [(.sp, 0x10000)])) 0 ∧
      locate (before [] (regs := [(.sp, 0x10000)]))
        (wordBelow ((before [] (regs := [(.sp, 0x10000)])).reg .sp) 0) 8 = .fault (.unmappedAddress 0x10000)) ∧
    (pushable (before [] (regs := [(.sp, 0x40)])) 9 ∧
      locate (before [] (regs := [(.sp, 0x40)])) (wordBelow ((before [] (regs := [(.sp, 0x40)])).reg .sp) 9) 8 =
        .fault (.unmappedAddress 0xFFFFFFFFFFFFFFF8)) ∧
    (((before [] (regs := [(.sp, 0x48)])).reg .im).getLsbD ((3 : Word).toNat % 64) = true ∧
      (before [] (regs := [(.sp, 0x48)])).flags.i = false ∧
      accessible (before [] (regs := [(.sp, 0x48)]))
        ((before [] (regs := [(.sp, 0x48)])).params.ivtBase + BitVec.ofNat 64 (8 * ((3 : Word).toNat % 64))) 8 ∧
      pushable (before [] (regs := [(.sp, 0x48)])) 10 ∧
      locate (before [] (regs := [(.sp, 0x48)])) (wordBelow ((before [] (regs := [(.sp, 0x48)])).reg .sp) 10) 8 =
        .fault (.unmappedAddress 0xFFFFFFFFFFFFFFF8)) ∧
    locate { State.reset with params := { setupParams with ivtBase := 0xFFE8 } }
      (0xFFE8 + BitVec.ofNat 64 (8 * ((3 : Word).toNat % 64))) 8 = .fault (.unmappedAddress 0x10000) :=
  ⟨⟨pushable_of rfl, eq_fault (by decide)⟩, ⟨pushable_of (by decide), eq_fault (by decide)⟩,
    ⟨by decide, rfl, accessible_of (by decide), pushable_of (by decide), eq_fault (by decide)⟩, eq_fault (by decide)⟩

theorem frameBreaksAt_of {s : State} {k : Nat} {f : FaultKind} (h0 : 1 ≤ k)
    (h1 : (List.range (k - 1)).all
      (fun j => valueOf (memRead s (wordAbove (s.reg .fp) (j + 1)) 8) == some (wordsAtFp s (j + 1))) = true)
    (h2 : 11 < k → k ≤ 11 + (wordsAtFp s 11).toNat)
    (h3 : locate s (wordAbove (s.reg .fp) k) 8 = .fault f) : frameBreaksAt s (wordsAtFp s) k f := by
  refine ⟨h0, fun j hj1 hj2 => ?_, h2, h3⟩
  have := List.all_eq_true.mp h1 (j - 1) (List.mem_range.mpr (by omega))
  rw [show j - 1 + 1 = j by omega] at this
  exact eq_next (by simpa using this)

/-- A frame that breaks at its first word, at its count, and at the last of its arguments. -/
theorem witness_FailedFramePop :
    (∃ w, frameBreaksAt (before [] (regs := [(.fp, 0xFFF8)])) w 1 (.unmappedAddress 0x10000)) ∧
      (∃ w, frameBreaksAt (before [] (regs := [(.fp, 0xFFA8)])) w 11 (.unmappedAddress 0x10000)) ∧
      ∃ w, frameBreaksAt (before [] (regs := [(.fp, 0xFFA0)]) (mem := [(0xFFF8, [1])])) w 12 (.unmappedAddress 0x10000) :=
  ⟨⟨_, frameBreaksAt_of (by decide) rfl (by decide) (eq_fault (by decide))⟩,
    ⟨_, frameBreaksAt_of (by decide) (by decide +kernel) (by decide) (eq_fault (by decide))⟩,
    ⟨_, frameBreaksAt_of (by decide) (by decide +kernel) (by decide +kernel) (eq_fault (by decide))⟩⟩

/-- The frame of the return vectors, with an argument count of 0, and one with a count of 2. -/
theorem witness_ReturnFromCallLeavesTheFrame :
    (∃ w, frameAtFp (before [] (regs := [(.fp, 0xEFA7)]) (mem := frameBytes)) w) ∧
      ∃ w, frameAtFp (before [] (regs := [(.fp, 0xEF97)]) (mem := [(0xEFEF, [2])])) w :=
  ⟨⟨_, frameAtFp_of (by decide +kernel) (by decide +kernel)⟩, _, frameAtFp_of (by decide +kernel) (by decide +kernel)⟩

/-- What the CALL of the vector leaves. -/
def called : State := leftBy atCall (exec (.call 0x400) atCall)

/-- The callee of a CALL to 0x400, or of a CALLR to the address in R8, returns at once. -/
theorem witness_CallThenReturn :
    (exec (.call 0x400) atCall = .next called ∧ exec (.callr .r8) atCall = .next { called with
      regs := { called.regs with ip := 8 } }) ∧ oneStackRegion atCall 10 ∧
      wordIs called (wordAbove (called.reg .fp) 11) 0 ∧ called.reg .fp = called.reg .fp ∧
      (∀ k v, 1 ≤ k → k ≤ 11 → wordIs called (wordAbove (called.reg .fp) k) v →
        wordIs called (wordAbove (called.reg .fp) k) v) ∧
      (∀ k, 11 < k → k ≤ 11 + (0 : Word).toNat → accessible called (wordAbove (called.reg .fp) k) 8) ∧
      atCall.params.pushCountsFrame = true :=
  ⟨⟨eq_next (by decide +kernel), eq_next (by decide +kernel)⟩, ⟨by decide, setupRegion, by decide⟩,
    eq_next (by decide +kernel), rfl, fun _ _ _ _ h => h, fun k h1 h2 => absurd h2 (by simp; omega), rfl⟩

theorem witness_CounterTracksFpMinusSp :
    State.reset.params.pushCountsFrame = true ∧
      State.reset.stackFrameSize = State.reset.reg .fp - State.reset.reg .sp ∧ keepsFrameCount (.push .sp) ∧
      exec (.push .sp) State.reset = .next (leftBy State.reset (exec (.push .sp) State.reset)) :=
  ⟨rfl, by decide, by unfold keepsFrameCount; decide, eq_next (by decide)⟩

theorem witness_CounterIsEightAheadAfterReturn :
    State.reset.params.popStateCounter = .restore ∧
      (exec .rtc State.reset = .next (leftBy State.reset (exec .rtc State.reset)) ∧
        exec .rti State.reset = .next (leftBy State.reset (exec .rti State.reset))) :=
  ⟨rfl, eq_next (by decide +kernel), eq_next (by decide +kernel)⟩

/-- Lines 3 and 63 masked (95_test_vectors.md 1.8). -/
theorem witness_MaskedInterruptChangesNothing :
    ((before [] (regs := [(.im, 0xFFFFFFFFFFFFFFF7)])).reg .im).getLsbD ((67 : Word).toNat % 64) = false ∧
      ((before [] (regs := [(.im, 0x7FFFFFFFFFFFFFFF)])).reg .im).getLsbD ((63 : Word).toNat % 64) = false ∧
      (before [] (regs := [(.im, 0xFFFFFFFFFFFFFFF7)])).run = .running ∧
      ((before [] (regs := [(.im, 0xFFFFFFFFFFFFFFF7)])).requestDelivery 67).nextMove = .deliver 67 := by
  decide

/-- The vector table of the interrupt vectors, outside a handler. -/
def atInt : State := before [] (mem := [(0x8018, [0x00, 0x05])])

theorem witness_InterruptEntrySavesAFrame :
    (atInt.reg .im).getLsbD ((3 : Word).toNat % 64) = true ∧ atInt.flags.i = false ∧
      wordIs atInt (atInt.params.ivtBase + BitVec.ofNat 64 (8 * ((3 : Word).toNat % 64))) 0x500 ∧ pushable atInt 11 :=
  ⟨by decide, rfl, eq_next (by decide), pushable_of (by decide)⟩

theorem witness_NestedInterruptOnlyJumps :
    ((atInt.setInHandler true).reg .im).getLsbD ((3 : Word).toNat % 64) = true ∧
      (atInt.setInHandler true).flags.i = true ∧
      wordIs (atInt.setInHandler true)
        ((atInt.setInHandler true).params.ivtBase + BitVec.ofNat 64 (8 * ((3 : Word).toNat % 64))) 0x500 :=
  ⟨by decide, rfl, eq_next (by decide)⟩

theorem witness_ReturnFromInterruptLeavesTheFrame :
    ∃ w, frameAtFp (before [] (regs := [(.fp, 0xEFA7)]) (mem := frameBytes)) w :=
  ⟨_, frameAtFp_of (by decide +kernel) (by decide +kernel)⟩

/-- What `INT 3` leaves. -/
def interrupted : State := leftBy atInt (exec (.int 3) atInt)

/-- The handler returns at once. -/
theorem witness_InterruptThenReturn :
    (atInt.reg .im).getLsbD ((3 : Word).toNat % 64) = true ∧ atInt.flags.i = false ∧
      exec (.int 3) atInt = .next interrupted ∧ oneStackRegion atInt 11 ∧
      interrupted.reg .fp = interrupted.reg .fp ∧
      (∀ k w, 1 ≤ k → k ≤ 11 → wordIs interrupted (wordAbove (interrupted.reg .fp) k) w →
        wordIs interrupted (wordAbove (interrupted.reg .fp) k) w) ∧
      atInt.params.pushCountsFrame = true :=
  ⟨by decide, rfl, eq_next (by decide +kernel), ⟨by decide, setupRegion, by decide⟩, rfl, fun _ _ _ _ h => h, rfl⟩

end Sys2Proof.Tests
end

/-! Registers: the selector byte, the register file as bytes, and what construction leaves (10_state.md). -/

namespace Sys2Proof.Proofs

open Sys2Proof Sys2Proof.Machine

/-! ### The register file as a device of 112 bytes -/

/-- The slots of the table of 10_state.md R21 have the numbers below 14. -/
theorem index_regOfIndex {n : Nat} (h : n < 14) : (regOfIndex n).index = n := by
  interval_cases n <;> rfl

theorem getElem?_allRegs_index (r : Reg) : allRegs[r.index]? = some r := by
  cases r <;> rfl

/-- In a sequence of chunks of one length, the chunk of an element stands at its number times that length. -/
theorem take_drop_flatMap {α β : Type} {f : α → List β} {n : Nat} (hf : ∀ a, (f a).length = n) {as : List α} {k : Nat}
    {a : α} (h : as[k]? = some a) : ((as.flatMap f).drop (n * k)).take n = f a := by
  induction as generalizing k with
  | nil => simp at h
  | cons b as ih =>
    cases k with
    | zero =>
      obtain rfl : b = a := by simpa using h
      simp [hf]
    | succ k =>
      have hskip : (f b ++ as.flatMap f).drop (n * (k + 1)) = (as.flatMap f).drop (n * k) := by
        rw [Nat.mul_succ, Nat.add_comm, ← List.drop_drop, List.drop_left' (hf b)]
      rw [List.flatMap_cons, hskip]
      exact ih (by simpa using h)

@[simp] theorem length_bytes (f : RegFile) : f.bytes.length = 112 := by
  simp [RegFile.bytes, allRegs]

/-- A slot stands at eight times its number in the register file (10_state.md R20, R23). -/
theorem take_drop_bytes (f : RegFile) (r : Reg) :
    (f.bytes.drop (8 * r.index)).take 8 = leBytes 8 (f.get r).toNat :=
  take_drop_flatMap (fun _ => length_leBytes 8 _) (getElem?_allRegs_index r)

/-- Settles O3: the selector names the register whose number is the byte modulo 14, and that register's slot is its
chunk of the register file. -/
theorem selectorBytePicksSlotModulo14 : Obligations.SelectorBytePicksSlotModulo14 := by
  intro b rest
  have hindex : (regOfSelector b).index = b.toNat % 14 := index_regOfIndex (Nat.mod_lt _ (by decide))
  refine ⟨regOfSelector b, rfl, hindex, fun f => ⟨length_bytes f, ?_⟩⟩
  rw [← hindex]
  exact take_drop_bytes f _

/-! ### Construction and the round trip -/

/-- At launch every register but SP, FP and IM is zero (10_state.md R35). -/
theorem launched_reg_eq_zero (p : Params) (ds : List Device) {r : Reg} (h : r ∉ [Reg.sp, Reg.fp, Reg.im]) :
    (State.launch p ds).reg r = 0 := by
  cases r with
  | sp | fp | im => exact absurd h (by decide)
  | _ => rfl

/-- Settles O10: the fields of a launched state are those of R35, and a new RAM device lists no byte. -/
theorem constructionLeavesTheResetValues : Obligations.ConstructionLeavesTheResetValues :=
  ⟨fun p ds => ⟨rfl, rfl, rfl, fun _ => launched_reg_eq_zero p ds, rfl, rfl, rfl, rfl, rfl⟩,
    fun _ size => ⟨{ size := size, cells := [] }, rfl, rfl, fun _ => rfl⟩⟩

/-- Settles O25, from the read-after-write laws of the register file. -/
theorem registerRoundTrip : Obligations.RegisterRoundTrip :=
  fun s r v => ⟨State.reg_setReg_self s r v, fun _ hq => State.reg_setReg_of_ne s v hq⟩

end Sys2Proof.Proofs

/-! One walk over the shared operations and over every instruction, for two runs side by side: a relation between states
that the operations respect before an instruction holds of the two states it ends in. What every instruction keeps
(10_state.md R29, R34) and what no instruction reads (R29, R32) are both relations of this kind. -/

namespace Sys2Proof.Proofs

open Sys2Proof Sys2Proof.Machine
open Host (Outcome)

/-! ### Two outcomes side by side -/

/-- Both runs answer with related values, both stop with the same fault in related states, or both are refused alike. -/
inductive EndAlike (R : State → State → Prop) {α : Type} (Q : α → α → Prop) : Result α → Result α → Prop where
  | next {a b : α} (h : Q a b) : EndAlike R Q (.next a) (.next b)
  | fault (k : FaultKind) {s t : State} (h : R s t) : EndAlike R Q (.fault (.halt k s)) (.fault (.halt k t))
  | refused (r : Refusal) : EndAlike R Q (.refused r) (.refused r)

/-- Equal values beside related states. -/
def Beside (R : State → State → Prop) {α : Type} (p q : α × State) : Prop := q.1 = p.1 ∧ R p.2 q.2

theorem EndAlike.andThen_alike {α β : Type} {R : State → State → Prop} {Q : α → α → Prop} {Q' : β → β → Prop}
    {x y : Result α} {f g : α → Result β} (h : EndAlike R Q x y) (hf : ∀ a b, Q a b → EndAlike R Q' (f a) (g b)) :
    EndAlike R Q' (andThen x f) (andThen y g) := by
  cases h with
  | next h => exact hf _ _ h
  | fault k h => exact .fault k h
  | refused r => exact .refused r

/-- Where the second state is a function of the first, so is the second outcome. -/
theorem EndAlike.eq_mapState {f : State → State} {x y : Result State}
    (h : EndAlike (fun s t => t = f s) (fun s t => t = f s) x y) : y = mapState f x := by
  cases h with
  | next h => rw [h]; rfl
  | fault k h => rw [h]; rfl
  | refused r => rfl

/-- Where the two states have the same image, so have the two outcomes. -/
theorem EndAlike.mapState_eq {f : State → State} {x y : Result State}
    (h : EndAlike (fun s t => f t = f s) (fun s t => f t = f s) x y) : mapState f y = mapState f x := by
  cases h with
  | next h => exact congrArg Outcome.next h
  | fault k h => exact congrArg (fun u => Outcome.fault (Fault.halt k u)) h
  | refused r => rfl

/-- A run beside itself: what holds of the states it ends in holds of every state it leaves. -/
theorem EndAlike.of_leaves {P : State → Prop} {x : Result State} {t : State}
    (h : EndAlike (fun s u => u = s ∧ P s) (fun s u => u = s ∧ P s) x x) (ht : leaves x t) : P t := by
  obtain rfl | ⟨k, rfl⟩ := ht
  · cases h with
    | next h => exact h.2
  · cases h with
    | fault _ h => exact h.2

/-! ### Changes of the flags -/

/-- The flags that some instruction or condition reads are as before (10_state.md R29, 44_control_flow.md R210). -/
def sameTests (f f' : Flags) : Prop := f'.z = f.z ∧ f'.n = f.n ∧ f'.i = f.i

theorem Cond.holds_congr {f f' : Flags} (h : sameTests f f') (c : Cond) : c.holds f' = c.holds f := by
  obtain ⟨hz, hn, -⟩ := h
  cases c <;> simp [Cond.holds, hz, hn]

/-- Only the flags of a row of the flag-writer table may differ (10_state.md R29). -/
structure StaysInRow (g : FlagGroup) (f f' : Flags) : Prop where
  c : g.writesC = false → f'.c = f.c
  z : g.writesZ = false → f'.z = f.z
  n : g.writesN = false → f'.n = f.n
  o : g.writesO = false → f'.o = f.o
  i : g.writesI = false → f'.i = f.i

theorem StaysInRow.refl (g : FlagGroup) (f : Flags) : StaysInRow g f f :=
  ⟨fun _ => rfl, fun _ => rfl, fun _ => rfl, fun _ => rfl, fun _ => rfl⟩

theorem StaysInRow.trans {g : FlagGroup} {f f' f'' : Flags} (h : StaysInRow g f f') (h' : StaysInRow g f' f'') :
    StaysInRow g f f'' :=
  ⟨fun e => (h'.c e).trans (h.c e), fun e => (h'.z e).trans (h.z e), fun e => (h'.n e).trans (h.n e),
    fun e => (h'.o e).trans (h.o e), fun e => (h'.i e).trans (h.i e)⟩

/-- A change of the flags that a row of the flag-writer table allows and that does not read Carry or Overflow. -/
structure FlagUpdate (g : FlagGroup) (F : Flags → Flags) : Prop where
  row : ∀ f, StaysInRow g f (F f)
  blind : ∀ f f', sameTests f f' → sameTests (F f) (F f')

theorem flagUpdate_arithFlags (c : CarryTest) (signed : Bool) (a res : Word) :
    FlagUpdate .arithmetic (arithFlags c signed a res) where
  row _ := ⟨nofun, nofun, nofun, nofun, fun _ => rfl⟩
  blind _ _ h := ⟨rfl, rfl, h.2.2⟩

theorem flagUpdate_logicFlags (res : Word) : FlagUpdate .logic (logicFlags res) where
  row _ := ⟨fun _ => rfl, nofun, nofun, fun _ => rfl, fun _ => rfl⟩
  blind _ _ h := ⟨rfl, rfl, h.2.2⟩

theorem flagUpdate_shiftFlags (c : CarryTest) (a res : Word) : FlagUpdate .shift (shiftFlags c a res) where
  row _ := ⟨nofun, nofun, nofun, fun _ => rfl, fun _ => rfl⟩
  blind _ _ h := ⟨rfl, rfl, h.2.2⟩

theorem flagUpdate_compareFlags (a b : Word) : FlagUpdate .compared (compareFlags a b) where
  row _ := ⟨nofun, nofun, nofun, fun _ => rfl, fun _ => rfl⟩
  blind _ _ h := ⟨rfl, rfl, h.2.2⟩

theorem flagUpdate_carry (b : Bool) : FlagUpdate .carryOp (fun f => { f with c := b }) where
  row _ := ⟨nofun, fun _ => rfl, fun _ => rfl, fun _ => rfl, fun _ => rfl⟩
  blind _ _ h := h

theorem flagUpdate_zero (b : Bool) : FlagUpdate .zeroOp (fun f => { f with z := b }) where
  row _ := ⟨fun _ => rfl, nofun, fun _ => rfl, fun _ => rfl, fun _ => rfl⟩
  blind _ _ h := ⟨rfl, h.2⟩

theorem flagUpdate_negative (b : Bool) : FlagUpdate .negativeOp (fun f => { f with n := b }) where
  row _ := ⟨fun _ => rfl, fun _ => rfl, nofun, fun _ => rfl, fun _ => rfl⟩
  blind _ _ h := ⟨h.1, rfl, h.2.2⟩

theorem flagUpdate_overflow (b : Bool) : FlagUpdate .overflowOp (fun f => { f with o := b }) where
  row _ := ⟨fun _ => rfl, fun _ => rfl, fun _ => rfl, nofun, fun _ => rfl⟩
  blind _ _ h := h

/-- The three rows that write the in-handler flag alone. -/
theorem flagUpdate_inHandler {g : FlagGroup} (h : g = .handlerOp ∨ g = .interruptEntry ∨ g = .interruptReturn)
    (b : Bool) : FlagUpdate g (fun f => { f with i := b }) where
  row _ := by
    obtain rfl | rfl | rfl := h
    all_goals exact ⟨fun _ => rfl, fun _ => rfl, fun _ => rfl, fun _ => rfl, nofun⟩
  blind _ _ h := ⟨h.1, h.2.1, rfl⟩

/-! ### Relations that the operations respect -/

/-- Related states show the same to every operation that reads seen registers alone, and the same change made to both
keeps them related, a change of the flags where the row of the flag-writer table allows it. Only ACC and MB may be
unseen (10_state.md R32). -/
structure Respects (g : FlagGroup) (seen : Reg → Prop) (R : State → State → Prop) : Prop where
  seen_of_ne : ∀ {q}, q ≠ .acc → q ≠ .mb → seen q
  reg : ∀ {s t q}, R s t → seen q → t.reg q = s.reg q
  flags : ∀ {s t}, R s t → sameTests s.flags t.flags
  counter : ∀ {s t}, R s t → t.stackFrameSize = s.stackFrameSize
  params : ∀ {s t}, R s t → t.params = s.params
  devices : ∀ {s t}, R s t → t.devices = s.devices
  setReg : ∀ {s t q} (v : Word), R s t → seen q → R (s.setReg q v) (t.setReg q v)
  setFrameSize : ∀ {s t} (v : Word), R s t → R (s.setFrameSize v) (t.setFrameSize v)
  storeAt : ∀ {s t} (l : Loc) (bs : List Byte), R s t → R (s.storeAt l bs) (t.storeAt l bs)
  setRun : ∀ {s t} (x : RunState), R s t → R { s with run := x } { t with run := x }
  setFlags : ∀ {s t F}, FlagUpdate g F → R s t → R (s.setFlags (F s.flags)) (t.setFlags (F t.flags))

section Operations

variable {g : FlagGroup} {seen : Reg → Prop} {R : State → State → Prop} {s t : State}

theorem Respects.raise_alike (hR : Respects g seen R) {α : Type} {Q : α → α → Prop} (h : R s t) (k : FaultKind) :
    EndAlike R Q (raise k s) (raise k t) :=
  .fault k (hR.setRun _ h)

theorem Respects.during_alike (hR : Respects g seen R) {α β : Type} {Q : β → β → Prop} {x y : Access α}
    {f f' : α → Result β} (h : R s t) (hxy : y = x) (hf : ∀ a, EndAlike R Q (f a) (f' a)) :
    EndAlike R Q (during s x f) (during t y f') := by
  subst hxy
  cases y with
  | next a => exact hf a
  | fault k => exact hR.raise_alike h k
  | refused r => exact .refused r

/-! #### The bus -/

theorem Respects.locate_eq (hR : Respects g seen R) (h : R s t) (a : Word) (n : Nat) : locate t a n = locate s a n :=
  locate_congr ⟨hR.params h, by rw [hR.devices h]⟩ a n

theorem Respects.memReadBytes_eq (hR : Respects g seen R) (h : R s t) (a : Word) (n : Nat) :
    memReadBytes t a n = memReadBytes s a n := by
  simp only [memReadBytes, hR.locate_eq h, State.loadAt, hR.devices h]

theorem Respects.memRead_eq (hR : Respects g seen R) (h : R s t) (a : Word) (n : Nat) :
    memRead t a n = memRead s a n := by
  simp only [memRead, hR.memReadBytes_eq h]

theorem Respects.memWrite_alike (hR : Respects g seen R) (h : R s t) {a a' v v' : Word} (n : Nat) (ha : a' = a)
    (hv : v' = v) : EndAlike R R (memWrite a n v s) (memWrite a' n v' t) := by
  subst ha hv
  exact hR.during_alike h (hR.locate_eq h _ n) fun l => .next (hR.storeAt l _ h)

/-! #### The stack -/

theorem Respects.sp_seen (hR : Respects g seen R) : seen .sp := hR.seen_of_ne (by decide) (by decide)

theorem Respects.ip_seen (hR : Respects g seen R) : seen .ip := hR.seen_of_ne (by decide) (by decide)

theorem Respects.fp_seen (hR : Respects g seen R) : seen .fp := hR.seen_of_ne (by decide) (by decide)

theorem Respects.frameRegs_seen (hR : Respects g seen R) : ∀ q ∈ frameRegs, seen q :=
  fun _ hq => hR.seen_of_ne (fun e => absurd (e ▸ hq) (by decide)) (fun e => absurd (e ▸ hq) (by decide))

theorem Respects.push64_alike (hR : Respects g seen R) (h : R s t) {v v' : Word} (hv : v' = v) :
    EndAlike R R (push64 v s) (push64 v' t) := by
  refine (hR.memWrite_alike h 8 (hR.reg h hR.sp_seen) hv).andThen_alike fun s1 t1 h1 => .next ?_
  have h2 : R (s1.setReg .sp (s1.reg .sp - 8)) (t1.setReg .sp (t1.reg .sp - 8)) := by
    rw [hR.reg h1 hR.sp_seen]
    exact hR.setReg _ h1 hR.sp_seen
  rw [hR.params h2, hR.counter h2]
  split
  · exact hR.setFrameSize _ h2
  · exact h2

theorem Respects.pop64_alike (hR : Respects g seen R) (h : R s t) :
    EndAlike R (Beside R) (pop64 s) (pop64 t) := by
  have h1 : R (s.setReg .sp (s.reg .sp + 8)) (t.setReg .sp (t.reg .sp + 8)) := by
    rw [hR.reg h hR.sp_seen]
    exact hR.setReg _ h hR.sp_seen
  refine hR.during_alike h1 ?_ fun v => .next ⟨rfl, ?_⟩
  · rw [hR.reg h1 hR.sp_seen, hR.memRead_eq h1]
  · rw [hR.counter h1]
    exact hR.setFrameSize _ h1

theorem Respects.pushRegs_alike (hR : Respects g seen R) {rs : List Reg} (hrs : ∀ q ∈ rs, seen q) (h : R s t) :
    EndAlike R R (pushRegs rs s) (pushRegs rs t) := by
  induction rs generalizing s t with
  | nil => exact .next h
  | cons r rs ih =>
    obtain ⟨hr, hrs⟩ := List.forall_mem_cons.mp hrs
    exact (hR.push64_alike h (hR.reg h hr)).andThen_alike fun _ _ h1 => ih hrs h1

theorem Respects.popRegs_alike (hR : Respects g seen R) {rs : List Reg} (hrs : ∀ q ∈ rs, seen q) (h : R s t) :
    EndAlike R R (popRegs rs s) (popRegs rs t) := by
  induction rs generalizing s t with
  | nil => exact .next h
  | cons r rs ih =>
    obtain ⟨hr, hrs⟩ := List.forall_mem_cons.mp hrs
    refine (hR.pop64_alike h).andThen_alike fun p q ⟨hv, h1⟩ => ?_
    rw [hv]
    exact ih hrs (hR.setReg _ h1 hr)

theorem Respects.discardWords_alike (hR : Respects g seen R) (n : Nat) (h : R s t) :
    EndAlike R R (discardWords n s) (discardWords n t) := by
  induction n generalizing s t with
  | zero => exact .next h
  | succ n ih => exact (hR.pop64_alike h).andThen_alike fun _ _ h1 => ih h1.2

/-! #### Frames and interrupts -/

theorem Respects.pushState_alike (hR : Respects g seen R) (h : R s t) : EndAlike R R (pushState s) (pushState t) := by
  refine (hR.pushRegs_alike hR.frameRegs_seen h).andThen_alike fun s1 t1 h1 => ?_
  refine (hR.push64_alike h1 (by rw [hR.counter h1])).andThen_alike fun s2 t2 h2 => .next ?_
  rw [hR.reg h2 hR.sp_seen]
  exact hR.setFrameSize _ (hR.setReg _ h2 hR.fp_seen)

theorem Respects.restoreCounter_related (hR : Respects g seen R) (size : Word) (h : R s t) :
    R (restoreCounter size s) (restoreCounter size t) := by
  unfold restoreCounter
  rw [hR.params h]
  split
  · exact hR.setFrameSize size h
  · exact h

theorem Respects.popState_alike (hR : Respects g seen R) (h : R s t) : EndAlike R R (popState s) (popState t) := by
  have hfp := hR.reg h hR.fp_seen
  unfold popState
  rw [hfp]
  refine (hR.pop64_alike (hR.setReg _ h hR.sp_seen)).andThen_alike fun p p' ⟨hsize, h1⟩ => ?_
  rw [hsize]
  have hrs : ∀ q ∈ frameRegs.reverse, seen q := fun q hq => hR.frameRegs_seen q (List.mem_reverse.mp hq)
  refine (hR.popRegs_alike hrs (hR.restoreCounter_related _ h1)).andThen_alike fun s2 t2 h2 => ?_
  refine (hR.pop64_alike h2).andThen_alike fun q q' ⟨hcount, h3⟩ => ?_
  rw [hcount]
  exact (hR.discardWords_alike _ h3).andThen_alike fun s4 t4 h4 => .next (hR.setReg _ h4 hR.fp_seen)

theorem Respects.saveInterruptFrame_alike (hR : Respects g seen R) (h : R s t) :
    EndAlike R R (saveInterruptFrame s) (saveInterruptFrame t) := by
  unfold saveInterruptFrame
  rw [(hR.flags h).2.2]
  split
  · exact .next h
  · exact (hR.push64_alike h rfl).andThen_alike fun _ _ h1 => hR.pushState_alike h1

theorem Respects.handleInterrupt_alike (hR : Respects .interruptEntry seen R) (v : Word) (h : R s t) :
    EndAlike R R (handleInterrupt v s) (handleInterrupt v t) := by
  simp only [handleInterrupt]
  rw [hR.reg h (hR.seen_of_ne (by decide) (by decide)), hR.params h]
  split
  · refine hR.during_alike h (hR.memRead_eq h _ 8) fun handler => ?_
    exact (hR.saveInterruptFrame_alike h).andThen_alike fun s1 t1 h1 =>
      .next (hR.setReg _ (hR.setFlags (flagUpdate_inHandler (.inr (.inl rfl)) true) h1) hR.ip_seen)
  · exact .next h

theorem Respects.returnFromInterrupt_alike (hR : Respects .interruptReturn seen R) (h : R s t) :
    EndAlike R R (returnFromInterrupt s) (returnFromInterrupt t) :=
  hR.popState_alike (hR.setFlags (flagUpdate_inHandler (.inr (.inr rfl)) false) h)

/-! #### Fetch -/

theorem Respects.fetchBytes_alike (hR : Respects g seen R) (n : Nat) (h : R s t) :
    EndAlike R (Beside R) (fetchBytes n s) (fetchBytes n t) := by
  unfold fetchBytes
  rw [hR.reg h hR.ip_seen]
  exact hR.during_alike h (hR.memReadBytes_eq h _ n) fun bs => .next ⟨rfl, hR.setReg _ h hR.ip_seen⟩

theorem Respects.fetchFields_alike (hR : Respects g seen R) (ns : List Nat) (h : R s t) :
    EndAlike R (Beside R) (fetchFields ns s) (fetchFields ns t) := by
  induction ns generalizing s t with
  | nil => exact .next ⟨rfl, h⟩
  | cons n ns ih =>
    refine (hR.fetchBytes_alike n h).andThen_alike fun p p' ⟨hp, h1⟩ => ?_
    refine (ih h1).andThen_alike fun q q' ⟨hq, h2⟩ => .next ⟨?_, h2⟩
    rw [hp, hq]

theorem Respects.decodeFetched_alike (hR : Respects g seen R) (m : OpcodeMap) (op : BitVec 16) (bs : List Byte)
    (h : R s t) : EndAlike R (Beside R) (decodeFetched m op bs s) (decodeFetched m op bs t) := by
  unfold decodeFetched
  cases decode m bs with
  | ok p => exact .next ⟨rfl, h⟩
  | error e => exact hR.raise_alike h _

theorem Respects.fetchInstr_alike (hR : Respects g seen R) (h : R s t) :
    EndAlike R (Beside R) (fetchInstr s) (fetchInstr t) := by
  unfold fetchInstr
  rw [hR.params h]
  refine (hR.fetchBytes_alike 2 h).andThen_alike fun p p' ⟨hp, h1⟩ => ?_
  rw [hp]
  cases layoutOf s.params.opcodeMap (fetchedOpcode p.1) with
  | none => exact hR.raise_alike h1 _
  | some l =>
    refine (hR.fetchFields_alike l.fields h1).andThen_alike fun q q' ⟨hq, h2⟩ => ?_
    rw [hq]
    exact hR.decodeFetched_alike _ _ _ h2

/-! #### The families of instructions -/

theorem Respects.setReg_alike (hR : Respects g seen R) (h : R s t) {r : Reg} {v v' : Word} (hr : seen r)
    (hv : v' = v) : EndAlike R R (.next (s.setReg r v)) (.next (t.setReg r v')) := by
  subst hv
  exact .next (hR.setReg _ h hr)

theorem Respects.loadMem_alike (hR : Respects g seen R) (h : R s t) {r : Reg} (n : Nat) (a : Word) (hr : seen r) :
    EndAlike R R (loadMem n r a s) (loadMem n r a t) :=
  hR.during_alike h (hR.memRead_eq h a n) fun _ => hR.setReg_alike h hr rfl

theorem Respects.arith_alike (hR : Respects .arithmetic seen R) (h : R s t) (op : ArithOp) {r : Reg} {b b' : Word}
    (hr : seen r) (hb : b' = b) : EndAlike R R (arith op r b s) (arith op r b' t) := by
  subst hb
  unfold arith
  rw [hR.reg h hr]
  cases op.compute (s.reg r) b' with
  | error k => exact hR.raise_alike h k
  | ok res => exact .next (hR.setFlags (flagUpdate_arithFlags _ _ _ _) (hR.setReg res h hr))

theorem Respects.logic_alike (hR : Respects .logic seen R) (h : R s t) {r : Reg} {v v' : Word} (hr : seen r)
    (hv : v' = v) : EndAlike R R (logic r v s) (logic r v' t) := by
  subst hv
  exact .next (hR.setFlags (flagUpdate_logicFlags v') (hR.setReg v' h hr))

theorem Respects.shift_alike (hR : Respects .shift seen R) (h : R s t) (op : ShiftOp) {r : Reg} {n n' : Word}
    (hr : seen r) (hn : n' = n) : EndAlike R R (shift op r n s) (shift op r n' t) := by
  subst hn
  unfold shift
  rw [hR.reg h hr]
  split
  · exact .next (hR.setFlags (flagUpdate_shiftFlags _ _ _) (hR.setReg _ h hr))
  · exact hR.raise_alike h _

theorem Respects.compareWords_alike (hR : Respects .compared seen R) (h : R s t) {a a' b b' : Word} (ha : a' = a)
    (hb : b' = b) : EndAlike R R (compareWords a b s) (compareWords a' b' t) := by
  subst ha hb
  exact .next (hR.setFlags (flagUpdate_compareFlags _ _) h)

theorem Respects.jump_alike (hR : Respects g seen R) (h : R s t) (c : Cond) {a a' : Word} (ha : a' = a) :
    EndAlike R R (jump c a s) (jump c a' t) := by
  unfold jump
  rw [Cond.holds_congr (hR.flags h)]
  split
  · exact hR.setReg_alike h hR.ip_seen ha
  · exact .next h

theorem Respects.branch_alike (hR : Respects g seen R) (h : R s t) (c : Cond) {a a' : Word} (ha : a' = a) :
    EndAlike R R (branch c a s) (branch c a' t) := by
  unfold branch
  rw [Cond.holds_congr (hR.flags h)]
  split
  · exact (hR.push64_alike h (hR.reg h hR.ip_seen)).andThen_alike fun _ _ h1 => hR.setReg_alike h1 hR.ip_seen ha
  · exact .next h

theorem Respects.popInto_alike (hR : Respects g seen R) (h : R s t) {r : Reg} (hr : seen r) :
    EndAlike R R (execPop r s) (execPop r t) :=
  (hR.pop64_alike h).andThen_alike fun _ _ ⟨hv, h1⟩ => hR.setReg_alike h1 hr hv

theorem Respects.call_alike (hR : Respects g seen R) (h : R s t) {a a' : Word} (ha : a' = a) :
    EndAlike R R (call a s) (call a' t) :=
  (hR.pushState_alike h).andThen_alike fun _ _ h1 => hR.setReg_alike h1 hR.ip_seen ha

/-! #### Every instruction -/

/-- An instruction whose named registers are seen ends alike in related states. -/
theorem Respects.exec_alike {i : Instr} (hR : Respects (flagGroup i) seen R) (hi : ∀ q ∈ registersOf i, seen q)
    (h : R s t) : EndAlike R R (exec i s) (exec i t) := by
  have seen_first : ∀ {r rs}, (∀ q ∈ r :: rs, seen q) → seen r := fun h => h _ (.head _)
  have seen_second : ∀ {d r rs}, (∀ q ∈ d :: r :: rs, seen q) → seen r := fun h => h _ (.tail _ (.head _))
  cases i with
  | nop => exact .next h
  | hlt => exact .next (hR.setRun _ h)
  | ldi r imm | ldbi r imm | ldwi r imm | lddi r imm => exact hR.setReg_alike h (seen_first hi) rfl
  | tf dst src => exact hR.setReg_alike h (seen_first hi) (hR.reg h (seen_second hi))
  | ldm r a | ldbm r a | ldwm r a | lddm r a => exact hR.loadMem_alike h _ a (seen_first hi)
  | st r a => exact hR.memWrite_alike h _ rfl (hR.reg h (seen_first hi))
  | stb r a | stw r a | std r a => exact hR.memWrite_alike h _ rfl (congrArg _ (hR.reg h (seen_first hi)))
  | addi r imm | subi r imm | muli r imm | divi r imm | modi r imm | mulis r imm | divis r imm =>
    simp only [exec]
    exact hR.arith_alike h _ (seen_first hi) rfl
  | add dst src | sub dst src | mul dst src | div dst src | mod dst src | muls dst src | divs dst src =>
    simp only [exec]
    exact hR.arith_alike h _ (seen_first hi) (hR.reg h (seen_second hi))
  | andi r imm | ori r imm | xori r imm => exact hR.logic_alike h (seen_first hi) (by rw [hR.reg h (seen_first hi)])
  | noti r imm => exact hR.logic_alike h (seen_first hi) rfl
  | and dst src | or dst src | xor dst src =>
    exact hR.logic_alike h (seen_first hi) (by rw [hR.reg h (seen_first hi), hR.reg h (seen_second hi)])
  | not dst src => exact hR.logic_alike h (seen_first hi) (by rw [hR.reg h (seen_second hi)])
  | shli r imm | shri r imm | rori r imm | roli r imm => exact hR.shift_alike h _ (seen_first hi) rfl
  | shl dst src | shr dst src | ror dst src | rol dst src =>
    exact hR.shift_alike h _ (seen_first hi) (hR.reg h (seen_second hi))
  | cmp dst src => exact hR.compareWords_alike h (hR.reg h (seen_first hi)) (hR.reg h (seen_second hi))
  | cmpi r imm => exact hR.compareWords_alike h (hR.reg h (seen_first hi)) rfl
  | jmp a | jeq a | jne a | jgt a | jlt a | jge a | jle a =>
    simp only [exec]
    exact hR.jump_alike h _ rfl
  | jmpr r | jeqr r | jner r | jgtr r | jltr r | jger r | jler r =>
    simp only [exec]
    exact hR.jump_alike h _ (hR.reg h (seen_first hi))
  | bra a | beq a | bne a | bgt a | blt a | bge a | ble a =>
    simp only [exec]
    exact hR.branch_alike h _ rfl
  | brar r | beqr r | bner r | bgtr r | bltr r | bger r | bler r =>
    simp only [exec]
    exact hR.branch_alike h _ (hR.reg h (seen_first hi))
  | ret => exact hR.popInto_alike h hR.ip_seen
  | push r => exact hR.push64_alike h (hR.reg h (seen_first hi))
  | pushi imm => exact hR.push64_alike h rfl
  | pop r => exact hR.popInto_alike h (seen_first hi)
  | call a => exact hR.call_alike h rfl
  | callr r => exact hR.call_alike h (hR.reg h (seen_first hi))
  | rtc => exact hR.popState_alike h
  | clc | sec => exact .next (hR.setFlags (flagUpdate_carry _) h)
  | clz | sez => exact .next (hR.setFlags (flagUpdate_zero _) h)
  | cln | sen => exact .next (hR.setFlags (flagUpdate_negative _) h)
  | clo | seo => exact .next (hR.setFlags (flagUpdate_overflow _) h)
  | cli | sei => exact .next (hR.setFlags (flagUpdate_inHandler (.inl rfl) _) h)
  | int v => exact hR.handleInterrupt_alike v h
  | rti => exact hR.returnFromInterrupt_alike h

end Operations

end Sys2Proof.Proofs

/-! What every instruction keeps and what none reads, each from a relation that the operations respect (10_state.md R29,
R32, R34). -/

namespace Sys2Proof.Proofs

open Sys2Proof Sys2Proof.Machine

/-! ### What a run keeps -/

/-- A predicate on the launch and the flags alone, which the allowed changes of the flags keep, is respected: as the
relation of a state with itself. -/
theorem respects_self {g : FlagGroup} {P : State → Prop}
    (hshape : ∀ s t, sameShape s t → t.flags = s.flags → P s → P t)
    (hflags : ∀ s F, FlagUpdate g F → P s → P (s.setFlags (F s.flags))) :
    Respects g (fun _ => True) (fun s t => t = s ∧ P s) where
  seen_of_ne _ _ := trivial
  reg := by rintro _ s q ⟨rfl, -⟩ -; rfl
  flags := by rintro _ s ⟨rfl, -⟩; exact ⟨rfl, rfl, rfl⟩
  counter := by rintro _ s ⟨rfl, -⟩; rfl
  params := by rintro _ s ⟨rfl, -⟩; rfl
  devices := by rintro _ s ⟨rfl, -⟩; rfl
  setReg := by rintro _ s q v ⟨rfl, h⟩ -; exact ⟨rfl, hshape s _ ⟨rfl, rfl⟩ rfl h⟩
  setFrameSize := by rintro _ s v ⟨rfl, h⟩; exact ⟨rfl, hshape s _ ⟨rfl, rfl⟩ rfl h⟩
  storeAt := by rintro _ s l bs ⟨rfl, h⟩; exact ⟨rfl, hshape s _ (sameShape_storeAt s l bs) rfl h⟩
  setRun := by rintro _ s x ⟨rfl, h⟩; exact ⟨rfl, hshape s _ ⟨rfl, rfl⟩ rfl h⟩
  setFlags := by rintro _ s F hF ⟨rfl, h⟩; exact ⟨rfl, hflags s F hF h⟩

/-- The launch parameters and the device sizes are kept, whatever the flags do (10_state.md R34, 20_memory.md R65). -/
theorem respects_sameShape (g : FlagGroup) (s₀ : State) :
    Respects g (fun _ => True) (fun s t => t = s ∧ sameShape s₀ s) :=
  respects_self (fun _ _ h _ h₀ => h₀.trans h) (fun _ _ _ h₀ => h₀.trans (.refl _))

/-- The flags stay in their row of the flag-writer table (10_state.md R29). -/
theorem respects_staysInRow (g : FlagGroup) (f : Flags) :
    Respects g (fun _ => True) (fun s t => t = s ∧ StaysInRow g f s.flags) :=
  respects_self (fun _ _ _ hf h => hf ▸ h) (fun s _ hF h => h.trans (hF.row s.flags))

theorem eq_of_leaves_next {s t : State} (h : leaves (.next s) t) : t = s := by
  obtain h | ⟨k, h⟩ := h <;> cases h
  rfl

theorem sameShape_of_leaves_step {s t : State} (h : leaves (step s) t) : sameShape s t := by
  have hR := fun g => respects_sameShape g s
  have hdrop : s.dropMove = s.dropMove ∧ sameShape s s.dropMove := ⟨rfl, rfl, rfl⟩
  unfold step at h
  split at h
  · split at h
    · refine EndAlike.of_leaves (((hR .untouched).fetchInstr_alike hdrop).andThen_alike ?_) h
      rintro ⟨_, u⟩ ⟨i, _⟩ ⟨rfl, hu⟩
      exact (hR (flagGroup i)).exec_alike (fun _ _ => trivial) hu
    · exact ((hR .interruptEntry).handleInterrupt_alike _ hdrop).of_leaves h
  · exact eq_of_leaves_next h ▸ .refl s
  · exact eq_of_leaves_next h ▸ .refl s

/-- Settles O14: a step fetches and executes, enters an interrupt, or leaves a stopped engine alone, and each of these
respects the launch. -/
theorem stepKeepsTheLaunch : Obligations.StepKeepsTheLaunch :=
  fun _ _ h => sameShape_of_leaves_step h

/-! ### The flag-writer table -/

theorem staysInRow_of_leaves_exec {i : Instr} {s t : State} (h : leaves (exec i s) t) :
    StaysInRow (flagGroup i) s.flags t.flags :=
  ((respects_staysInRow (flagGroup i) s.flags).exec_alike (fun _ _ => trivial) ⟨rfl, .refl _ _⟩).of_leaves h

theorem eq_of_staysInRow_untouched {f f' : Flags} (h : StaysInRow .untouched f f') : f' = f := by
  obtain ⟨hc, hz, hn, ho, hi⟩ := h
  cases f
  cases f'
  exact (Flags.mk.injEq ..).mpr ⟨hc rfl, hz rfl, hn rfl, ho rfl, hi rfl⟩

/-- Popping a frame leaves the flags alone (45_stack_call.md R245). -/
theorem flags_of_leaves_popState {s t : State} (h : leaves (popState s) t) : t.flags = s.flags :=
  eq_of_staysInRow_untouched
    (((respects_staysInRow .untouched s.flags).popState_alike ⟨rfl, .refl _ _⟩).of_leaves h)

/-- The instructions of the arithmetic row are the ones that `arith` gives its meaning (41_arithmetic.md R160). -/
theorem exec_eq_arith {i : Instr} (h : flagGroup i = .arithmetic) (s : State) :
    ∃ op r b, exec i s = arith op r b s := by
  cases i with
  | addi | subi | muli | divi | modi | mulis | divis | add | sub | mul | div | mod | muls | divs =>
    simp only [exec]
    exact ⟨_, _, _, rfl⟩
  | _ => nomatch h

/-- An arithmetic instruction that completes writes Overflow as Carry (41_arithmetic.md R160). -/
theorem overflow_eq_carry_of_arith {op : ArithOp} {r : Reg} {b : Word} {s t : State} (h : arith op r b s = .next t) :
    t.flags.o = t.flags.c := by
  cases hres : op.compute (s.reg r) b with
  | error k => exact absurd h (by rw [arith_of_error hres]; exact raise_ne_next k s t)
  | ok res =>
    rw [arith_of_ok hres] at h
    cases h
    rfl

/-- Interrupt entry sets the in-handler flag where the line is unmasked (60_exceptions.md R320). -/
theorem inHandler_of_handleInterrupt {v : Word} {s t : State} (h : handleInterrupt v s = .next t) :
    t.flags.i = (s.flags.i || (s.reg .im).getLsbD (v.toNat % 64)) := by
  obtain ⟨hmask, rfl⟩ | ⟨hmask, handler, u, -, -, rfl⟩ := handleInterrupt_eq_next.mp h
  · simp [hmask]
  · simp [hmask]

/-- Settles O15: the rows from the relation that every instruction respects, the other clauses from the meanings of
their families. -/
theorem flagWriterTable : Obligations.FlagWriterTable := by
  intro i s t h
  obtain ⟨hc, hz, hn, ho, hi⟩ := staysInRow_of_leaves_exec h
  refine ⟨hc, hz, hn, ho, hi, ?_, ?_, ?_⟩
  · intro hg ht
    obtain ⟨op, r, b, he⟩ := exec_eq_arith hg s
    exact overflow_eq_carry_of_arith (he ▸ ht)
  · rintro v rfl ht
    exact inHandler_of_handleInterrupt ht
  · rintro rfl
    exact congrArg Flags.i (flags_of_leaves_popState h)

/-! ### What no instruction reads -/

theorem hideCarryOverflow_eq_iff {f f' : Flags} :
    ({ f' with c := false, o := false } : Flags) = { f with c := false, o := false } ↔ sameTests f f' := by
  simp [sameTests]

/-- States that differ in Carry and Overflow alone show the same to every operation. -/
theorem respects_hideCarryOverflow (g : FlagGroup) :
    Respects g (fun _ => True) (fun s t => t.hideCarryOverflow = s.hideCarryOverflow) where
  seen_of_ne _ _ := trivial
  reg {_ _ q} h _ := (congrArg (State.reg · q) h :)
  flags h := hideCarryOverflow_eq_iff.mp (congrArg State.flags h)
  counter h := (congrArg State.stackFrameSize h :)
  params h := (congrArg State.params h :)
  devices h := (congrArg State.devices h :)
  setReg {_ _ q} v h _ := congrArg (State.setReg · q v) h
  setFrameSize v h := congrArg (State.setFrameSize · v) h
  storeAt l bs h := congrArg (State.storeAt · l bs) h
  setRun x h := congrArg (fun u : State => { u with run := x }) h
  setFlags {s t F} hF h := by
    have htests := hF.blind _ _ (hideCarryOverflow_eq_iff.mp (congrArg State.flags h))
    calc (t.setFlags (F t.flags)).hideCarryOverflow
      _ = t.hideCarryOverflow.setFlags { F t.flags with c := false, o := false } := rfl
      _ = s.hideCarryOverflow.setFlags { F s.flags with c := false, o := false } := by
        rw [h, hideCarryOverflow_eq_iff.mpr htests]

/-- Settles O16: hiding C and O twice is hiding them once, so the two start states are related. -/
theorem carryAndOverflowAreNeverRead : Obligations.CarryAndOverflowAreNeverRead :=
  fun i s => ((respects_hideCarryOverflow (flagGroup i)).exec_alike (s := s) (t := s.hideCarryOverflow)
    (fun _ _ => trivial) rfl).mapState_eq

/-- A state and the same state with another value in ACC or MB show the same to every operation that does not name that
register (10_state.md R32). -/
theorem respects_setReg (g : FlagGroup) {r : Reg} (hr : r ∈ [Reg.acc, Reg.mb]) (v : Word) :
    Respects g (· ≠ r) (fun s t => t = s.setReg r v) where
  seen_of_ne ha hm := by rintro rfl; simp [ha, hm] at hr
  reg := by rintro s _ q rfl hq; exact State.reg_setReg_of_ne s v hq
  flags := by rintro s _ rfl; exact ⟨rfl, rfl, rfl⟩
  counter := by rintro s _ rfl; rfl
  params := by rintro s _ rfl; rfl
  devices := by rintro s _ rfl; rfl
  setReg := by rintro s _ q w rfl hq; exact State.setReg_comm s v w (Ne.symm hq)
  setFrameSize := by rintro s _ w rfl; rfl
  storeAt := by rintro s _ l bs rfl; rfl
  setRun := by rintro s _ x rfl; rfl
  setFlags := by rintro s _ F - rfl; rfl

/-- Settles O17: the change of ACC or MB commutes with execution, interrupt entry and fetch, since each respects it. -/
theorem accAndMbHaveNoImplicitRole : Obligations.AccAndMbHaveNoImplicitRole := by
  intro r hr s v
  have hR := fun g => respects_setReg g hr v
  refine ⟨fun i hi => ?_, fun w => ?_, fun i t ht => ?_⟩
  · exact ((hR (flagGroup i)).exec_alike (fun q hq e => hi (e ▸ hq)) rfl).eq_mapState
  · exact ((hR .interruptEntry).handleInterrupt_alike w rfl).eq_mapState
  · have h := (hR .untouched).fetchInstr_alike (s := s) rfl
    rw [ht] at h
    generalize fetchInstr (s.setReg r v) = y at h
    cases h with
    | next h => exact congrArg _ (Prod.ext h.1 h.2)

end Sys2Proof.Proofs

/-! One walk over the shared operations and over every instruction for the invariant of a run: from a state that meets it
none of them is refused, and each leaves a state that meets it (20_memory.md R61 to R65). -/

namespace Sys2Proof.Proofs

open Sys2Proof Sys2Proof.Machine

/-! ### The invariant at launch -/

/-- A core launched on a well-formed map and zero-filled devices meets the invariant (20_memory.md R61, R64). -/
theorem inv_launch {p : Params} {ds : List Device} (hmap : wellFormedMap ds.length p.regions = true)
    (hzero : ∀ d ∈ ds, d.cells = []) : Inv (State.launch p ds) :=
  ⟨hmap, fun d hd => by simp [Device.wf, hzero d hd, Memory.wf, Memory.wfFrom]⟩

/-- Settles O11: the map of the common setup is well formed, and its one device lists no byte. -/
theorem resetMeetsTheInvariant : Obligations.ResetMeetsTheInvariant :=
  inv_launch (by decide) (by simp)

/-! ### Accesses under the invariant -/

/-- The region found is bound to a RAM device of the launch, so the access is not refused (20_memory.md R62). -/
theorem locate_ne_refused {s : State} (h : Inv s) (a : Word) (n : Nat) (r : Refusal) : locate s a n ≠ .refused r := by
  unfold locate
  split
  · exact nofun
  · next g hg =>
    have hdev : g.dev < s.devices.length := (region_of_wellFormedMap h.1 (findRegion_eq_some hg).1).2
    rw [List.getElem?_eq_getElem hdev]
    dsimp only
    split
    · exact nofun
    · exact nofun

theorem memReadBytes_ne_refused {s : State} (h : Inv s) (a : Word) (n : Nat) (r : Refusal) :
    memReadBytes s a n ≠ .refused r := by
  have hl := locate_ne_refused h a n
  unfold memReadBytes
  split
  · exact nofun
  · exact nofun
  · next r' hr => exact absurd hr (hl r')

theorem memRead_ne_refused {s : State} (h : Inv s) (a : Word) (n : Nat) (r : Refusal) : memRead s a n ≠ .refused r := by
  have hb := memReadBytes_ne_refused h a n
  unfold memRead
  split
  · exact nofun
  · exact nofun
  · next r' hr => exact absurd hr (hb r')

/-! ### Statements in order -/

/-- The statement is not refused: its answer meets the postcondition, or it faults and leaves a state that meets the
invariant. -/
inductive EndsWell {α : Type} (Q : α → Prop) : Result α → Prop where
  | next {a : α} (h : Q a) : EndsWell Q (.next a)
  | fault (k : FaultKind) {s : State} (h : Inv s) : EndsWell Q (.fault (.halt k s))

section Operations

variable {s : State}

theorem EndsWell.andThen {α β : Type} {Q : α → Prop} {Q' : β → Prop} {x : Result α} {f : α → Result β}
    (h : EndsWell Q x) (hf : ∀ a, Q a → EndsWell Q' (f a)) : EndsWell Q' (andThen x f) := by
  cases h with
  | next h => exact hf _ h
  | fault k h => exact .fault k h

theorem endsWell_raise {α : Type} {Q : α → Prop} (h : Inv s) (k : FaultKind) : EndsWell Q (raise k s) :=
  .fault k h

theorem endsWell_during {α β : Type} {Q : β → Prop} {x : Access α} {f : α → Result β} (h : Inv s)
    (hx : ∀ r, x ≠ .refused r) (hf : ∀ a, x = .next a → EndsWell Q (f a)) : EndsWell Q (during s x f) := by
  cases x with
  | next a => exact hf a rfl
  | fault k => exact endsWell_raise h k
  | refused r => exact absurd rfl (hx r)

/-! #### Memory and the stack -/

theorem endsWell_memWrite (h : Inv s) (a : Word) (n : Nat) (v : Word) : EndsWell Inv (memWrite a n v s) :=
  endsWell_during h (locate_ne_refused h a n) fun _ hl => .next (inv_storeAt h (by rwa [length_leBytes]))

theorem endsWell_push64 (h : Inv s) (v : Word) : EndsWell Inv (push64 v s) := by
  refine (endsWell_memWrite h _ 8 v).andThen fun s1 h1 => .next ?_
  split
  · exact h1
  · exact h1

theorem endsWell_pop64 (h : Inv s) : EndsWell (fun p : Word × State => Inv p.2) (pop64 s) :=
  endsWell_during h (memRead_ne_refused h _ 8) fun _ _ => .next h

theorem endsWell_pushRegs (h : Inv s) (rs : List Reg) : EndsWell Inv (pushRegs rs s) := by
  induction rs generalizing s with
  | nil => exact .next h
  | cons r rs ih => exact (endsWell_push64 h _).andThen fun _ h1 => ih h1

theorem endsWell_popRegs (h : Inv s) (rs : List Reg) : EndsWell Inv (popRegs rs s) := by
  induction rs generalizing s with
  | nil => exact .next h
  | cons r rs ih => exact (endsWell_pop64 h).andThen fun _ h1 => ih h1

theorem endsWell_discardWords (h : Inv s) (n : Nat) : EndsWell Inv (discardWords n s) := by
  induction n generalizing s with
  | zero => exact .next h
  | succ n ih => exact (endsWell_pop64 h).andThen fun _ h1 => ih h1

/-! #### Frames and interrupts -/

theorem endsWell_pushState (h : Inv s) : EndsWell Inv (pushState s) :=
  (endsWell_pushRegs h _).andThen fun _ h1 => (endsWell_push64 h1 _).andThen fun _ h2 => .next h2

theorem inv_restoreCounter (h : Inv s) (size : Word) : Inv (restoreCounter size s) := by
  unfold restoreCounter
  split
  · exact h
  · exact h

theorem endsWell_popState (h : Inv s) : EndsWell Inv (popState s) := by
  refine (endsWell_pop64 (s := s.setReg .sp (s.reg .fp)) h).andThen fun p h1 => ?_
  refine (endsWell_popRegs (inv_restoreCounter h1 p.1) _).andThen fun s2 h2 => ?_
  refine (endsWell_pop64 h2).andThen fun q h3 => ?_
  exact (endsWell_discardWords h3 _).andThen fun _ h4 => .next h4

theorem endsWell_saveInterruptFrame (h : Inv s) : EndsWell Inv (saveInterruptFrame s) := by
  unfold saveInterruptFrame
  split
  · exact .next h
  · exact (endsWell_push64 h 0).andThen fun _ h1 => endsWell_pushState h1

theorem endsWell_handleInterrupt (h : Inv s) (v : Word) : EndsWell Inv (handleInterrupt v s) := by
  simp only [handleInterrupt]
  split
  · exact endsWell_during h (memRead_ne_refused h _ 8) fun _ _ =>
      (endsWell_saveInterruptFrame h).andThen fun _ h1 => .next h1
  · exact .next h

/-! #### Fetch -/

theorem endsWell_fetchBytes (h : Inv s) (n : Nat) :
    EndsWell (fun p : List Byte × State => Inv p.2) (fetchBytes n s) :=
  endsWell_during h (memReadBytes_ne_refused h _ n) fun _ _ => .next h

theorem endsWell_fetchFields (h : Inv s) (ns : List Nat) :
    EndsWell (fun p : List Byte × State => Inv p.2) (fetchFields ns s) := by
  induction ns generalizing s with
  | nil => exact .next h
  | cons n ns ih =>
    exact (endsWell_fetchBytes h n).andThen fun _ h1 => (ih h1).andThen fun _ h2 => .next h2

theorem endsWell_decodeFetched (h : Inv s) (m : OpcodeMap) (op : BitVec 16) (bs : List Byte) :
    EndsWell (fun p : Instr × State => Inv p.2) (decodeFetched m op bs s) := by
  unfold decodeFetched
  cases decode m bs with
  | ok p => exact .next h
  | error e => exact endsWell_raise h _

theorem endsWell_fetchInstr (h : Inv s) : EndsWell (fun p : Instr × State => Inv p.2) (fetchInstr s) := by
  refine (endsWell_fetchBytes h 2).andThen fun p h1 => ?_
  cases layoutOf s.params.opcodeMap (fetchedOpcode p.1) with
  | none => exact endsWell_raise h1 _
  | some l => exact (endsWell_fetchFields h1 l.fields).andThen fun _ h2 => endsWell_decodeFetched h2 _ _ _

/-! #### The families of instructions -/

theorem endsWell_loadMem (h : Inv s) (n : Nat) (r : Reg) (a : Word) : EndsWell Inv (loadMem n r a s) :=
  endsWell_during h (memRead_ne_refused h a n) fun _ _ => .next h

theorem endsWell_arith (h : Inv s) (op : ArithOp) (r : Reg) (b : Word) : EndsWell Inv (arith op r b s) := by
  unfold arith
  cases op.compute (s.reg r) b with
  | error k => exact endsWell_raise h k
  | ok res => exact .next h

theorem endsWell_shift (h : Inv s) (op : ShiftOp) (r : Reg) (n : Word) : EndsWell Inv (shift op r n s) := by
  unfold shift
  split
  · exact .next h
  · exact endsWell_raise h _

theorem endsWell_jump (h : Inv s) (c : Cond) (a : Word) : EndsWell Inv (jump c a s) := by
  rw [jump_eq]
  exact .next h

theorem endsWell_branch (h : Inv s) (c : Cond) (a : Word) : EndsWell Inv (branch c a s) := by
  unfold branch
  split
  · exact (endsWell_push64 h _).andThen fun _ h1 => .next h1
  · exact .next h

theorem endsWell_popInto (h : Inv s) (r : Reg) : EndsWell Inv (execPop r s) :=
  (endsWell_pop64 h).andThen fun _ h1 => .next h1

theorem endsWell_call (h : Inv s) (a : Word) : EndsWell Inv (call a s) :=
  (endsWell_pushState h).andThen fun _ h1 => .next h1

/-! #### Every instruction and every step -/

/-- No instruction is refused, and none leaves the invariant: registers, flags and the run state do not enter it, and a
store lands inside its device. -/
theorem endsWell_exec (h : Inv s) (i : Instr) : EndsWell Inv (exec i s) := by
  cases i with
  | nop | hlt => exact .next h
  | ldi | ldbi | ldwi | lddi | tf => exact .next h
  | andi | ori | xori | noti | and | or | xor | not => exact .next h
  | cmp | cmpi => exact .next h
  | clc | sec | clz | sez | cln | sen | clo | seo | cli | sei => exact .next h
  | ldm | ldbm | ldwm | lddm => exact endsWell_loadMem h _ _ _
  | st | stb | stw | std => exact endsWell_memWrite h _ _ _
  | addi | subi | muli | divi | modi | mulis | divis | add | sub | mul | div | mod | muls | divs =>
    simp only [exec]
    exact endsWell_arith h _ _ _
  | shli | shri | rori | roli | shl | shr | ror | rol => exact endsWell_shift h _ _ _
  | jmp | jeq | jne | jgt | jlt | jge | jle | jmpr | jeqr | jner | jgtr | jltr | jger | jler =>
    simp only [exec]
    exact endsWell_jump h _ _
  | bra | beq | bne | bgt | blt | bge | ble | brar | beqr | bner | bgtr | bltr | bger | bler =>
    simp only [exec]
    exact endsWell_branch h _ _
  | push | pushi => exact endsWell_push64 h _
  | pop | ret => exact endsWell_popInto h _
  | call | callr => exact endsWell_call h _
  | rtc => exact endsWell_popState h
  | int => exact endsWell_handleInterrupt h _
  | rti => exact endsWell_popState (s := s.setInHandler false) h

theorem endsWell_step (h : Inv s) : EndsWell Inv (step s) := by
  have hdrop : Inv s.dropMove := h
  unfold step
  split
  · split
    · exact (endsWell_fetchInstr hdrop).andThen fun p h1 => endsWell_exec h1 p.1
    · exact endsWell_handleInterrupt hdrop _
  · exact .next h
  · exact .next h

end Operations

theorem EndsWell.inv_of_leaves {x : Result State} {t : State} (h : EndsWell Inv x) (ht : leaves x t) : Inv t := by
  obtain rfl | ⟨k, rfl⟩ := ht
  · cases h with
    | next h => exact h
  · cases h with
    | fault _ h => exact h

/-- Settles O12: a step ends well, in a next state or in a fault. -/
theorem stepKeepsTheInvariant : Obligations.StepKeepsTheInvariant :=
  fun _ _ h ht => (endsWell_step h).inv_of_leaves ht

/-- Settles O13: a step that ends well is not refused. -/
theorem noStepIsRefused : Obligations.NoStepIsRefused := by
  intro s r h hr
  have hend := endsWell_step h
  rw [hr] at hend
  cases hend

end Sys2Proof.Proofs

/-! The bus: where an access lands, what the memory primitives answer, and mapping regions (20_memory.md). -/

namespace Sys2Proof.Proofs

open Sys2Proof Sys2Proof.Machine

/-! ### Where an access lands -/

/-- Once its region and its device are known, an access is decided by the bound of the device alone (20_memory.md R61,
R68). -/
theorem locate_of_findRegion {s : State} {g : Region} {d : Device} {a : Word}
    (hg : findRegion s.params.regions a = some g) (hd : s.devices[g.dev]? = some d) (n : Nat) :
    locate s a n =
      if d.size < (Region.effective g a).toNat + n then .fault (.outOfBounds a n)
      else .next { dev := g.dev, off := (Region.effective g a).toNat } := by
  simp only [locate, hg, hd]

theorem locate_of_findRegion_eq_none {s : State} {a : Word} (h : findRegion s.params.regions a = none) (n : Nat) :
    locate s a n = .fault (.unmappedAddress a) := by
  simp only [locate, h]

theorem memReadBytes_of_locate {s : State} {a : Word} {n : Nat} {l : Loc} (h : locate s a n = .next l) :
    memReadBytes s a n = .next (s.loadAt l n) :=
  memReadBytes_eq_next.mpr ⟨l, h, rfl⟩

theorem memRead_of_locate {s : State} {a : Word} {n : Nat} {l : Loc} (h : locate s a n = .next l) :
    memRead s a n = .next (leWord (s.loadAt l n)) :=
  memRead_eq_next.mpr ⟨l, h, rfl⟩

theorem memWrite_of_locate {s : State} {a : Word} {n : Nat} {l : Loc} (h : locate s a n = .next l) (v : Word) :
    memWrite a n v s = .next (s.storeAt l (leBytes n v.toNat)) :=
  memWrite_eq_next.mpr ⟨l, h, rfl⟩

theorem memReadBytes_faults {s : State} {a : Word} {n : Nat} {k : FaultKind} (h : locate s a n = .fault k) :
    memReadBytes s a n = .fault k := by
  simp only [memReadBytes, h]

theorem memRead_faults {s : State} {a : Word} {n : Nat} {k : FaultKind} (h : locate s a n = .fault k) :
    memRead s a n = .fault k := by
  simp only [memRead, memReadBytes_faults h]

theorem memWrite_faults {s : State} {a : Word} {n : Nat} {k : FaultKind} (h : locate s a n = .fault k) (v : Word) :
    memWrite a n v s = raise k s := by
  simp only [memWrite, h, during_fault]

/-- Settles O18: the bound of the device decides, and it is met with equality by an access that ends with the last
byte. -/
theorem deviceBoundIsExact : Obligations.DeviceBoundIsExact := by
  intro s g d a n _ hg hd
  have hl := locate_of_findRegion hg hd n
  constructor
  · intro hlast
    rw [if_neg (by omega)] at hl
    exact ⟨⟨_, memRead_of_locate hl⟩, fun v => ⟨_, memWrite_of_locate hl v⟩⟩
  · intro hpast
    rw [if_pos hpast] at hl
    exact ⟨memRead_faults hl, fun v => memWrite_faults hl v⟩

/-! ### The region that serves an access -/

theorem covers_iff {g : Region} {a : Word} :
    g.covers a = true ↔ g.first.toNat ≤ a.toNat ∧ a.toNat ≤ g.last.toNat :=
  decide_eq_true_iff

/-- Settles O19: in a well-formed map at most one region contains an address, and without one the lookup fails. -/
theorem containingRegionServesTheAccess : Obligations.ContainingRegionServesTheAccess := by
  intro s a hmap
  refine ⟨fun g hg hfirst hlast => findRegion_of_wellFormedMap hmap hg (covers_iff.mpr ⟨hfirst, hlast⟩), ?_⟩
  intro hnone
  have hfind : findRegion s.params.regions a = none :=
    List.find?_eq_none.mpr fun g hg hc => hnone g hg (covers_iff.mp hc)
  have hl := locate_of_findRegion_eq_none hfind
  exact ⟨hfind, fun n v => ⟨memRead_faults (hl n), memWrite_faults (hl n) v⟩⟩

/-- An offset inside a region does not wrap past the end of the address space. -/
theorem toNat_first_add {g : Region} {k : Nat} (hg : g.first.toNat ≤ g.last.toNat)
    (hk : k ≤ g.last.toNat - g.first.toNat) : (g.first + BitVec.ofNat 64 k).toNat = g.first.toNat + k := by
  have hlast := g.last.isLt
  rw [BitVec.toNat_add, BitVec.toNat_ofNat]
  omega

/-- Inside a region the effective address goes up with the address, unless that wraps (20_memory.md R67). -/
theorem effective_add {g : Region} {a : Word} {j : Nat} (hg : g.first.toNat ≤ a.toNat) (hj : a.toNat + j < 2 ^ 64) :
    (Region.effective g (a + BitVec.ofNat 64 j)).toNat = (Region.effective g a).toNat + j := by
  unfold Region.effective
  split
  · simp only [BitVec.toNat_sub, BitVec.toNat_add, BitVec.toNat_ofNat]
    omega
  · rw [BitVec.toNat_add, BitVec.toNat_ofNat]
    omega

/-- Settles O21: the region serves the access, whose effective address is the offset. -/
theorem rebasedAccessIsDeviceAccess : Obligations.RebasedAccessIsDeviceAccess := by
  intro s g d k n hmap hg hrebase hd hk
  have hordered := (region_of_wellFormedMap hmap hg).1
  have haddr := toNat_first_add hordered hk
  have hfind : findRegion s.params.regions (g.first + BitVec.ofNat 64 k) = some g :=
    findRegion_of_wellFormedMap hmap hg (covers_iff.mpr (by omega))
  have heff : (Region.effective g (g.first + BitVec.ofNat 64 k)).toNat = k := by
    have hlast := g.last.isLt
    rw [effective_add (Nat.le_refl _) (by omega), Region.effective, if_pos hrebase, BitVec.sub_self]
    exact Nat.zero_add k
  have hl := locate_of_findRegion hfind hd n
  rw [heff] at hl
  refine ⟨?_, fun v hle => memWrite_of_locate (by rw [hl, if_neg (by omega)]) v⟩
  split
  · next hle =>
    rw [memReadBytes_of_locate (by rw [hl, if_neg (by omega)]), State.loadAt, hd]
  · next hgt =>
    exact memReadBytes_faults (by rw [hl, if_pos (by omega)])

/-! ### The value of the bytes -/

/-- Bytes are the bytes of their number (20_memory.md R72). -/
theorem leBytes_leNat (bs : List Byte) : leBytes bs.length (leNat bs) = bs := by
  induction bs with
  | nil => rfl
  | cons b bs ih =>
    have hb := b.isLt
    have hhead : BitVec.ofNat 8 (b.toNat + 256 * leNat bs) = b := by
      apply BitVec.eq_of_toNat_eq
      rw [BitVec.toNat_ofNat]
      omega
    have htail : (b.toNat + 256 * leNat bs) / 256 = leNat bs := by omega
    rw [List.length_cons, leNat, leBytes, hhead, htail, ih]

/-- Bytes that fit in a word are not cut. -/
theorem toNat_leWord {bs : List Byte} (h : bs.length ≤ 8) : (leWord bs).toNat = leNat bs := by
  have hle : (256 : Nat) ^ bs.length ≤ 256 ^ 8 := Nat.pow_le_pow_right (by decide) h
  exact (BitVec.toNat_ofNat ..).trans (Nat.mod_eq_of_lt ((leNat_lt bs).trans_le hle))

/-- The value of bytes is zero-extended (20_memory.md R70). -/
theorem toNat_leWord_lt {bs : List Byte} (h : bs.length ≤ 8) : (leWord bs).toNat < 2 ^ (8 * bs.length) := by
  rw [toNat_leWord h, Nat.pow_mul]
  exact leNat_lt bs

/-- Byte `j` of the value is byte `j` (20_memory.md R72). -/
theorem extractLsb'_leWord {bs : List Byte} (h : bs.length ≤ 8) {j : Nat} (hj : j < bs.length) :
    (leWord bs).extractLsb' (8 * j) 8 = bs[j] := by
  calc (leWord bs).extractLsb' (8 * j) 8
    _ = BitVec.ofNat 8 (leNat bs / 256 ^ j) := by rw [← ofNat_div_pow, toNat_leWord h]
    _ = (leBytes bs.length (leNat bs))[j]'(by simpa) := (getElem_leBytes ..).symm
    _ = bs[j] := by simp only [leBytes_leNat]

theorem width_le_eight {n : Nat} (hn : n ∈ [1, 2, 4, 8]) : n ≤ 8 := by
  simp only [List.mem_cons, List.not_mem_nil, or_false] at hn
  omega

/-- Settles O20: where the access lands, the loaded bytes make the value and the value's low bytes are stored; else both
primitives pass its fault on. -/
theorem memReadAndMemWrite : Obligations.MemReadAndMemWrite := by
  intro s a n hn
  constructor
  · intro l hl
    have hdev := dev_lt_of_locate hl
    have hread : memRead s a n = .next (leWord (bytesAt s l n)) := by
      rw [memRead_of_locate hl, loadAt_eq_bytesAt hdev]
    have hlen : (bytesAt s l n).length = n := by simp [bytesAt]
    have hfit : (bytesAt s l n).length ≤ 8 := hlen.trans_le (width_le_eight hn)
    refine ⟨⟨_, hread, ?_, fun j hj => ?_⟩, fun v => ⟨_, memWrite_of_locate hl v, ?_⟩⟩
    · simpa only [hlen] using toNat_leWord_lt hfit
    · rw [extractLsb'_leWord hfit (by omega)]
      simp [bytesAt]
    · have hframe := storeAt_frame s l (leBytes n v.toNat)
      rw [length_leBytes] at hframe
      exact ⟨fun j hj => byteAt_storeAt_leBytes v hdev hj, hframe⟩
  · intro k hk
    exact ⟨locate_eq_fault hk, memRead_faults hk, fun v => memWrite_faults hk v⟩

/-! ### A read inside a write -/

/-- Part of an access in the same region lands where that part of the access does. -/
theorem locate_add {s : State} {a : Word} {n m j : Nat} {l : Loc} (hjm : j + m ≤ n) (hj : a.toNat + j < 2 ^ 64)
    (hsame : findRegion s.params.regions (a + BitVec.ofNat 64 j) = findRegion s.params.regions a)
    (hl : locate s a n = .next l) :
    locate s (a + BitVec.ofNat 64 j) m = .next { dev := l.dev, off := l.off + j } := by
  obtain ⟨g, d, hg, hd, hle, rfl⟩ := locate_eq_next.mp hl
  have heff := effective_add (findRegion_eq_some hg).2.1 hj
  exact locate_eq_next.mpr ⟨g, d, hsame.trans hg, hd, by omega, by rw [heff]⟩

/-- Bytes `j` to `j + m - 1` of a word, as a value (20_memory.md R73). -/
theorem leWord_leBytes_div (v : Word) (j : Nat) {m : Nat} (hm : m ≤ 8) :
    leWord (leBytes m (v.toNat / 256 ^ j)) = (v.extractLsb' (8 * j) (8 * m)).setWidth 64 := by
  apply BitVec.eq_of_toNat_eq
  rw [toNat_leWord (by simpa), leNat_leBytes, BitVec.toNat_setWidth, BitVec.extractLsb'_toNat,
    Nat.shiftRight_eq_div_pow, Nat.pow_mul, Nat.pow_mul]
  have hlt : v.toNat / 256 ^ j % 256 ^ m < 2 ^ 64 :=
    calc v.toNat / 256 ^ j % 256 ^ m
      _ < 256 ^ m := Nat.mod_lt _ (by positivity)
      _ ≤ 256 ^ 8 := Nat.pow_le_pow_right (by decide) hm
  exact (Nat.mod_eq_of_lt hlt).symm

/-- Settles O22: the read lands inside the stored bytes, and loads those of them that it covers. -/
theorem narrowReadInsideWideWrite : Obligations.NarrowReadInsideWideWrite := by
  intro s t a v n m j l hn hm hjm hj hsame hl hw
  rw [memWrite_of_locate hl v] at hw
  cases hw
  have hread : locate (s.storeAt l (leBytes n v.toNat)) (a + BitVec.ofNat 64 j) m =
      .next { dev := l.dev, off := l.off + j } := by
    rw [locate_congr (sameShape_storeAt ..), locate_add hjm hj hsame hl]
  have hbytes : ((leBytes n v.toNat).drop j).take m = leBytes m (v.toNat / 256 ^ j) := by
    obtain ⟨r, rfl⟩ := Nat.exists_eq_add_of_le hjm
    rw [Nat.add_assoc, drop_leBytes, take_leBytes]
  constructor
  · rw [memRead_of_locate hread, loadAt_storeAt _ _ _ _ _ (dev_lt_of_locate hl) (by simpa), hbytes,
      leWord_leBytes_div v j (width_le_eight hm)]
  · simpa using sameMemoryOutside_storeAt s l (leBytes n v.toNat)

/-! ### Mapping -/

/-- A new range overlaps a mapped one exactly if they share an address (20_memory.md R64). -/
theorem any_overlaps_iff_shared {n : Nat} {gs : List Region} {g : Region} (hmap : wellFormedMap n gs = true)
    (hg : g.first.toNat ≤ g.last.toNat) :
    gs.any (fun h => g.overlaps h) = true ↔ ∃ h ∈ gs, ∃ a : Word, g.covers a = true ∧ h.covers a = true := by
  rw [List.any_eq_true]
  exact exists_congr fun h => and_congr_right fun hh =>
    overlaps_iff_shared hg (region_of_wellFormedMap hmap hh).1

theorem ordered_iff {g : Region} : g.ordered = true ↔ g.first.toNat ≤ g.last.toNat :=
  decide_eq_true_iff

section Mapping

variable {b : Bus} {g : Region}

theorem map_of_reversed (h : g.first.toNat > g.last.toNat) : b.map g = .fault .invalidRange := by
  have hord : g.ordered = false := decide_eq_false (by omega)
  simp [Bus.map, hord]

theorem map_of_shared (hmap : wellFormedMap b.devices.length b.regions = true) (hg : g.first.toNat ≤ g.last.toNat)
    (h : ∃ h ∈ b.regions, ∃ a : Word, g.covers a = true ∧ h.covers a = true) :
    b.map g = .fault .overlappingRegion := by
  have hany := (any_overlaps_iff_shared hmap hg).mpr h
  simp only [Bus.map, ordered_iff.mpr hg, hany, Bool.not_true, Bool.false_eq_true, if_false, if_true]

theorem map_of_disjoint (hmap : wellFormedMap b.devices.length b.regions = true) (hdev : g.dev < b.devices.length)
    (hg : g.first.toNat ≤ g.last.toNat)
    (h : ∀ h ∈ b.regions, ∀ a : Word, ¬(g.covers a = true ∧ h.covers a = true)) :
    b.map g = .next { b with regions := g :: b.regions } := by
  have hany : b.regions.any (fun h => g.overlaps h) = false := by
    rw [← Bool.not_eq_true, any_overlaps_iff_shared hmap hg]
    rintro ⟨k, hk, a, ha⟩
    exact h k hk a ha
  have hbound : g.boundToRam b.devices.length = true := decide_eq_true hdev
  simp only [Bus.map, ordered_iff.mpr hg, hany, hbound, Bool.not_true, Bool.false_eq_true, if_false]

/-- A mapping that succeeds keeps the map well formed: what it checks is what the new region adds (20_memory.md R64). -/
theorem wellFormedMap_of_map {b' : Bus} (hmap : wellFormedMap b.devices.length b.regions = true)
    (h : b.map g = .next b') : wellFormedMap b'.devices.length b'.regions = true := by
  unfold Bus.map at h
  split at h
  · cases h
  · next hord =>
    split at h
    · cases h
    · next hany =>
      split at h
      · cases h
      · next hbound =>
        cases h
        simp only [Bool.not_eq_true', Bool.not_eq_false] at hord hbound
        have hdisjoint : b.regions.all (fun h => !g.overlaps h) = true := by simpa using hany
        simp only [wellFormedMap, hord, hbound, hdisjoint, hmap, Bool.and_self]

end Mapping

/-- Settles O23: the three branches of the mapping, with "overlap" read as a shared address. -/
theorem mapChecksRangeThenOverlap : Obligations.MapChecksRangeThenOverlap :=
  fun _ _ hmap hdev => ⟨map_of_reversed, fun hg => ⟨map_of_shared hmap hg, map_of_disjoint hmap hdev hg⟩⟩

/-- Settles O24: the first region is mapped on the empty bus; the second is refused or keeps the map well formed, and in
a well-formed map each region serves its own addresses. -/
theorem disjointRegionsAreBothAddressable : Obligations.DisjointRegionsAreBothAddressable := by
  intro b g h hempty hgdev hhdev hg hh
  have hmap : wellFormedMap b.devices.length b.regions = true := by rw [hempty]; rfl
  have hfirst := map_of_disjoint hmap hgdev hg (by simp [hempty])
  have hmap1 := wellFormedMap_of_map hmap hfirst
  refine ⟨_, hfirst, fun ⟨a, hga, hha⟩ => ?_, fun hdisjoint => ?_⟩
  · exact map_of_shared hmap1 hh ⟨g, .head _, a, hha, hga⟩
  · have hsecond := map_of_disjoint hmap1 hhdev hh (by
      simp only [hempty, List.forall_mem_singleton]
      exact fun a ha => hdisjoint a ha.symm)
    have hmap2 := wellFormedMap_of_map hmap1 hsecond
    exact ⟨_, hsecond, fun a => ⟨findRegion_of_wellFormedMap hmap2 (.tail _ (.head _)),
      findRegion_of_wellFormedMap hmap2 (.head _)⟩⟩

end Sys2Proof.Proofs

/-! The encoding: what a format reads and what an instruction is written as are one relation; the step fetches what the
decoder reads (30_encoding.md). -/

namespace Sys2Proof.Proofs

open Sys2Proof Sys2Proof.Machine

/-! ### What a format builds -/

/-- A format builds an instruction from operands, and these are the operands' bytes, with the selector of each register
below 14 (30_encoding.md R103 to R106). The encoder writes by it, and what the decoder reads is built by it. -/
inductive Builds : Layout → Instr → List Byte → Prop where
  | f0 (i : Instr) : Builds (.f0 i) i []
  | fr (build : Reg → Instr) (r : Reg) : Builds (.fr build) (build r) [selectorOf r]
  | frr (build : Reg → Reg → Instr) (d t : Reg) : Builds (.frr build) (build d t) [selectorOf d, selectorOf t]
  | fri8 (build : Reg → BitVec 8 → Instr) (r : Reg) (v : BitVec 8) :
    Builds (.fri8 build) (build r v) (selectorOf r :: leBytes 1 v.toNat)
  | fri16 (build : Reg → BitVec 16 → Instr) (r : Reg) (v : BitVec 16) :
    Builds (.fri16 build) (build r v) (selectorOf r :: leBytes 2 v.toNat)
  | fri32 (build : Reg → BitVec 32 → Instr) (r : Reg) (v : BitVec 32) :
    Builds (.fri32 build) (build r v) (selectorOf r :: leBytes 4 v.toNat)
  | fri64 (build : Reg → Word → Instr) (r : Reg) (v : Word) :
    Builds (.fri64 build) (build r v) (selectorOf r :: leBytes 8 v.toNat)
  | fra (build : Reg → Word → Instr) (r : Reg) (a : Word) :
    Builds (.fra build) (build r a) (selectorOf r :: leBytes 8 a.toNat)
  | fa (build : Word → Instr) (a : Word) : Builds (.fa build) (build a) (leBytes 8 a.toNat)
  | fi64 (build : Word → Instr) (v : Word) : Builds (.fi64 build) (build v) (leBytes 8 v.toNat)

/-- Each instruction is written in the format of its mnemonic (30_encoding.md R105, R110). -/
theorem builds_operandBytes (i : Instr) : Builds i.mnemonic.layout i (operandBytes i) := by
  cases i <;> constructor

/-- The format of a mnemonic builds instructions of that mnemonic alone (30_encoding.md R110). -/
theorem Builds.mnemonic_eq {n : Mnemonic} {i : Instr} {bs : List Byte} (h : Builds n.layout i bs) : i.mnemonic = n := by
  cases n <;> (cases h; rfl)

theorem Builds.length_eq {l : Layout} {i : Instr} {bs : List Byte} (h : Builds l i bs) : bs.length = l.fields.sum := by
  cases h <;> rfl

/-! ### The operands of a format, read back -/

@[simp] theorem takeReg_selectorOf (r : Reg) (rest : List Byte) : takeReg (selectorOf r :: rest) = .ok (r, rest) := by
  rw [takeReg, regOfSelector_selectorOf]

/-- An immediate as wide as its field is kept by writing and reading it (30_encoding.md R105, 20_memory.md R72). -/
theorem takeLe_leBytes_toNat {w n : Nat} (hw : w = 8 * n) (v : BitVec w) (rest : List Byte) :
    takeLe n (leBytes n v.toNat ++ rest) = .ok (v.toNat, rest) := by
  have hv : v.toNat < 256 ^ n := by simpa [hw, Nat.pow_mul] using v.isLt
  rw [takeLe_leBytes, Nat.mod_eq_of_lt hv]

/-- A format reads back the operands from their bytes, whatever follows these (30_encoding.md R105). -/
theorem Builds.read_append {l : Layout} {i : Instr} {bs : List Byte} (h : Builds l i bs) (rest : List Byte) :
    l.read (bs ++ rest) = .ok (i, rest) := by
  cases h with
  | f0 i => rfl
  | fr build r | frr build d t => simp [Layout.read, bind, Except.bind]
  | fri8 build r v | fri16 build r v | fri32 build r v | fri64 build r v | fra build r v | fa build v | fi64 build v =>
    simp [Layout.read, bind, Except.bind, takeLe_leBytes_toNat, -takeLe_leBytes]

/-- Settles O1: the operand bytes are the ones from which the mnemonic's format builds the instruction, so the format
reads it back from them. -/
theorem decodeInvertsEncode : Obligations.DecodeInvertsEncode := by
  intro m i rest hm
  obtain ⟨op, hop⟩ := opcodeFor_completes hm i.mnemonic
  have henc : encode m i = some (op16 op ++ operandBytes i) := by rw [encode, hop, Option.map_some]
  refine ⟨_, henc, ?_⟩
  rw [decode_of_encode hm henc]
  exact (builds_operandBytes i).read_append rest

/-! ### What a format reads is what it builds -/

theorem except_bind_eq_ok {ε α β : Type} {x : Except ε α} {f : α → Except ε β} {b : β} :
    (x >>= f) = .ok b ↔ ∃ a, x = .ok a ∧ f a = .ok b := by
  cases x <;> simp [bind, Except.bind]

/-- What a format reads is built by it from some operands: those whose selectors and immediates it has read. -/
theorem builds_of_read {l : Layout} {bs rest : List Byte} {i : Instr} (h : l.read bs = .ok (i, rest)) :
    ∃ ops, Builds l i ops := by
  cases l with
  | f0 i =>
    cases h
    exact ⟨_, .f0 i⟩
  | fr build =>
    obtain ⟨⟨r, cs⟩, -, h⟩ := except_bind_eq_ok.mp h
    cases h
    exact ⟨_, .fr build r⟩
  | frr build =>
    obtain ⟨⟨d, cs⟩, -, h⟩ := except_bind_eq_ok.mp h
    obtain ⟨⟨t, ds⟩, -, h⟩ := except_bind_eq_ok.mp h
    cases h
    exact ⟨_, .frr build d t⟩
  | fri8 build | fri16 build | fri32 build | fri64 build | fra build =>
    obtain ⟨⟨r, cs⟩, -, h⟩ := except_bind_eq_ok.mp h
    obtain ⟨⟨v, ds⟩, -, h⟩ := except_bind_eq_ok.mp h
    cases h
    exact ⟨_, by constructor⟩
  | fa build | fi64 build =>
    obtain ⟨⟨v, cs⟩, -, h⟩ := except_bind_eq_ok.mp h
    cases h
    exact ⟨_, by constructor⟩

/-! ### The opcode of an instruction -/

/-- In a well-formed opcode map the opcode of a mnemonic is that of its row (30_encoding.md R110). -/
theorem opcodeFor_of_mem {m : OpcodeMap} (h : m.wf = true) {op : Nat} {n : Mnemonic} (hr : (op, n) ∈ m) :
    opcodeFor m n = some op := by
  obtain ⟨op', hop'⟩ := opcodeFor_completes h n
  simp only [OpcodeMap.wf, Bool.and_eq_true, decide_eq_true_eq] at h
  obtain ⟨⟨-, hmnemonics⟩, -⟩ := h
  cases List.inj_on_of_nodup_map hmnemonics (mem_of_opcodeFor hop') hr rfl
  exact hop'

/-- The two bytes of the opcode that two bytes make are these (30_encoding.md R105). -/
theorem op16_opcodeOfBytes (lo hi : Byte) : op16 (opcodeOfBytes lo hi).toNat = [lo, hi] := by
  have hlt : leNat [lo, hi] < 2 ^ 16 := by simpa using leNat_lt [lo, hi]
  have hfit : (opcodeOfBytes lo hi).toNat = leNat [lo, hi] := (BitVec.toNat_ofNat ..).trans (Nat.mod_eq_of_lt hlt)
  rw [op16, hfit]
  exact leBytes_leNat [lo, hi]

theorem layoutOf_eq_some {m : OpcodeMap} {op : BitVec 16} {l : Layout} (h : layoutOf m op = some l) :
    ∃ n : Mnemonic, (op.toNat, n) ∈ m ∧ n.layout = l := by
  obtain ⟨n, hn, rfl⟩ := Option.map_eq_some_iff.mp h
  exact ⟨n, mem_of_lookup hn, rfl⟩

/-- Settles O4: enough bytes are read, and the instruction read has the mnemonic of the opcode's row, so it is written
with the same opcode in the same format. -/
theorem operandsAreNeverIllegal : Obligations.OperandsAreNeverIllegal := by
  intro m lo hi l bs hm hl hle
  obtain ⟨n, hrow, rfl⟩ := layoutOf_eq_some hl
  obtain ⟨i, hread⟩ := read_of_le hle
  obtain ⟨ops, hops⟩ := builds_of_read hread
  obtain rfl := hops.mnemonic_eq
  refine ⟨i, [lo, hi] ++ operandBytes i, ?_, ?_, ?_, rfl⟩
  · simp only [decode, hl, hread]
  · rw [encode, opcodeFor_of_mem hm hrow, Option.map_some, op16_opcodeOfBytes]
  · rw [List.length_append, (builds_operandBytes i).length_eq]
    rfl

/-- Settles O2: the spec's map looks each opcode up, and its format reads the bytes that are written out. -/
theorem writtenWordsDecode : Obligations.WrittenWordsDecode :=
  ⟨rfl, rfl, rfl, rfl, rfl, rfl, rfl⟩

/-! ### What stands at IP is what the step runs -/

/-- All that the decoder can do when it answers: two bytes of an opcode of the map, then what its format reads. -/
theorem decode_eq_ok {m : OpcodeMap} {bs : List Byte} {p : Instr × List Byte} (h : decode m bs = .ok p) :
    ∃ lo hi ops l, bs = lo :: hi :: ops ∧ layoutOf m (opcodeOfBytes lo hi) = some l ∧ l.read ops = .ok p := by
  unfold decode at h
  split at h
  · next lo hi ops =>
    split at h
    · next l hl => exact ⟨lo, hi, ops, l, rfl, hl, h⟩
    · cases h
  · cases h

theorem pos_of_mem_fields {l : Layout} {n : Nat} (h : n ∈ l.fields) : 0 < n := by
  cases l <;> simp [Layout.fields] at h <;> omega

/-- Fetching what stands at IP gives the instruction it decodes to, with IP past it (30_encoding.md R102, R104). -/
theorem fetchInstr_of_standsAtIp {s : State} {i : Instr} {bs : List Byte}
    (hdec : decode s.params.opcodeMap bs = .ok (i, [])) (hs : standsAtIp s bs) :
    fetchInstr s = .next (i, s.setReg .ip (s.reg .ip + BitVec.ofNat 64 bs.length)) := by
  obtain ⟨lo, hi, ops, l, rfl, hl, hread⟩ := decode_eq_ok hdec
  obtain ⟨hle, hnil⟩ := read_eq_ok hread
  have hall : ops.length = l.fields.sum := hle.antisymm' (List.drop_eq_nil_iff.mp hnil.symm)
  have hlen : (lo :: hi :: ops).length = 2 + l.fields.sum := by simp only [List.length_cons]; omega
  have hopcode : fetchBytes 2 s = .next ([lo, hi], s.setReg .ip (s.reg .ip + 2)) := by
    simpa using fetchBytes_of_standsAtIp hs 0 2 (by simp) (by decide)
  have hfields : fetchFields l.fields (s.setReg .ip (s.reg .ip + 2)) =
      .next (ops, s.setReg .ip (s.reg .ip + BitVec.ofNat 64 (2 + l.fields.sum))) := by
    simpa [← hall] using fetchFields_of_standsAtIp hs l.fields (fun _ => pos_of_mem_fields) 2 hlen.ge
  obtain ⟨_, hbytes, heq⟩ := fetchBytes_eq_next.mp hopcode
  cases heq
  rw [hlen]
  exact fetchInstr_eq_next.mpr ⟨[lo, hi], l, ops, [], hbytes, hl, hfields, hdec⟩

/-- Settles O6: taking the host's move leaves what the fetch reads, and the fetch gives what the bytes decode to. -/
theorem stepRunsTheDecodedInstruction : Obligations.StepRunsTheDecodedInstruction := by
  intro s i bs hrun hmove hdec hs
  have hfetch := fetchInstr_of_standsAtIp (s := s.dropMove) hdec hs
  simp only [step, hrun, hmove, stepInstruction, hfetch, andThen_next, State.dropMove_reg]

/-! ### One fetch -/

theorem length_loadAt {s : State} {l : Loc} {n : Nat} (h : l.dev < s.devices.length) : (s.loadAt l n).length = n := by
  simp [loadAt_eq_bytesAt h, bytesAt]

/-- A read of a value and a read of its bytes fail alike (20_memory.md R70). -/
theorem memReadBytes_of_memRead_eq_fault {s : State} {a : Word} {n : Nat} {k : FaultKind}
    (h : memRead s a n = .fault k) : memReadBytes s a n = .fault k := by
  unfold memRead at h
  cases hb : memReadBytes s a n <;> rw [hb] at h <;> cases h
  rfl

/-- Settles O7: the fetch reads the bytes of the value at IP, and passes the fault of that read on. -/
theorem fetchAdvancesIpUnlessItFaults : Obligations.FetchAdvancesIpUnlessItFaults := by
  intro s n _
  constructor
  · intro v hv
    obtain ⟨l, hl, rfl⟩ := memRead_eq_next.mp hv
    exact ⟨_, length_loadAt (dev_lt_of_locate hl), rfl, fetchBytes_eq_next.mpr ⟨_, memReadBytes_of_locate hl, rfl⟩⟩
  · intro k hk
    rw [fetchBytes, memReadBytes_of_memRead_eq_fault hk]
    rfl

end Sys2Proof.Proofs

/-! Loads, stores and moves: where the access lands, a load or store completes with its whole frame, and where it fails,
nothing changes but the run state (40_load_store.md). -/

namespace Sys2Proof.Proofs

open Sys2Proof Sys2Proof.Machine

/-! ### Immediate loads and TF -/

/-- Zero-extension keeps the number (40_load_store.md R141 to R143). -/
theorem zext64_eq_ofNat {w : Nat} (v : BitVec w) : zext64 v = BitVec.ofNat 64 v.toNat :=
  (BitVec.ofNat_toNat 64 v).symm

theorem onlyRegister_zext64 (s : State) (r : Reg) {w : Nat} (v : BitVec w) :
    onlyRegister r (BitVec.ofNat 64 v.toNat) s (s.setReg r (zext64 v)) := by
  rw [zext64_eq_ofNat]
  exact onlyRegister_set s r _

/-- Settles O26: each of the five writes one register, the narrow immediates zero-extended. -/
theorem immediateLoadsAndTransfer : Obligations.ImmediateLoadsAndTransfer := by
  intro s r q a b c d
  exact ⟨⟨_, rfl, onlyRegister_set s r a⟩, ⟨_, rfl, onlyRegister_zext64 s r b⟩, ⟨_, rfl, onlyRegister_zext64 s r c⟩,
    ⟨_, rfl, onlyRegister_zext64 s r d⟩, ⟨_, rfl, onlyRegister_set s r (s.reg q)⟩⟩

section Accesses

variable {i : Instr} {r : Reg} {a : Word} {n : Nat} {k : FaultKind} {s : State}

/-! ### Loads from memory -/

/-- What `loadMem` does where its access lands (40_load_store.md R144 to R147, R153). -/
theorem loadsBytes_of_exec_eq (hi : exec i s = loadMem n r a s) : loadsBytes i r a n s := by
  intro l hl
  have hload : exec i s = .next (s.setReg r (leWord (s.loadAt l n))) := hi.trans (loadMem_eq_next.mpr ⟨l, hl, rfl⟩)
  rw [loadAt_eq_bytesAt (dev_lt_of_locate hl)] at hload
  exact ⟨_, hload, onlyRegister_set s r _⟩

theorem loadMem_faults (h : locate s a n = .fault k) (r : Reg) : loadMem n r a s = raise k s := by
  simp only [loadMem, memRead_faults h, during_fault]

/-! ### Stores of the high end of a register -/

/-- Byte `j` of the field from bit `lo` to the top is the byte at bit `lo + 8 * j` of the word (90_conflicts.md C3). -/
theorem extractLsb'_bitField (v : Word) {lo j : Nat} (h : lo + 8 * j + 8 ≤ 64) :
    (bitField 63 lo v).extractLsb' (8 * j) 8 = v.extractLsb' (lo + 8 * j) 8 := by
  apply BitVec.eq_of_getLsbD_eq
  intro m hm
  have hfield : 8 * j + m < 63 - lo + 1 := by omega
  have hword : 8 * j + m < 64 := by omega
  simp [bitField, hm, hfield, hword, Nat.add_assoc]

/-- ST's field is the whole register (40_load_store.md R148). -/
theorem bitField_whole (v : Word) : bitField 63 0 v = v := by
  simp [bitField, BitVec.extractLsb]

/-- What a write of the `n` high bytes does where its access lands (40_load_store.md R148 to R151). -/
theorem storesHighBytes_of_exec_eq (hn : n ≤ 8) (hi : exec i s = memWrite a n (bitField 63 (64 - 8 * n) (s.reg r)) s) :
    storesHighBytes i r a n s := by
  intro l hl
  have hframe := storeAt_frame s l (leBytes n (bitField 63 (64 - 8 * n) (s.reg r)).toNat)
  rw [length_leBytes] at hframe
  refine ⟨_, hi.trans (memWrite_of_locate hl _), fun j hj => ?_, hframe⟩
  rw [byteAt_storeAt_leBytes _ (dev_lt_of_locate hl) hj, extractLsb'_bitField _ (by omega)]

end Accesses

/-! ### The obligations about accesses -/

/-- Settles O27: the four loads are `loadMem` at their widths. -/
theorem memoryLoadsReadLittleEndian : Obligations.MemoryLoadsReadLittleEndian := by
  intro s r a
  exact ⟨loadsBytes_of_exec_eq rfl, loadsBytes_of_exec_eq rfl, loadsBytes_of_exec_eq rfl, loadsBytes_of_exec_eq rfl⟩

/-- Settles O28: the four stores write the field of their width at the top of the register, ST's field being all of
it. -/
theorem storesTakeTheHighEnd : Obligations.StoresTakeTheHighEnd := by
  intro s r a
  have hwhole : exec (.st r a) s = memWrite a 8 (bitField 63 0 (s.reg r)) s := by
    rw [bitField_whole]
    rfl
  exact ⟨storesHighBytes_of_exec_eq (by decide) hwhole, storesHighBytes_of_exec_eq (by decide) rfl,
    storesHighBytes_of_exec_eq (by decide) rfl, storesHighBytes_of_exec_eq (by decide) rfl⟩

/-- Settles O29: a load raises the fault of its read and a store that of its write, both before any change. -/
theorem failedLoadOrStoreChangesNothing : Obligations.FailedLoadOrStoreChangesNothing := by
  intro s r a k
  exact ⟨fun h => ⟨loadMem_faults h r, memWrite_faults h _⟩, fun h => ⟨loadMem_faults h r, memWrite_faults h _⟩,
    fun h => ⟨loadMem_faults h r, memWrite_faults h _⟩, fun h => ⟨loadMem_faults h r, memWrite_faults h _⟩⟩

end Sys2Proof.Proofs

/-! Integer arithmetic: an instruction is its operation on two operand values, so each operation's result and carry are
said once, for the register and the immediate form alike (41_arithmetic.md). -/

namespace Sys2Proof.Proofs

open Sys2Proof Sys2Proof.Machine

/-! ### Results of the operations -/

section Results

variable {a b : Word}

theorem compute_mul : ArithOp.compute .mul a b = .ok (a * b) :=
  congrArg Except.ok (BitVec.eq_of_toNat_eq (by simp))

/-- The low 64 bits of the signed product are those of the unsigned one (41_arithmetic.md R166, R173). -/
theorem compute_muls : ArithOp.compute .muls a b = .ok (a * b) :=
  congrArg Except.ok (BitVec.eq_of_toInt_eq (by rw [BitVec.toInt_ofInt, BitVec.toInt_mul]))

theorem compute_div (hb : b ≠ 0) : ArithOp.compute .div a b = .ok (a / b) := by
  have hquotient : BitVec.ofNat 64 (a.toNat / b.toNat) = a / b := by
    rw [← BitVec.toNat_udiv, BitVec.ofNat_toNat, BitVec.setWidth_eq]
  simp only [ArithOp.compute, if_neg hb, hquotient]

theorem compute_mod (hb : b ≠ 0) : ArithOp.compute .mod a b = .ok (a % b) := by
  have hremainder : BitVec.ofNat 64 (a.toNat % b.toNat) = a % b := by
    rw [← BitVec.toNat_umod, BitVec.ofNat_toNat, BitVec.setWidth_eq]
  simp only [ArithOp.compute, if_neg hb, hremainder]

/-- Signed division is the library's, which rounds toward zero (41_arithmetic.md R167, R174). -/
theorem compute_divs (hb : b ≠ 0) (hab : ¬(a.toInt = -2 ^ 63 ∧ b.toInt = -1)) :
    ArithOp.compute .divs a b = .ok (a.sdiv b) := by
  have hquotient : BitVec.ofInt 64 (a.toInt.tdiv b.toInt) = a.sdiv b :=
    BitVec.eq_of_toInt_eq (by rw [BitVec.toInt_ofInt, BitVec.toInt_sdiv])
  simp only [ArithOp.compute, if_neg hb, if_neg hab, hquotient]

/-- The quotient wraps on no operands but the most negative value and -1 (41_arithmetic.md R175). -/
theorem toInt_sdiv_of_not_overflow (hab : ¬(a.toInt = -2 ^ 63 ∧ b.toInt = -1)) :
    (a.sdiv b).toInt = a.toInt.tdiv b.toInt := by
  apply BitVec.toInt_sdiv_of_ne_or_ne
  by_contra! h
  obtain ⟨rfl, rfl⟩ := h
  exact hab (by decide)

theorem compute_div_zero (a : Word) : ArithOp.compute .div a 0 = .error .divideByZero := rfl

theorem compute_mod_zero (a : Word) : ArithOp.compute .mod a 0 = .error .divideByZero := rfl

theorem compute_divs_zero (a : Word) : ArithOp.compute .divs a 0 = .error .divideByZero := rfl

theorem compute_divs_overflow :
    ArithOp.compute .divs 0x8000000000000000 0xFFFFFFFFFFFFFFFF = .error .divideOverflow := by
  decide

end Results

/-! ### The carry heuristic -/

/-- The wrapped sum is below the first operand exactly on a carry out (41_arithmetic.md R160). -/
theorem toNat_add_lt_iff_carry (a b : Word) : (a + b).toNat < a.toNat ↔ 2 ^ 64 ≤ a.toNat + b.toNat := by
  rw [BitVec.toNat_add]
  omega

/-- The wrapped difference is above the first operand exactly on a borrow (41_arithmetic.md R160). -/
theorem toNat_sub_gt_iff_borrow (a b : Word) : (a - b).toNat > a.toNat ↔ a.toNat < b.toNat := by
  rw [BitVec.toNat_sub]
  omega

/-- Quotients and remainders are not above the dividend, so that the heuristic answers no (41_arithmetic.md R164,
R165). -/
theorem carryOf_above_of_le {a res : Word} (h : res.toNat ≤ a.toNat) : carryOf .above false a res = false := by
  simpa [carryOf] using h

/-! ### Instructions -/

section Instructions

variable {i : Instr} {op : ArithOp} {r : Reg} {b res : Word} {k : FaultKind} {s : State}

/-- What an arithmetic instruction does where its operation has a result (41_arithmetic.md R160). -/
theorem computes_of_exec_eq_arith (hi : exec i s = arith op r b s) (hres : op.compute (s.reg r) b = .ok res) :
    computes i r res (arithmeticFlags (carryOf op.carryTest op.signed (s.reg r) res) res s.flags) s :=
  ⟨_, hi.trans (arith_of_ok hres), onlyRegisterAndFlags_set s r res _⟩

/-- What an arithmetic instruction does where its operation faults (41_arithmetic.md R175). -/
theorem faultsUnchanged_of_exec_eq_arith (hi : exec i s = arith op r b s) (hk : op.compute (s.reg r) b = .error k) :
    faultsUnchanged i k s :=
  hi.trans (arith_of_error hk)

/-- DIVI and DIV (41_arithmetic.md R164, R171). -/
theorem computes_div (hi : exec i s = arith .div r b s) (hb : b ≠ 0) :
    computes i r (s.reg r / b) (arithmeticFlags false (s.reg r / b) s.flags) s := by
  have hcarry : carryOf .above false (s.reg r) (s.reg r / b) = false :=
    carryOf_above_of_le (BitVec.toNat_udiv ▸ Nat.div_le_self _ _)
  exact hcarry ▸ computes_of_exec_eq_arith hi (compute_div hb)

/-- MODI and MOD (41_arithmetic.md R165, R172). -/
theorem computes_mod (hi : exec i s = arith .mod r b s) (hb : b ≠ 0) :
    computes i r (s.reg r % b) (arithmeticFlags false (s.reg r % b) s.flags) s := by
  have hcarry : carryOf .above false (s.reg r) (s.reg r % b) = false :=
    carryOf_above_of_le (BitVec.toNat_umod ▸ Nat.mod_le _ _)
  exact hcarry ▸ computes_of_exec_eq_arith hi (compute_mod hb)

/-- DIVIS and DIVS (41_arithmetic.md R167, R174). -/
theorem computes_divs (hi : exec i s = arith .divs r b s) (hb : b ≠ 0)
    (hab : ¬((s.reg r).toInt = -2 ^ 63 ∧ b.toInt = -1)) :
    ∃ res : Word, res.toInt = (s.reg r).toInt.tdiv b.toInt ∧
      computes i r res (arithmeticFlags (decide (res.toInt > (s.reg r).toInt)) res s.flags) s :=
  ⟨(s.reg r).sdiv b, toInt_sdiv_of_not_overflow hab, computes_of_exec_eq_arith hi (compute_divs hb hab)⟩

/-- An operation that faults on the divisor 0 does so in either form of its instruction (41_arithmetic.md R175). -/
theorem faultsUnchanged_of_divisor_zero (hop : ∀ a, op.compute a 0 = .error k) (hi : exec i s = arith op r b s)
    (hb : b = 0) : faultsUnchanged i k s :=
  faultsUnchanged_of_exec_eq_arith hi (hb ▸ hop _)

theorem faultsUnchanged_divs_overflow (hi : exec i s = arith .divs r b s) (ha : s.reg r = 0x8000000000000000)
    (hb : b = 0xFFFFFFFFFFFFFFFF) : faultsUnchanged i .divideOverflow s :=
  faultsUnchanged_of_exec_eq_arith hi (by rw [ha, hb]; exact compute_divs_overflow)

end Instructions

/-! ### The obligations about arithmetic -/

/-- Settles O30: sums and differences are never refused, and their heuristics are the carry and the borrow. -/
theorem addAndSubtract : Obligations.AddAndSubtract := by
  intro s r q b
  exact ⟨computes_of_exec_eq_arith (op := .add) rfl rfl, computes_of_exec_eq_arith (op := .add) rfl rfl,
    computes_of_exec_eq_arith (op := .sub) rfl rfl, computes_of_exec_eq_arith (op := .sub) rfl rfl,
    toNat_add_lt_iff_carry _ b, toNat_sub_gt_iff_borrow _ b⟩

/-- Settles O31: both variants compute the product of the words, and each compares it in its own reading. -/
theorem multiplyKeepsTheLowBits : Obligations.MultiplyKeepsTheLowBits := by
  intro s r q b
  exact ⟨computes_of_exec_eq_arith rfl compute_mul, computes_of_exec_eq_arith rfl compute_mul,
    computes_of_exec_eq_arith rfl compute_muls, computes_of_exec_eq_arith rfl compute_muls⟩

/-- Settles O32: quotient and remainder are at most the dividend, which the heuristic asks to be exceeded. -/
theorem unsignedDivisionClearsCarry : Obligations.UnsignedDivisionClearsCarry := by
  intro s r q b
  exact ⟨fun hb => ⟨computes_div rfl hb, computes_mod rfl hb⟩, fun hq => ⟨computes_div rfl hq, computes_mod rfl hq⟩⟩

/-- Settles O33: the result is the library's signed quotient, which wraps on the excluded operands only. -/
theorem signedDivisionTruncates : Obligations.SignedDivisionTruncates := by
  intro s r q b
  exact ⟨computes_divs rfl, computes_divs rfl⟩

/-- Settles O34: the operation faults on these operands, and a fault of the operation changes only the run state. -/
theorem divisionFaults : Obligations.DivisionFaults := by
  intro s r q b
  exact ⟨fun hb =>
      ⟨faultsUnchanged_of_divisor_zero compute_div_zero rfl hb,
        faultsUnchanged_of_divisor_zero compute_mod_zero rfl hb,
        faultsUnchanged_of_divisor_zero compute_divs_zero rfl hb⟩,
    fun hq =>
      ⟨faultsUnchanged_of_divisor_zero compute_div_zero rfl hq,
        faultsUnchanged_of_divisor_zero compute_mod_zero rfl hq,
        faultsUnchanged_of_divisor_zero compute_divs_zero rfl hq⟩,
    faultsUnchanged_divs_overflow rfl, faultsUnchanged_divs_overflow rfl⟩

end Sys2Proof.Proofs

/-! Bitwise instructions, shifts and rotates: an instruction is a logic result, or its kind of shift by an amount, so
the amounts that a kind allows and the word it computes are said once, for the register and the immediate form alike
(42_bitwise.md). -/

namespace Sys2Proof.Proofs

open Sys2Proof Sys2Proof.Machine

/-! ### Amounts -/

section Amounts

variable {op : ShiftOp} {n : Word}

/-- `CheckShift`: every kind wants an amount below 64, and a rotate one that is not 0 (42_bitwise.md R180). -/
theorem allows_iff : op.allows n = true ↔ n.toNat < 64 ∧ (op ∈ [.ror, .rol] → n ≠ 0) := by
  cases op with
  | shl | shr => simp [ShiftOp.allows]
  | ror | rol => simp [ShiftOp.allows, and_comm]

theorem allows_of_pos_of_lt (hpos : 1 ≤ n.toNat) (hn : n.toNat < 64) : op.allows n = true := by
  have hne : n ≠ 0 := by
    rintro rfl
    exact absurd hpos (by decide)
  exact allows_iff.mpr ⟨hn, fun _ => hne⟩

theorem allows_eq_false_of_ge (hn : 64 ≤ n.toNat) : op.allows n = false :=
  Bool.eq_false_iff.mpr fun h => Nat.not_lt.mpr hn (allows_iff.mp h).1

theorem rotate_allows_eq_false (hop : op ∈ [.ror, .rol]) (hn : n = 0 ∨ 64 ≤ n.toNat) : op.allows n = false := by
  obtain hzero | hge := hn
  · exact Bool.eq_false_iff.mpr fun h => (allows_iff.mp h).2 hop hzero
  · exact allows_eq_false_of_ge hge

end Amounts

/-! ### Results of the kinds -/

section Results

variable {a : Word} {n : Nat}

/-- The two shifts that R180 joins are the library's rotate to the left. -/
theorem compute_rol (hn : n < 64) : ShiftOp.compute .rol a n = a.rotateLeft n := by
  rw [BitVec.rotateLeft_eq_rotateLeftAux_of_lt hn, BitVec.rotateLeftAux, ← shiftLeft_eq, ← shiftRight_eq]
  rfl

/-- The two shifts that R180 joins are the library's rotate to the right. -/
theorem compute_ror (hn : n < 64) : ShiftOp.compute .ror a n = a.rotateRight n := by
  rw [BitVec.rotateRight_eq_rotateRightAux_of_lt hn, BitVec.rotateRightAux, ← shiftLeft_eq, ← shiftRight_eq]
  rfl

end Results

/-! ### Instructions -/

section Instructions

variable {i : Instr} {op : ShiftOp} {r : Reg} {n res : Word} {s : State}

/-- What a logic instruction does (42_bitwise.md R180). -/
theorem computes_of_exec_eq_logic (hi : exec i s = logic r res s) : computes i r res (resultFlags res s.flags) s :=
  ⟨_, hi.trans (logic_eq r res s), onlyRegisterAndFlags_set s r res _⟩

/-- What a shift or rotate does by an allowed amount (42_bitwise.md R180). -/
theorem computes_of_exec_eq_shift (hi : exec i s = shift op r n s) (hn : op.allows n = true)
    (hres : op.compute (s.reg r) n.toNat = res) :
    computes i r res (carriedFlags (carryOf op.carryTest false (s.reg r) res) res s.flags) s := by
  subst hres
  exact ⟨_, hi.trans (shift_of_allows hn), onlyRegisterAndFlags_set s r _ _⟩

/-- What a shift or rotate does by an amount out of range (42_bitwise.md R180). -/
theorem faultsUnchanged_of_exec_eq_shift (hi : exec i s = shift op r n s) (hn : op.allows n = false) :
    faultsUnchanged i (.undefinedShift n) s :=
  hi.trans (shift_of_not_allows hn)

/-- SHLI and SHL (42_bitwise.md R185, R193). -/
theorem computes_shl (hi : exec i s = shift .shl r n s) (hn : n.toNat < 64) :
    computes i r (s.reg r <<< n.toNat)
      (carriedFlags (decide ((s.reg r <<< n.toNat).toNat < (s.reg r).toNat)) (s.reg r <<< n.toNat) s.flags) s :=
  computes_of_exec_eq_shift hi (allows_iff.mpr ⟨hn, by simp⟩) (shiftLeft_eq _ _)

/-- SHRI and SHR: the result is never above the operand, which the heuristic asks for (42_bitwise.md R186, R194). -/
theorem computes_shr (hi : exec i s = shift .shr r n s) (hn : n.toNat < 64) :
    computes i r (s.reg r >>> n.toNat) (carriedFlags false (s.reg r >>> n.toNat) s.flags) s := by
  have hle : (s.reg r >>> n.toNat).toNat ≤ (s.reg r).toNat := by
    rw [BitVec.toNat_ushiftRight]
    exact Nat.shiftRight_le _ _
  have hcarry : carryOf .above false (s.reg r) (s.reg r >>> n.toNat) = false := carryOf_above_of_le hle
  exact hcarry ▸ computes_of_exec_eq_shift hi (allows_iff.mpr ⟨hn, by simp⟩) (shiftRight_eq _ _)

/-- RORI and ROR (42_bitwise.md R187, R195). -/
theorem computes_ror (hi : exec i s = shift .ror r n s) (hpos : 1 ≤ n.toNat) (hn : n.toNat < 64) :
    computes i r ((s.reg r).rotateRight n.toNat)
      (carriedFlags (decide (((s.reg r).rotateRight n.toNat).toNat > (s.reg r).toNat))
        ((s.reg r).rotateRight n.toNat) s.flags) s :=
  computes_of_exec_eq_shift hi (allows_of_pos_of_lt hpos hn) (compute_ror hn)

/-- ROLI and ROL (42_bitwise.md R188, R196). -/
theorem computes_rol (hi : exec i s = shift .rol r n s) (hpos : 1 ≤ n.toNat) (hn : n.toNat < 64) :
    computes i r ((s.reg r).rotateLeft n.toNat)
      (carriedFlags (decide (((s.reg r).rotateLeft n.toNat).toNat < (s.reg r).toNat))
        ((s.reg r).rotateLeft n.toNat) s.flags) s :=
  computes_of_exec_eq_shift hi (allows_of_pos_of_lt hpos hn) (compute_rol hn)

/-- Every kind faults on an amount of 64 or more (42_bitwise.md R180). -/
theorem faultsUnchanged_of_amount_ge (hi : exec i s = shift op r n s) (hn : 64 ≤ n.toNat) :
    faultsUnchanged i (.undefinedShift n) s :=
  faultsUnchanged_of_exec_eq_shift hi (allows_eq_false_of_ge hn)

/-- A rotate faults on the amount 0 too (42_bitwise.md R180). -/
theorem faultsUnchanged_rotate (hop : op ∈ [.ror, .rol]) (hi : exec i s = shift op r n s)
    (hn : n = 0 ∨ 64 ≤ n.toNat) : faultsUnchanged i (.undefinedShift n) s :=
  faultsUnchanged_of_exec_eq_shift hi (rotate_allows_eq_false hop hn)

end Instructions

/-! ### The obligations about bitwise instructions -/

/-- Settles O35: each of the eight is `logic` with its result. -/
theorem logicWritesZeroAndNegative : Obligations.LogicWritesZeroAndNegative := by
  intro s r q b
  exact ⟨computes_of_exec_eq_logic rfl, computes_of_exec_eq_logic rfl, computes_of_exec_eq_logic rfl,
    computes_of_exec_eq_logic rfl, computes_of_exec_eq_logic rfl, computes_of_exec_eq_logic rfl,
    computes_of_exec_eq_logic rfl, computes_of_exec_eq_logic rfl⟩

/-- Settles O36: shifts allow every amount below 64, and the product and quotient by 2^n are the library's shifts. -/
theorem shiftsBelow64 : Obligations.ShiftsBelow64 := by
  intro s r q n
  exact ⟨fun hn => ⟨computes_shl rfl hn, computes_shr rfl hn⟩, fun hq => ⟨computes_shl rfl hq, computes_shr rfl hq⟩⟩

/-- Settles O37: rotates allow the amounts from 1 to 63, and the two shifts joined are the library's rotates. -/
theorem rotatesFrom1To63 : Obligations.RotatesFrom1To63 := by
  intro s r q n
  exact ⟨fun hpos hn => ⟨computes_ror rfl hpos hn, computes_rol rfl hpos hn⟩,
    fun hpos hq => ⟨computes_ror rfl hpos hq, computes_rol rfl hpos hq⟩⟩

/-- Settles O38: the amount is checked before anything is written. -/
theorem shiftAmountOutOfRangeFaults : Obligations.ShiftAmountOutOfRangeFaults := by
  intro s r q n
  have hror : ShiftOp.ror ∈ [ShiftOp.ror, ShiftOp.rol] := by decide
  have hrol : ShiftOp.rol ∈ [ShiftOp.ror, ShiftOp.rol] := by decide
  exact ⟨fun hn => ⟨faultsUnchanged_of_amount_ge rfl hn, faultsUnchanged_of_amount_ge rfl hn⟩,
    fun hn => ⟨faultsUnchanged_rotate hror rfl hn, faultsUnchanged_rotate hrol rfl hn⟩,
    fun hq => ⟨faultsUnchanged_of_amount_ge rfl hq, faultsUnchanged_of_amount_ge rfl hq⟩,
    fun hq => ⟨faultsUnchanged_rotate hror rfl hq, faultsUnchanged_rotate hrol rfl hq⟩⟩

end Sys2Proof.Proofs

/-! Compare: an instruction compares its register with a second value, so what a comparison leaves behind is said once,
for the register and the immediate form alike (43_compare.md). -/

namespace Sys2Proof.Proofs

open Sys2Proof Sys2Proof.Machine

theorem onlyFlags_set (s : State) (f : Flags) : onlyFlags f s (s.setFlags f) :=
  ⟨fun _ _ => rfl, rfl, ⟨rfl, rfl, rfl, rfl, rfl⟩, fun _ _ => rfl⟩

/-- What a compare instruction does with its two values (43_compare.md R200, R201). -/
theorem onlyFlags_of_exec_eq_compareWords {i : Instr} {a b : Word} {s : State} (hi : exec i s = compareWords a b s) :
    ∃ t, exec i s = .next t ∧ onlyFlags (carriedFlags (decide ((a - b).toNat > a.toNat)) (a - b) s.flags) s t :=
  ⟨_, hi.trans (compareWords_eq a b s), onlyFlags_set s _⟩

/-- Settles O39: both forms compare two words, and the heuristic on the difference of two words is the borrow. -/
theorem compareSetsThreeFlags : Obligations.CompareSetsThreeFlags := by
  intro s r q b
  exact ⟨onlyFlags_of_exec_eq_compareWords rfl, onlyFlags_of_exec_eq_compareWords rfl, toNat_sub_gt_iff_borrow _ b⟩

end Sys2Proof.Proofs

/-! Control flow: a jump writes IP, a branch pushes it first, RET pops it; what one push and one pop leave behind is
said once, for every instruction that makes one and writes a register after it (44_control_flow.md,
45_stack_call.md R240, R241). -/

namespace Sys2Proof.Proofs

open Sys2Proof Sys2Proof.Machine

/-! ### One word pushed, one word popped -/

section OneWord

variable {s t : State} {l : Loc} {rs qs : List Reg} {r : Reg} {v : Word}

/-- Writing a register that may differ keeps the others as before. -/
theorem sameRegsBut_setReg (h : sameRegsBut rs s t) (hr : r ∈ qs) (hsub : rs ⊆ qs) (w : Word) :
    sameRegsBut qs s (t.setReg r w) := by
  intro q hq
  have hne : q ≠ r := fun e => hq (e ▸ hr)
  rw [State.reg_setReg_of_ne t w hne]
  exact h q fun hmem => hq (hsub hmem)

/-- The pushed word reads back where SP pointed (45_stack_call.md R240). -/
theorem wordIs_pushed (hl : locate s (s.reg .sp) 8 = .next l) (v : Word) : wordIs (s.pushed l v) (s.reg .sp) v := by
  have hload : (s.pushed l v).loadAt l 8 = leBytes 8 v.toNat :=
    (loadAt_storeAt s l _ 0 8 (dev_lt_of_locate hl) (by simp)).trans (List.take_of_length_le (by simp))
  have hland : locate (s.pushed l v) (s.reg .sp) 8 = .next l := (locate_congr (sameShape_pushed s l v) _ 8).trans hl
  rw [wordIs, memRead_of_locate hland, hload, leWord_leBytes]

/-- A push is one word pushed, and no register but SP differs. -/
theorem pushedWord_pushed (hl : locate s (s.reg .sp) 8 = .next l) (v : Word) : pushedWord v [] l s (s.pushed l v) := by
  have hout := sameMemoryOutside_storeAt s l (leBytes 8 v.toNat)
  rw [length_leBytes] at hout
  exact ⟨wordIs_pushed hl v, hout, State.pushed_reg_sp s l v, rfl,
    fun q hq => State.pushed_reg s l v (by simpa using hq), rfl, rfl, rfl, rfl, (sameShape_pushed s l v).2⟩

/-- A register other than SP may be written after the push. -/
theorem pushedWord_setReg (h : pushedWord v rs l s t) (hr : r ≠ .sp) (w : Word) :
    pushedWord v (r :: rs) l s (t.setReg r w) := by
  obtain ⟨hword, hout, hsp, hcount, hregs, hflags, hrun, hlaunch⟩ := h
  exact ⟨hword, hout, (State.reg_setReg_of_ne t w hr.symm).trans hsp, hcount,
    sameRegsBut_setReg hregs (by simp) (by simp) w, hflags, hrun, hlaunch⟩

/-- A pop is one word popped, and no register but SP differs. -/
theorem poppedWord_popped (s : State) : poppedWord [] s s.popped :=
  ⟨fun _ _ => rfl, rfl, fun _ hq => State.popped_reg s (by simpa using hq), rfl, rfl, rfl, rfl, rfl⟩

/-- Any register may be written after the pop, SP too. -/
theorem poppedWord_setReg (h : poppedWord rs s t) (r : Reg) (w : Word) : poppedWord (r :: rs) s (t.setReg r w) := by
  obtain ⟨hmem, hcount, hregs, hflags, hrun, hlaunch⟩ := h
  exact ⟨hmem, hcount, sameRegsBut_setReg hregs (by simp) (by simp) w, hflags, hrun, hlaunch⟩

end OneWord

/-! ### Instructions -/

section Instructions

variable {i : Instr} {a v : Word} {r : Reg} {s : State}

/-- What a jump does (44_control_flow.md R210). -/
theorem jumpsTo_of_exec_eq (c : Cond) (hi : exec i s = jump c a s) : jumpsTo i a (c.holds s.flags) s :=
  ⟨_, hi.trans (jump_eq c a s), onlyRegister_set s .ip _⟩

/-- What a branch does where its push lands: IP is written last, over a state in which it was pushed
(44_control_flow.md R210). -/
theorem branchesTo_of_exec_eq (c : Cond) (hi : exec i s = branch c a s) : branchesTo i a (c.holds s.flags) s := by
  constructor
  · intro hnot
    exact hi.trans (branch_eq_next.mpr (.inl ⟨hnot, rfl⟩))
  · intro htaken l hl
    exact ⟨_, hi.trans (branch_eq_next.mpr (.inr ⟨htaken, l, hl, rfl⟩)), State.reg_setReg_self ..,
      pushedWord_setReg (pushedWord_pushed hl _) (by decide) a⟩

/-- What a pop into a register does where the word above SP can be read: the register is written last
(45_stack_call.md R241). -/
theorem popsInto_of_exec_eq (hi : exec i s = execPop r s) (hv : wordIs s (s.reg .sp + 8) v) :
    ∃ t, exec i s = .next t ∧ t.reg r = v ∧ (r ≠ .sp → t.reg .sp = s.reg .sp + 8) ∧ poppedWord [r] s t := by
  have hpop : pop64 s = .next (v, s.popped) := pop64_eq_next.mpr ⟨v, hv, rfl⟩
  have hexec : exec i s = .next (s.popped.setReg r v) := by rw [hi, execPop, hpop, andThen_next]
  refine ⟨_, hexec, State.reg_setReg_self .., fun hr => ?_, poppedWord_setReg (poppedWord_popped s) r v⟩
  rw [State.reg_setReg_of_ne _ v hr.symm, State.popped_reg_sp]

end Instructions

/-! ### The obligations about control flow -/

/-- Settles O40: each of the fourteen is `jump` under its condition. -/
theorem jumpsTestZeroAndNegative : Obligations.JumpsTestZeroAndNegative := by
  intro s a r
  exact ⟨⟨jumpsTo_of_exec_eq .always rfl, jumpsTo_of_exec_eq .eq rfl, jumpsTo_of_exec_eq .ne rfl,
      jumpsTo_of_exec_eq .gt rfl, jumpsTo_of_exec_eq .lt rfl, jumpsTo_of_exec_eq .ge rfl,
      jumpsTo_of_exec_eq .le rfl⟩,
    ⟨jumpsTo_of_exec_eq .always rfl, jumpsTo_of_exec_eq .eq rfl, jumpsTo_of_exec_eq .ne rfl,
      jumpsTo_of_exec_eq .gt rfl, jumpsTo_of_exec_eq .lt rfl, jumpsTo_of_exec_eq .ge rfl,
      jumpsTo_of_exec_eq .le rfl⟩⟩

/-- Settles O41: each of the fourteen is `branch` under its condition, and a branch through a register takes its value
from before the push. -/
theorem branchesPushTheReturnAddress : Obligations.BranchesPushTheReturnAddress := by
  intro s a r
  exact ⟨⟨branchesTo_of_exec_eq .always rfl, branchesTo_of_exec_eq .eq rfl, branchesTo_of_exec_eq .ne rfl,
      branchesTo_of_exec_eq .gt rfl, branchesTo_of_exec_eq .lt rfl, branchesTo_of_exec_eq .ge rfl,
      branchesTo_of_exec_eq .le rfl⟩,
    ⟨branchesTo_of_exec_eq .always rfl, branchesTo_of_exec_eq .eq rfl, branchesTo_of_exec_eq .ne rfl,
      branchesTo_of_exec_eq .gt rfl, branchesTo_of_exec_eq .lt rfl, branchesTo_of_exec_eq .ge rfl,
      branchesTo_of_exec_eq .le rfl⟩⟩

/-- Settles O42: RET is a pop into IP, which is not SP. -/
theorem retPopsIp : Obligations.RetPopsIp := by
  intro s v hv
  obtain ⟨t, ht, hip, hsp, hpopped⟩ := popsInto_of_exec_eq (i := .ret) (r := .ip) rfl hv
  exact ⟨t, ht, hip, hsp (by decide), hpopped⟩

end Sys2Proof.Proofs

/-! The stack and calls: one word pushed or popped by an instruction, and a frame as a run of words, pushed by CALL,
CALLR and INT, completely or up to the first word that cannot be written (45_stack_call.md). -/

namespace Sys2Proof.Proofs

open Sys2Proof Sys2Proof.Machine

/-! ### One word -/

section OneWord

variable {i : Instr} {a v : Word} {r : Reg} {k : FaultKind} {s : State}

/-- Settles O43: both forms are one push, and the register's value is read before it. -/
theorem pushWritesWhereSpPoints : Obligations.PushWritesWhereSpPoints := by
  intro s r v l hl
  have hpush : ∀ w, push64 w s = .next (s.pushed l w) := fun w => push64_eq_next.mpr ⟨l, hl, rfl⟩
  exact ⟨⟨_, hpush (s.reg r), pushedWord_pushed hl _⟩, ⟨_, hpush v, pushedWord_pushed hl v⟩⟩

/-- Settles O44: POP is a pop into its register. -/
theorem popReadsAboveSp : Obligations.PopReadsAboveSp :=
  fun _ _ _ hv => popsInto_of_exec_eq rfl hv

/-- A push that cannot write changes nothing but the run state (45_stack_call.md R240). -/
theorem faultsUnchanged_of_exec_eq_push64 (hi : exec i s = push64 v s) (hf : locate s (s.reg .sp) 8 = .fault k) :
    faultsUnchanged i k s :=
  hi.trans (push64_faults hf)

/-- A taken branch faults in its push, before IP is written (44_control_flow.md R210). -/
theorem branchFaults_of_exec_eq (c : Cond) (hi : exec i s = branch c a s) (hf : locate s (s.reg .sp) 8 = .fault k) :
    branchFaults i (c.holds s.flags) k s := by
  intro htaken
  have hbranch : branch c a s = raise k s := by rw [branch, if_pos htaken, push64_faults hf, andThen_raise]
  exact hi.trans hbranch

/-- A pop into a register that cannot read leaves SP moved up and the register as it was (45_stack_call.md R241). -/
theorem execPop_faults (hf : locate s (s.reg .sp + 8) 8 = .fault k) (r : Reg) :
    execPop r s = raise k (s.setReg .sp (s.reg .sp + 8)) := by
  rw [execPop, pop64_faults hf, andThen_raise]

/-- Settles O45: the pushes, the branches and the pops fault in the one access they make. -/
theorem failedPushAndPop : Obligations.FailedPushAndPop := by
  intro s r v k
  constructor
  · intro hf
    exact ⟨⟨faultsUnchanged_of_exec_eq_push64 rfl hf, faultsUnchanged_of_exec_eq_push64 rfl hf⟩,
      ⟨branchFaults_of_exec_eq .always rfl hf, branchFaults_of_exec_eq .eq rfl hf, branchFaults_of_exec_eq .ne rfl hf,
        branchFaults_of_exec_eq .gt rfl hf, branchFaults_of_exec_eq .lt rfl hf, branchFaults_of_exec_eq .ge rfl hf,
        branchFaults_of_exec_eq .le rfl hf⟩,
      ⟨branchFaults_of_exec_eq .always rfl hf, branchFaults_of_exec_eq .eq rfl hf, branchFaults_of_exec_eq .ne rfl hf,
        branchFaults_of_exec_eq .gt rfl hf, branchFaults_of_exec_eq .lt rfl hf, branchFaults_of_exec_eq .ge rfl hf,
        branchFaults_of_exec_eq .le rfl hf⟩⟩
  · intro hf
    exact ⟨execPop_faults hf r, execPop_faults hf .ip⟩

/-- Settles O46: the pop reads the word just pushed, and undoes the moves of SP and of the counter. -/
theorem popReturnsThePushedWord : Obligations.PopReturnsThePushedWord := by
  intro s t v h
  obtain ⟨l, hl, rfl⟩ := push64_eq_next.mp h
  have hsp : (s.pushed l v).reg .sp + 8 = s.reg .sp := by rw [State.pushed_reg_sp, BitVec.sub_add_cancel]
  refine ⟨_, pop64_eq_next.mpr ⟨v, hsp.symm ▸ wordIs_pushed hl v, rfl⟩, ?_, fun hcounts => ?_⟩
  · rw [State.popped_reg_sp, hsp]
  · rw [State.popped_stackFrameSize, State.pushed_stackFrameSize, countedPush, if_pos hcounts, BitVec.add_sub_cancel]

end OneWord

/-! ### A frame pushed -/

section FramePushed

variable {i : Instr} {ws : List Word} {s t u : State} {a v : Word} {k : Nat} {f : FaultKind} {g : State → Result State}

/-- The entry of a frame over a state in which its words have been pushed: FP is SP, the counter starts again, and IP is
the target (45_stack_call.md R244, R250). -/
def intoFrame (target : Word) (u : State) : State :=
  ((u.setReg .fp (u.reg .sp)).setFrameSize 0).setReg .ip target

/-- A call pushes the words of a frame, then enters it (45_stack_call.md R250). -/
theorem call_eq (a : Word) (s : State) :
    call a s = andThen (pushAll (frameWords s 0) s) fun u => .next (intoFrame a u) := by
  rw [call, pushState_eq, andThen_assoc]
  rfl

/-- What the entry of a frame leaves (45_stack_call.md R244). -/
theorem enteredFrame_intoFrame (h : pushAll ws s = .next u) (target : Word) :
    enteredFrame ws target s (intoFrame target u) := by
  have hout := pushAll_sameMemoryOutside h
  have hreads := pushAll_reads h
  obtain ⟨hsp, hregs, -, hrun, hlaunch, -⟩ := pushAll_frame h
  have hfp : sameRegsBut [.sp, .fp] s (u.setReg .fp (u.reg .sp)) := sameRegsBut_setReg hregs (by simp) (by simp) _
  have hip : sameRegsBut [.ip, .sp, .fp] s (intoFrame target u) :=
    sameRegsBut_setReg (t := (u.setReg .fp (u.reg .sp)).setFrameSize 0) hfp (by simp) (by simp) target
  exact ⟨State.reg_setReg_self .., hsp, hsp, rfl, hip, hrun, hlaunch, hout, hreads⟩

/-- A call completes where the ten words of its frame can be pushed (45_stack_call.md R250). -/
theorem call_completes (h : pushable s 10) (a : Word) :
    ∃ t, call a s = .next t ∧ t.flags = s.flags ∧ enteredFrame (frameWords s 0) a s t := by
  obtain ⟨u, hu⟩ := pushAll_completes (ws := frameWords s 0) h
  obtain ⟨-, -, hflags, -⟩ := pushAll_frame hu
  have hcall : call a s = .next (intoFrame a u) := by rw [call_eq, hu, andThen_next]
  exact ⟨_, hcall, hflags, enteredFrame_intoFrame hu a⟩

/-- Settles O47: CALL and CALLR are calls, to a target that is read before the first push. -/
theorem callEntersAFrame : Obligations.CallEntersAFrame :=
  fun s a r h => ⟨call_completes h a, call_completes h (s.reg r)⟩

/-- What words pushed up to a fault leave (60_exceptions.md R311). -/
theorem pushedBeforeFault_of_pushAll_take (hk : k < ws.length) (hu : pushAll (ws.take k) s = .next u) (f : FaultKind) :
    pushedBeforeFault ws k f s { u with run := .faulted f } := by
  have hlen : (ws.take k).length = k := List.length_take_of_le hk.le
  have hout := pushAll_sameMemoryOutside hu
  have hreads := pushAll_reads hu
  obtain ⟨hsp, hregs, hflags, -, hlaunch, hcount⟩ := pushAll_frame hu
  rw [hlen] at hsp hcount hout
  refine ⟨rfl, hsp, ?_, hregs, hflags, hlaunch, hout, fun hregion j _ hjk => ?_⟩
  · refine hcount.trans ?_
    unfold countedPushes
    split
    · rfl
    · exact BitVec.add_zero _
  · have hword := hreads (hlen.symm ▸ hregion) j (hlen.symm ▸ hjk)
    rw [List.getElem_take] at hword
    exact hword

/-- An instruction that starts by pushing words faults at the first that cannot be pushed, whatever it would have done
next (45_stack_call.md R244). -/
theorem faultsAtPush_of_exec_eq (hi : exec i s = andThen (pushAll ws s) g) (hk : k < ws.length) (hp : pushable s k)
    (hf : locate s (wordBelow (s.reg .sp) k) 8 = .fault f) : faultsAtPush i ws k f s := by
  obtain ⟨u, hu, hfault⟩ := pushAll_faults hk hp hf
  refine ⟨_, ?_, pushedBeforeFault_of_pushAll_take hk hu f⟩
  rw [hi, hfault, andThen_raise]
  rfl

/-- An unmasked interrupt reads its vector before anything else (60_exceptions.md R320). -/
theorem handleInterrupt_of_unmasked (h : (s.reg .im).getLsbD (v.toNat % 64) = true) :
    handleInterrupt v s =
      during s (memRead s (s.params.ivtBase + BitVec.ofNat 64 (8 * (v.toNat % 64))) 8) fun handler =>
        andThen (saveInterruptFrame s) fun s1 => .next ((s1.setInHandler true).setReg .ip handler) :=
  if_pos h

/-- Settles O59: a call is the pushes of its frame, and so is an interrupt once its vector has been read. -/
theorem failedFramePush : Obligations.FailedFramePush := by
  intro s a v r k f
  constructor
  · intro hk hp hf
    exact ⟨faultsAtPush_of_exec_eq (call_eq a s) hk hp hf, faultsAtPush_of_exec_eq (call_eq (s.reg r) s) hk hp hf⟩
  · intro hmask
    constructor
    · rintro hout ⟨l, hl⟩ hk hp hf
      have hentry := handleInterrupt_of_unmasked hmask
      rw [memRead_of_locate hl, during_next, saveInterruptFrame_eq hout, andThen_assoc] at hentry
      exact faultsAtPush_of_exec_eq hentry hk hp hf
    · intro hf
      have hentry := handleInterrupt_of_unmasked hmask
      rw [memRead_faults hf, during_fault] at hentry
      exact hentry

end FramePushed

end Sys2Proof.Proofs

/-! A frame popped: what RTC and RTI leave, completely or up to the first word that cannot be read
(45_stack_call.md R245). -/

namespace Sys2Proof.Proofs

open Sys2Proof Sys2Proof.Machine

/-! ### Registers written from numbered words -/

section WrittenRegisters

variable {w : Nat → Word} {rs : List Reg} {q : Reg} {s : State}

theorem setRegs_frame (w : Nat → Word) (rs : List Reg) (j : Nat) (s : State) :
    ∃ regs, State.setRegs w rs j s = { s with regs := regs } := by
  induction rs generalizing j s with
  | nil => exact ⟨s.regs, rfl⟩
  | cons r rs ih => exact ih (j + 1) (s.setReg r (w j))

theorem reg_setRegs_of_not_mem (hq : q ∉ rs) (j : Nat) : (State.setRegs w rs j s).reg q = s.reg q := by
  induction rs generalizing j s with
  | nil => rfl
  | cons r rs ih =>
    simp only [List.mem_cons, not_or] at hq
    rw [State.setRegs, ih hq.2, State.reg_setReg_of_ne _ _ hq.1]

/-- Of different registers the first `n` are written, each with its word, and the others are as before. -/
theorem reg_setRegs_take (hrs : rs.Nodup) {i : Nat} (hi : rs[i]? = some q) (n j : Nat) :
    (State.setRegs w (rs.take n) j s).reg q = if i < n then w (j + i) else s.reg q := by
  induction rs generalizing n i j s with
  | nil => simp at hi
  | cons r rs ih =>
    obtain ⟨hr, hrs⟩ := List.nodup_cons.mp hrs
    cases n with
    | zero => rfl
    | succ n =>
      rw [List.take_succ_cons, State.setRegs]
      cases i with
      | zero =>
        obtain rfl : r = q := by simpa using hi
        rw [reg_setRegs_of_not_mem fun h => hr (List.mem_of_mem_take h), State.reg_setReg_self, if_pos (Nat.succ_pos n)]
        rfl
      | succ i =>
        have hmem : rs[i]? = some q := by simpa using hi
        have hne : q ≠ r := fun e => hr (e ▸ List.mem_of_getElem? hmem)
        rw [ih hrs hmem, State.reg_setReg_of_ne _ _ hne, Nat.add_right_comm j 1 i]
        simp only [Nat.succ_lt_succ_iff]
        rfl

theorem setRegs_setReg (hq : q ∉ rs) (v : Word) (j : Nat) :
    State.setRegs w rs j (s.setReg q v) = (State.setRegs w rs j s).setReg q v := by
  induction rs generalizing j s with
  | nil => rfl
  | cons r rs ih =>
    simp only [List.mem_cons, not_or] at hq
    rw [State.setRegs, State.setReg_comm _ _ _ hq.1, ih hq.2]
    rfl

theorem setRegs_setFrameSize (v : Word) (j : Nat) :
    State.setRegs w rs j (s.setFrameSize v) = (State.setRegs w rs j s).setFrameSize v := by
  induction rs generalizing j s with
  | nil => rfl
  | cons r rs ih => exact ih (s := s.setReg r (w j)) (j + 1)

theorem setRegs_stackFrameSize (w : Nat → Word) (rs : List Reg) (j : Nat) (s : State) :
    (State.setRegs w rs j s).stackFrameSize = s.stackFrameSize := by
  obtain ⟨regs, h⟩ := setRegs_frame w rs j s
  rw [h]

/-- Pops move SP and the counter, so they may come before or after the writes of other registers. -/
theorem poppedWords_setRegs (hsp : Reg.sp ∉ rs) (n j : Nat) :
    (State.setRegs w rs j s).poppedWords n = State.setRegs w rs j (s.poppedWords n) := by
  rw [State.poppedWords, reg_setRegs_of_not_mem hsp, setRegs_stackFrameSize, ← setRegs_setReg hsp,
    ← setRegs_setFrameSize]
  rfl

end WrittenRegisters

/-! ### Words popped -/

theorem wordAbove_add (a : Word) (m n : Nat) : wordAbove (wordAbove a m) n = wordAbove a (m + n) := by
  unfold wordAbove
  bv_omega

theorem popped_eq_poppedWords (s : State) : s.popped = s.poppedWords 1 := by
  rw [← State.poppedWords_popped, State.poppedWords_zero]

theorem poppedWords_add (m n : Nat) (s : State) : (s.poppedWords m).poppedWords n = s.poppedWords (m + n) := by
  induction m generalizing s with
  | zero => rw [State.poppedWords_zero, Nat.zero_add]
  | succ m ih => rw [← State.poppedWords_popped, ih, State.poppedWords_popped, Nat.add_right_comm]

/-! ### The frame at FP, word by word -/

section FramePopped

variable {s t : State} {w : Nat → Word} {k : Nat} {f : FaultKind} {r q : Reg}

/-- The state after `k` words of the frame at FP have been popped, the words being `w 1`, `w 2` and so on: SP starts at
FP, word 1 goes to the counter, words 2 to 10 to registers, and the others nowhere (45_stack_call.md R245). -/
def framePopped (w : Nat → Word) : Nat → State → State
  | 0, s => s.setReg .sp (s.reg .fp)
  | n + 1, s =>
    State.setRegs w (frameRegs.reverse.take n) 2
      ((restoreCounter (w 1) (s.setReg .sp (s.reg .fp)).popped).poppedWords n)

theorem sp_not_mem_take (n : Nat) : Reg.sp ∉ frameRegs.reverse.take n :=
  fun h => absurd (List.mem_of_mem_take h) (by decide)

theorem restoreCounter_eq (size : Word) (s : State) :
    restoreCounter size s = s.setFrameSize (match s.params.popStateCounter with
      | .restore => size
      | .carryOn => s.stackFrameSize) := by
  unfold restoreCounter
  cases s.params.popStateCounter with
  | restore => rfl
  | carryOn => rfl

theorem restoreCounter_reg (size : Word) (s : State) : (restoreCounter size s).reg = s.reg := by
  rw [restoreCounter_eq, State.setFrameSize_reg]

/-- Popping a frame changes registers and the counter alone. -/
theorem framePopped_frame (w : Nat → Word) (k : Nat) (s : State) :
    ∃ regs size, framePopped w k s = { s with regs := regs, stackFrameSize := size } := by
  cases k with
  | zero => exact ⟨_, _, rfl⟩
  | succ n =>
    obtain ⟨regs, h⟩ := setRegs_frame w (frameRegs.reverse.take n) 2
      ((restoreCounter (w 1) (s.setReg .sp (s.reg .fp)).popped).poppedWords n)
    exact ⟨regs, _, by rw [framePopped, h, restoreCounter_eq]; rfl⟩

theorem framePopped_reg_sp (w : Nat → Word) (k : Nat) (s : State) :
    (framePopped w k s).reg .sp = wordAbove (s.reg .fp) k := by
  cases k with
  | zero => simp [framePopped, wordAbove]
  | succ n =>
    rw [framePopped, reg_setRegs_of_not_mem (sp_not_mem_take n), State.poppedWords, State.setFrameSize_reg,
      State.reg_setReg_self, restoreCounter_reg, wordAbove_popped, State.reg_setReg_self]

/-- A register that no word of a frame goes to is as before. -/
theorem framePopped_reg_of_not_mem (w : Nat → Word) (k : Nat) (s : State) (hq : q ∉ Reg.sp :: frameRegs.reverse) :
    (framePopped w k s).reg q = s.reg q := by
  obtain ⟨hsp, hregs⟩ := not_or.mp (mt List.mem_cons.mpr hq)
  cases k with
  | zero => exact State.reg_setReg_of_ne _ _ hsp
  | succ n =>
    rw [framePopped, reg_setRegs_of_not_mem fun h => hregs (List.mem_of_mem_take h), State.poppedWords,
      State.setFrameSize_reg, State.reg_setReg_of_ne _ _ hsp, restoreCounter_reg, State.popped_reg _ hsp,
      State.reg_setReg_of_ne _ _ hsp]

theorem getElem?_frameRegs_reverse :
    ∀ p ∈ frameWordRegs, 2 ≤ p.1 ∧ frameRegs.reverse[p.1 - 2]? = some p.2 ∧ p.2 ≠ .sp := by
  decide

/-- Word `j` of a frame is in its register once it has been popped. -/
theorem framePopped_reg_of_mem {j : Nat} (h : (j, r) ∈ frameWordRegs) (w : Nat → Word) (k : Nat) (s : State) :
    (framePopped w k s).reg r = if j ≤ k then w j else s.reg r := by
  obtain ⟨hj, hi, hsp⟩ : 2 ≤ j ∧ frameRegs.reverse[j - 2]? = some r ∧ r ≠ .sp := getElem?_frameRegs_reverse _ h
  cases k with
  | zero => rw [framePopped, State.reg_setReg_of_ne _ _ hsp, if_neg (by omega)]
  | succ n =>
    have hiff : j - 2 < n ↔ j ≤ n + 1 := by omega
    rw [framePopped, reg_setRegs_take (by decide) hi, State.poppedWords, State.setFrameSize_reg,
      State.reg_setReg_of_ne _ _ hsp, restoreCounter_reg, State.popped_reg _ hsp, State.reg_setReg_of_ne _ _ hsp,
      Nat.add_sub_cancel' hj]
    simp only [hiff]

/-- The counter follows the pops, from the saved frame size under `restore` (45_stack_call.md R245). -/
theorem framePopped_stackFrameSize (w : Nat → Word) (n : Nat) (s : State) :
    (framePopped w (n + 1) s).stackFrameSize =
      (match s.params.popStateCounter with
        | .restore => w 1 - BitVec.ofNat 64 (8 * n)
        | .carryOn => s.stackFrameSize - BitVec.ofNat 64 (8 * (n + 1))) := by
  have hparams : (s.setReg .sp (s.reg .fp)).popped.params = s.params := rfl
  rw [framePopped, setRegs_stackFrameSize, State.poppedWords, State.setFrameSize_stackFrameSize, restoreCounter_eq,
    hparams]
  cases s.params.popStateCounter with
  | restore => rfl
  | carryOn =>
    rw [State.setFrameSize_stackFrameSize, State.popped_stackFrameSize, State.setReg_stackFrameSize]
    bv_omega

/-- After `k` words the next read is that of word `k + j` of the frame. -/
theorem locate_framePopped (w : Nat → Word) (k j : Nat) (s : State) :
    locate (framePopped w k s) (wordAbove ((framePopped w k s).reg .sp) j) 8 =
      locate s (wordAbove (s.reg .fp) (k + j)) 8 := by
  rw [framePopped_reg_sp, wordAbove_add]
  obtain ⟨regs, size, h⟩ := framePopped_frame w k s
  rw [h]
  rfl

theorem memRead_framePopped (w : Nat → Word) (k j : Nat) (s : State) :
    memRead (framePopped w k s) (wordAbove ((framePopped w k s).reg .sp) j) 8 =
      memRead s (wordAbove (s.reg .fp) (k + j)) 8 := by
  rw [framePopped_reg_sp, wordAbove_add]
  obtain ⟨regs, size, h⟩ := framePopped_frame w k s
  rw [h]
  rfl

theorem framePopped_zero (w : Nat → Word) (s : State) : framePopped w 0 s = s.setReg .sp (s.reg .fp) := rfl

/-- The first word goes to the counter. -/
theorem framePopped_one (w : Nat → Word) (s : State) :
    framePopped w 1 s = restoreCounter (w 1) (s.setReg .sp (s.reg .fp)).popped :=
  State.poppedWords_zero _

/-- The words after the first go to registers, as far as there are any. -/
theorem setRegs_poppedWords_framePopped (w : Nat → Word) (n : Nat) (s : State) :
    State.setRegs w (frameRegs.reverse.take n) 2 ((framePopped w 1 s).poppedWords n) = framePopped w (n + 1) s := by
  rw [framePopped_one]
  rfl

/-- Words from the argument count on go nowhere. -/
theorem poppedWords_framePopped (hk : 10 ≤ k) (w : Nat → Word) (n : Nat) (s : State) :
    (framePopped w k s).poppedWords n = framePopped w (k + n) s := by
  obtain ⟨m, rfl⟩ := Nat.exists_eq_add_of_le hk
  have hall : ∀ i, frameRegs.reverse.take (9 + i) = frameRegs.reverse := fun i =>
    List.take_of_length_le (Nat.le_add_right 9 i)
  rw [show 10 + m = 9 + m + 1 by omega, framePopped, hall, poppedWords_setRegs (by decide), poppedWords_add,
    show 9 + m + 1 + n = 9 + (m + n) + 1 by omega, framePopped, hall, Nat.add_assoc]

/-! ### The stages of popping a frame -/

/-- The words of the frame at FP, from the first up to number `n`, read as given (45_stack_call.md R245). -/
def frameReads (s : State) (w : Nat → Word) (n : Nat) : Prop :=
  ∀ j, 1 ≤ j → j ≤ n → wordIs s (wordAbove (s.reg .fp) j) (w j)

theorem frameReads_mono {m n : Nat} (h : frameReads s w n) (hmn : m ≤ n) : frameReads s w m :=
  fun j h1 h2 => h j h1 (h2.trans hmn)

/-- What popping a frame does after its registers: the argument count, the arguments, and FP (45_stack_call.md R245). -/
def popArguments (fp : Word) (s : State) : Result State :=
  andThen (pop64 s) fun q => andThen (discardWords q.1.toNat q.2) fun u => .next (u.setReg .fp fp)

theorem popState_of_word_one (h : frameReads s w 1) :
    popState s = andThen (popRegs frameRegs.reverse (framePopped w 1 s)) (popArguments (s.reg .fp + w 1)) := by
  have hsize := h 1 le_rfl le_rfl
  have hpop : pop64 (s.setReg .sp (s.reg .fp)) = .next (w 1, (s.setReg .sp (s.reg .fp)).popped) :=
    pop64_eq_next.mpr ⟨w 1, by rwa [State.reg_setReg_self], rfl⟩
  rw [popState, hpop, framePopped_one]
  rfl

/-- The words of registers, as the reads made after the first pop. -/
theorem wordIs_framePopped_one {n : Nat} (h : frameReads s w (1 + n)) :
    ∀ i, i < n → wordIs (framePopped w 1 s) (wordAbove ((framePopped w 1 s).reg .sp) (i + 1)) (w (2 + i)) := by
  intro i hi
  rw [wordIs, memRead_framePopped, show 1 + (i + 1) = 2 + i by omega]
  exact h (2 + i) (by omega) (by omega)

theorem popState_of_words_to_ten (h : frameReads s w 10) :
    popState s = popArguments (s.reg .fp + w 1) (framePopped w 10 s) := by
  have hpop : popRegs frameRegs.reverse (framePopped w 1 s) = .next (framePopped w 10 s) :=
    (popRegs_completes (rs := frameRegs.reverse) (by decide) (wordIs_framePopped_one (n := 9) h)).trans
      (congrArg _ (setRegs_poppedWords_framePopped w 9 s))
  rw [popState_of_word_one (frameReads_mono h (by decide)), hpop, andThen_next]

theorem popState_of_words_to_eleven (h : frameReads s w 11) :
    popState s =
      andThen (discardWords (w 11).toNat (framePopped w 11 s)) fun u => .next (u.setReg .fp (s.reg .fp + w 1)) := by
  have hcount : memRead (framePopped w 10 s) ((framePopped w 10 s).reg .sp + 8) 8 = .next (w 11) :=
    (memRead_framePopped w 10 1 s).trans (h 11 (by decide) le_rfl)
  have hpop : pop64 (framePopped w 10 s) = .next (w 11, framePopped w 11 s) :=
    pop64_eq_next.mpr ⟨w 11, hcount, by rw [popped_eq_poppedWords, poppedWords_framePopped le_rfl]⟩
  rw [popState_of_words_to_ten (frameReads_mono h (by decide)), popArguments, hpop, andThen_next]

/-- A frame whose words can be read is popped whole, and FP moves past it (45_stack_call.md R245). -/
theorem popState_completes (h : frameAtFp s w) :
    popState s = .next ((framePopped w (11 + (w 11).toNat) s).setReg .fp (s.reg .fp + w 1)) := by
  obtain ⟨hwords, harguments⟩ := h
  have hdiscard : discardWords (w 11).toNat (framePopped w 11 s) = .next (framePopped w (11 + (w 11).toNat) s) := by
    rw [discardWords_completes, poppedWords_framePopped (by decide)]
    intro k h1 h2
    obtain ⟨l, hl⟩ := harguments (11 + k) (by omega) (by omega)
    exact ⟨l, (locate_framePopped w 11 k s).trans hl⟩
  rw [popState_of_words_to_eleven hwords, hdiscard, andThen_next]

/-! ### A frame that breaks -/

theorem pop64_framePopped_faults (hf : locate s (wordAbove (s.reg .fp) (k + 1)) 8 = .fault f) :
    pop64 (framePopped w k s) = raise f ((framePopped w k s).poppedTo 0) := by
  rw [State.poppedTo_zero]
  exact pop64_faults ((locate_framePopped w k 1 s).trans hf)

/-- Popping on to the word that cannot be read is popping the words before it first. -/
theorem poppedTo_eq (n : Nat) (s : State) : s.poppedTo n = (s.poppedWords n).poppedTo 0 := by
  have hsp : (s.poppedWords n).reg .sp = wordAbove (s.reg .sp) n := State.reg_setReg_self s .sp _
  rw [State.poppedTo, State.poppedTo, State.poppedWords_zero, hsp, wordAbove_add]

theorem setRegs_poppedTo {rs : List Reg} (hsp : Reg.sp ∉ rs) (n j : Nat) :
    State.setRegs w rs j (s.poppedTo n) = (State.setRegs w rs j (s.poppedWords n)).poppedTo 0 := by
  rw [poppedTo_eq, State.poppedTo_zero, State.poppedTo_zero, setRegs_setReg hsp, reg_setRegs_of_not_mem hsp]

theorem popRegs_framePopped_faults {i : Nat} (hi : i < 9) (h : frameReads s w (1 + i))
    (hf : locate s (wordAbove (s.reg .fp) (1 + i + 1)) 8 = .fault f) :
    popRegs frameRegs.reverse (framePopped w 1 s) = raise f ((framePopped w (1 + i) s).poppedTo 0) := by
  have hland := (locate_framePopped w 1 (i + 1) s).trans hf
  rw [popRegs_faults (by decide) hi (wordIs_framePopped_one h) hland, setRegs_poppedTo (sp_not_mem_take i),
    setRegs_poppedWords_framePopped, Nat.add_comm]

theorem discardWords_framePopped_faults {n m : Nat} (hm : m < n) (h : frameReads s w (11 + m))
    (hf : locate s (wordAbove (s.reg .fp) (11 + m + 1)) 8 = .fault f) :
    discardWords n (framePopped w 11 s) = raise f ((framePopped w (11 + m) s).poppedTo 0) := by
  have hland := (locate_framePopped w 11 (m + 1) s).trans hf
  rw [discardWords_faults hm ?_ hland, poppedTo_eq, poppedWords_framePopped (by decide)]
  intro i h1 h2
  obtain ⟨l, hl, -⟩ := memRead_eq_next.mp (h (11 + i) (by omega) (by omega))
  exact ⟨l, (locate_framePopped w 11 i s).trans hl⟩

/-- A frame that breaks faults in the read of its word `n + 1`, with the words before it popped: the frame size, a
register, the argument count or an argument (45_stack_call.md R245, 60_exceptions.md R311). -/
theorem popState_faults {n : Nat} (h : frameBreaksAt s w (n + 1) f) :
    popState s = raise f ((framePopped w n s).poppedTo 0) := by
  obtain ⟨-, hbefore, hargs, hf⟩ := h
  have hwords : frameReads s w n := fun j h1 h2 => hbefore j h1 (Nat.lt_succ_of_le h2)
  obtain rfl | ⟨h1, h9⟩ | rfl | h11 : n = 0 ∨ (1 ≤ n ∧ n ≤ 9) ∨ n = 10 ∨ 11 ≤ n := by omega
  · rw [popState, ← framePopped_zero w, pop64_framePopped_faults hf, andThen_raise]
  · obtain ⟨i, rfl⟩ := Nat.exists_eq_add_of_le h1
    rw [popState_of_word_one (frameReads_mono hwords h1), popRegs_framePopped_faults (by omega) hwords hf,
      andThen_raise]
  · rw [popState_of_words_to_ten hwords, popArguments, pop64_framePopped_faults hf, andThen_raise]
  · obtain ⟨m, rfl⟩ := Nat.exists_eq_add_of_le h11
    rw [popState_of_words_to_eleven (frameReads_mono hwords h11),
      discardWords_framePopped_faults (by omega) hwords hf, andThen_raise]

/-! ### The obligations about returns -/

theorem framePopped_flags (w : Nat → Word) (k : Nat) (s : State) : (framePopped w k s).flags = s.flags := by
  obtain ⟨regs, size, h⟩ := framePopped_frame w k s
  rw [h]

/-- What a whole frame leaves when it has been popped (45_stack_call.md R245). -/
theorem leftFrame_framePopped (w : Nat → Word) (s : State) (fp : Word) (hfp : fp = s.reg .fp + w 1) :
    leftFrame w s ((framePopped w (11 + (w 11).toNat) s).setReg .fp fp) := by
  have hsaved : ∀ p ∈ frameWordRegs, ((framePopped w (11 + (w 11).toNat) s).setReg .fp fp).reg p.2 = w p.1 := by
    intro p hp
    obtain ⟨hle, hne⟩ : p.1 ≤ 11 ∧ p.2 ≠ .fp := by revert p; decide
    rw [State.reg_setReg_of_ne _ _ hne, framePopped_reg_of_mem hp, if_pos (by omega)]
  have hkept : ∀ r, r ∉ Reg.fp :: Reg.sp :: frameRegs.reverse →
      ((framePopped w (11 + (w 11).toNat) s).setReg .fp fp).reg r = s.reg r := by
    intro r hr
    obtain ⟨hne, hr⟩ := not_or.mp (mt List.mem_cons.mpr hr)
    rw [State.reg_setReg_of_ne _ _ hne, framePopped_reg_of_not_mem w _ s hr]
  have hsp : ((framePopped w (11 + (w 11).toNat) s).setReg .fp fp).reg .sp = _ := framePopped_reg_sp w _ s
  have hcount := framePopped_stackFrameSize w (10 + (w 11).toNat) s
  rw [show 10 + (w 11).toNat + 1 = 11 + (w 11).toNat by omega] at hcount
  obtain ⟨regs, size, hframe⟩ := framePopped_frame w (11 + (w 11).toNat) s
  simp only [frameWordRegs, List.forall_mem_cons] at hsaved
  obtain ⟨hip, h8, h7, h6, h5, h4, h3, h2, h1, -⟩ := hsaved
  refine ⟨hip, h8, h7, h6, h5, h4, h3, h2, h1, hsp, hfp ▸ State.reg_setReg_self .., hcount, hkept .acc (by decide),
    hkept .mb (by decide), hkept .im (by decide), ?_, ?_, ?_⟩
  · rw [hframe]
    rfl
  · rw [hframe]
    exact ⟨rfl, rfl, rfl⟩
  · rw [hframe]
    exact fun _ _ => rfl

/-- What a return leaves where the frame at FP can be read. -/
theorem popState_leaves_frame (h : frameAtFp s w) : ∃ t, popState s = .next t ∧ t.flags = s.flags ∧ leftFrame w s t :=
  ⟨_, popState_completes h, framePopped_flags w _ s, leftFrame_framePopped w s _ rfl⟩

/-- Settles O48: RTC is the pop of the frame at FP. -/
theorem returnFromCallLeavesTheFrame : Obligations.ReturnFromCallLeavesTheFrame :=
  fun _ _ h => popState_leaves_frame h

/-- What a frame leaves that breaks at its word `n + 1` (60_exceptions.md R311). -/
theorem poppedBeforeFault_framePopped (w : Nat → Word) (n : Nat) (f : FaultKind) (s : State) :
    poppedBeforeFault w (n + 1) f s { (framePopped w n s).poppedTo 0 with run := .faulted f } := by
  have hsp : ((framePopped w n s).poppedTo 0).reg .sp = wordAbove (s.reg .fp) (n + 1) := by
    rw [State.poppedTo, State.reg_setReg_self, framePopped_reg_sp, wordAbove_add]
  have hreg : ∀ {q}, q ≠ .sp → ((framePopped w n s).poppedTo 0).reg q = (framePopped w n s).reg q := by
    intro q hq
    rw [State.poppedTo_zero, State.reg_setReg_of_ne _ _ hq]
  have hcount : ((framePopped w n s).poppedTo 0).stackFrameSize = (framePopped w n s).stackFrameSize := by
    rw [State.poppedTo_zero, State.setReg_stackFrameSize]
  obtain ⟨regs, size, hframe⟩ := framePopped_frame w n s
  refine ⟨rfl, hsp, fun j r hr => ?_, fun q hq => ?_, hcount.trans ?_, ?_, ?_⟩
  · obtain ⟨-, -, hne⟩ := getElem?_frameRegs_reverse _ hr
    simp only [Nat.lt_succ_iff]
    exact (hreg hne).trans (framePopped_reg_of_mem hr w n s)
  · exact (hreg fun e => hq (e ▸ List.mem_cons_self)).trans (framePopped_reg_of_not_mem w n s hq)
  · cases n with
    | zero => rfl
    | succ m => exact framePopped_stackFrameSize w m s
  · rw [hframe]
    exact ⟨rfl, rfl, rfl⟩
  · rw [hframe]
    exact fun _ _ => rfl

/-- What a return leaves where the frame at FP breaks. -/
theorem popState_breaks (h : frameBreaksAt s w k f) :
    ∃ t, popState s = .fault (.halt f t) ∧ t.flags = s.flags ∧ poppedBeforeFault w k f s t := by
  obtain ⟨n, rfl⟩ := Nat.exists_eq_add_of_le' h.1
  exact ⟨_, popState_faults h, framePopped_flags w n s, poppedBeforeFault_framePopped w n f s⟩

/-- Settles O60: both returns pop the frame at FP, RTI after it has cleared the in-handler flag. -/
theorem failedFramePop : Obligations.FailedFramePop := by
  intro s w k f h
  have hrti : frameBreaksAt (s.setInHandler false) w k f := h
  exact ⟨popState_breaks h, popState_breaks hrti⟩

end FramePopped

end Sys2Proof.Proofs

/-! A call and its return: the words a frame was entered with are the words its return pops (45_stack_call.md R254). -/

namespace Sys2Proof.Proofs

open Sys2Proof Sys2Proof.Machine

section CallAndReturn

variable {ws : List Word} {s t u c : State} {a n : Word} {k : Nat}

/-- The words at a frame counted up from FP, given in the order in which they were pushed, the argument count first:
word 1 is the last of the eleven (45_stack_call.md R244, R245). -/
def savedWords (pushed : List Word) (k : Nat) : Word := pushed.getD (11 - k) 0

theorem wordAbove_wordBelow (a : Word) (m n : Nat) (h : n ≤ m) : wordAbove (wordBelow a m) n = wordBelow a (m - n) := by
  unfold wordAbove wordBelow
  bv_omega

theorem wordAbove_wordBelow_of_le (a : Word) {m n : Nat} (h : m ≤ n) :
    wordAbove (wordBelow a m) n = wordAbove a (n - m) := by
  unfold wordAbove wordBelow
  bv_omega

/-- The words of a frame just entered read back, counted up from its FP. -/
theorem wordIs_of_enteredFrame (h : enteredFrame ws a s t) (hregion : oneStackRegion s ws.length)
    (h1 : 1 ≤ k) (hk : k ≤ ws.length) : wordIs t (wordAbove (t.reg .fp) k) (ws.getD (ws.length - k) 0) := by
  obtain ⟨-, -, hfp, -, -, -, -, -, hreads⟩ := h
  have hlt : ws.length - k < ws.length := by omega
  rw [hfp, wordAbove_wordBelow _ _ _ hk, List.getD_eq_getElem _ _ hlt]
  exact hreads hregion _ hlt

/-- A frame entered by a call, with the argument count that stands above it. -/
theorem frameReads_of_call (h : enteredFrame (frameWords s 0) a s t) (hregion : oneStackRegion s 10)
    (hn : wordIs t (wordAbove (t.reg .fp) 11) n) : frameReads t (savedWords (n :: frameWords s 0)) 11 := by
  intro k h1 hk
  obtain rfl | hk : k = 11 ∨ k ≤ 10 := by omega
  · exact hn
  · have hword := wordIs_of_enteredFrame h hregion h1 hk
    have hindex : 11 - k = 10 - k + 1 := by omega
    rw [savedWords, hindex, List.getD_cons_succ]
    exact hword

/-- The registers that a frame saved are restored when its words are popped (45_stack_call.md R254). -/
theorem reg_of_leftFrame {m : Nat} (h : leftFrame (savedWords (n :: frameWords s m)) c u) :
    u.reg .ip = s.reg .ip ∧ ∀ r ∈ [Reg.r1, .r2, .r3, .r4, .r5, .r6, .r7, .r8], u.reg r = s.reg r := by
  obtain ⟨hip, h8, h7, h6, h5, h4, h3, h2, h1, -⟩ := h
  refine ⟨hip, ?_⟩
  simp only [List.forall_mem_cons]
  exact ⟨h1, h2, h3, h4, h5, h6, h7, h8, nofun⟩

/-- Under the default setting the saved frame size reaches from the new FP back over the frame and the old one: FP of
the entry, ten words and `m` earlier pushes below the old SP, plus that size (45_stack_call.md R245, R254). -/
theorem wordBelow_add_frameSize (hcounts : s.params.pushCountsFrame = true) (n : Word) (m : Nat) :
    wordBelow (s.reg .sp) (10 + m) + savedWords (n :: frameWords s m) 1 = s.reg .sp + s.stackFrameSize := by
  have hsize : savedWords (n :: frameWords s m) 1 = s.stackFrameSize + BitVec.ofNat 64 (8 * (m + 9)) + 8 := by
    change s.stackFrameSize + (if s.params.pushCountsFrame then _ else _) + 8 = _
    rw [if_pos hcounts]
  rw [hsize, wordBelow]
  bv_omega

/-- A frame entered by a call that completes. -/
theorem enteredFrame_of_call (h : call a s = .next t) : enteredFrame (frameWords s 0) a s t := by
  rw [call_eq] at h
  obtain ⟨u, hu, he⟩ := andThen_eq_next.mp h
  cases he
  exact enteredFrame_intoFrame hu a

/-- Settles O49: the frame at FP is the one that the call entered, so the return pops the words that the call pushed. -/
theorem callThenReturn : Obligations.CallThenReturn := by
  intro s t c a n q hcall hregion hn hfp hsame hargs
  obtain ⟨target, hcall⟩ : ∃ target, call target s = .next t := hcall.elim (⟨_, ·⟩) (⟨_, ·⟩)
  have hentered := enteredFrame_of_call hcall
  have hsaved := frameReads_of_call hentered hregion hn
  have hframe : frameAtFp c (savedWords (n :: frameWords s 0)) := by
    constructor
    · intro k h1 hk
      rw [hfp]
      exact hsame k _ h1 hk (hsaved k h1 hk)
    · rw [hfp]
      exact hargs
  obtain ⟨u, hu, -, hleft⟩ := popState_leaves_frame hframe
  obtain ⟨hip, hregs⟩ := reg_of_leftFrame hleft
  obtain ⟨-, -, -, -, -, -, -, -, -, husp, hufp, -⟩ := hleft
  obtain ⟨-, -, htfp, -⟩ := hentered
  rw [hfp, htfp] at husp hufp
  refine ⟨u, hu, hip, hregs, ?_, fun hcounts => hufp.trans (wordBelow_add_frameSize hcounts n 0)⟩
  calc u.reg .sp
    _ = wordAbove (wordBelow (s.reg .sp) 10) (11 + n.toNat) := husp
    _ = wordAbove (s.reg .sp) (1 + n.toNat) := by
      rw [wordAbove_wordBelow_of_le _ (by omega), show 11 + n.toNat - 10 = 1 + n.toNat by omega]

end CallAndReturn

end Sys2Proof.Proofs

/-! The frame counter against FP and SP: pushes, pops and entries of frames keep it at FP minus SP, and a return from a
frame leaves it 8 ahead (45_stack_call.md R246). -/

namespace Sys2Proof.Proofs

open Sys2Proof Sys2Proof.Machine

/-! ### A return from a frame -/

section Returns

variable {s t : State}

/-- A pop moves SP up by as much as the counter down. -/
theorem counter_add_sp_popped (s : State) :
    s.popped.stackFrameSize + s.popped.reg .sp = s.stackFrameSize + s.reg .sp := by
  rw [State.popped_stackFrameSize, State.popped_reg_sp]
  bv_omega

theorem counter_add_sp_of_popRegs {rs : List Reg} (hsp : Reg.sp ∉ rs) (h : popRegs rs s = .next t) :
    t.stackFrameSize + t.reg .sp = s.stackFrameSize + s.reg .sp := by
  induction rs generalizing s with
  | nil =>
    cases h
    rfl
  | cons r rs ih =>
    obtain ⟨v, -, hrest⟩ := popRegs_cons_eq_next.mp h
    obtain ⟨hr, hsp⟩ := not_or.mp (mt List.mem_cons.mpr hsp)
    rw [ih hsp hrest, State.setReg_stackFrameSize, State.reg_setReg_of_ne _ _ hr, counter_add_sp_popped]

theorem counter_add_sp_of_discardWords {n : Nat} (h : discardWords n s = .next t) :
    t.stackFrameSize + t.reg .sp = s.stackFrameSize + s.reg .sp := by
  induction n generalizing s with
  | zero =>
    cases h
    rfl
  | succ n ih =>
    obtain ⟨v, -, hrest⟩ := discardWords_succ_eq_next.mp h
    rw [ih hrest, counter_add_sp_popped]

/-- The counter was loaded with the frame size at 8 above the old FP, which is then advanced by that size; the other pops
keep the sum of counter and SP (45_stack_call.md R245, R246). -/
theorem counter_of_popState (hrestore : s.params.popStateCounter = .restore) (h : popState s = .next t) :
    t.stackFrameSize = t.reg .fp - t.reg .sp + 8 := by
  obtain ⟨size, s2, n, s4, -, hregs, -, hargs, rfl⟩ := popState_eq_next.mp h
  rw [restoreCounter_eq, State.popped_params, State.setReg_params, hrestore] at hregs
  have hsum : s4.stackFrameSize + s4.reg .sp = size + (s.reg .fp + 8) :=
    calc s4.stackFrameSize + s4.reg .sp
      _ = s2.popped.stackFrameSize + s2.popped.reg .sp := counter_add_sp_of_discardWords hargs
      _ = s2.stackFrameSize + s2.reg .sp := counter_add_sp_popped s2
      _ = size + (s.setReg .sp (s.reg .fp)).popped.reg .sp := counter_add_sp_of_popRegs (by decide) hregs
      _ = size + (s.reg .fp + 8) := by rw [State.popped_reg_sp, State.reg_setReg_self]
  rw [State.setReg_stackFrameSize, State.reg_setReg_self, State.reg_setReg_of_ne _ _ (by decide)]
  bv_omega

end Returns

/-- Settles O51: both returns are pops of a frame. -/
theorem counterIsEightAheadAfterReturn : Obligations.CounterIsEightAheadAfterReturn := by
  rintro s t hrestore (hrtc | hrti)
  · exact counter_of_popState hrestore hrtc
  · exact counter_of_popState (s := s.setInHandler false) hrestore hrti

/-! ### Every other instruction -/

/-- Pushes count and the counter is FP minus SP. -/
def CountsFrame (s : State) : Prop :=
  s.params.pushCountsFrame = true ∧ s.stackFrameSize = s.reg .fp - s.reg .sp

/-- Where the outcome is a next state, its counter is FP minus SP. -/
def EndsCounting (x : Result State) : Prop := ∀ t, x = .next t → CountsFrame t

section Counting

variable {s : State} {r : Reg}

theorem endsCounting_next (h : CountsFrame s) : EndsCounting (.next s) := by
  rintro t ht
  cases ht
  exact h

theorem endsCounting_raise (k : FaultKind) (s : State) : EndsCounting (raise k s) :=
  fun t ht => absurd ht (raise_ne_next k s t)

theorem CountsFrame.setReg (h : CountsFrame s) (hsp : r ≠ .sp) (hfp : r ≠ .fp) (v : Word) :
    CountsFrame (s.setReg r v) := by
  obtain ⟨hcounts, hsize⟩ := h
  refine ⟨hcounts, ?_⟩
  rw [State.setReg_stackFrameSize, State.reg_setReg_of_ne _ _ hsp.symm, State.reg_setReg_of_ne _ _ hfp.symm, hsize]

theorem CountsFrame.pushed (h : CountsFrame s) (l : Loc) (v : Word) : CountsFrame (s.pushed l v) := by
  obtain ⟨hcounts, hsize⟩ := h
  refine ⟨hcounts, ?_⟩
  rw [State.pushed_stackFrameSize, countedPush, if_pos hcounts, hsize, State.pushed_reg_sp,
    State.pushed_reg _ _ _ (by decide)]
  bv_omega

theorem CountsFrame.popped (h : CountsFrame s) : CountsFrame s.popped := by
  obtain ⟨hcounts, hsize⟩ := h
  refine ⟨hcounts, ?_⟩
  rw [State.popped_stackFrameSize, hsize, State.popped_reg_sp, State.popped_reg _ (by decide)]
  bv_omega

/-- A frame starts with FP at SP and the counter at 0 (45_stack_call.md R244). -/
theorem countsFrame_of_pushState {t : State} (h : CountsFrame s) (ht : pushState s = .next t) : CountsFrame t := by
  obtain ⟨u, hu, rfl⟩ := (pushState_eq_pushAll s t).mp ht
  have hparams := (sameShape_pushAll hu).1
  refine ⟨(congrArg Params.pushCountsFrame hparams).trans h.1, ?_⟩
  exact (BitVec.sub_self _).symm

theorem endsCounting_push64 (h : CountsFrame s) (v : Word) : EndsCounting (push64 v s) := by
  intro t ht
  obtain ⟨l, -, rfl⟩ := push64_eq_next.mp ht
  exact h.pushed l v

theorem endsCounting_popInto (h : CountsFrame s) (hsp : r ≠ .sp) (hfp : r ≠ .fp) : EndsCounting (execPop r s) := by
  intro t ht
  obtain ⟨p, hp, he⟩ := andThen_eq_next.mp ht
  obtain ⟨v, -, rfl⟩ := pop64_eq_next.mp hp
  cases he
  exact h.popped.setReg hsp hfp v

theorem endsCounting_loadMem (h : CountsFrame s) (hsp : r ≠ .sp) (hfp : r ≠ .fp) (n : Nat) (a : Word) :
    EndsCounting (loadMem n r a s) := by
  intro t ht
  obtain ⟨l, -, rfl⟩ := loadMem_eq_next.mp ht
  exact h.setReg hsp hfp _

theorem endsCounting_memWrite (h : CountsFrame s) (a : Word) (n : Nat) (v : Word) :
    EndsCounting (memWrite a n v s) := by
  intro t ht
  obtain ⟨l, -, rfl⟩ := memWrite_eq_next.mp ht
  exact h

theorem endsCounting_arith (h : CountsFrame s) (hsp : r ≠ .sp) (hfp : r ≠ .fp) (op : ArithOp) (b : Word) :
    EndsCounting (arith op r b s) := by
  unfold arith
  cases op.compute (s.reg r) b with
  | error k => exact endsCounting_raise k s
  | ok res => exact endsCounting_next (h.setReg hsp hfp res)

theorem endsCounting_shift (h : CountsFrame s) (hsp : r ≠ .sp) (hfp : r ≠ .fp) (op : ShiftOp) (n : Word) :
    EndsCounting (shift op r n s) := by
  unfold shift
  split
  · exact endsCounting_next (h.setReg hsp hfp _)
  · exact endsCounting_raise _ s

theorem endsCounting_jump (h : CountsFrame s) (c : Cond) (a : Word) : EndsCounting (jump c a s) := by
  rw [jump_eq]
  exact endsCounting_next (h.setReg (by decide) (by decide) _)

theorem endsCounting_branch (h : CountsFrame s) (c : Cond) (a : Word) : EndsCounting (branch c a s) := by
  intro t ht
  obtain ⟨-, rfl⟩ | ⟨-, l, -, rfl⟩ := branch_eq_next.mp ht
  · exact h
  · exact (h.pushed l _).setReg (by decide) (by decide) a

theorem endsCounting_call (h : CountsFrame s) (a : Word) : EndsCounting (call a s) := by
  intro t ht
  obtain ⟨u, hu, rfl⟩ := call_eq_next.mp ht
  exact (countsFrame_of_pushState h hu).setReg (by decide) (by decide) a

/-- An interrupt is masked, nested, or pushes a count and a frame (60_exceptions.md R320 to R323). -/
theorem endsCounting_handleInterrupt (h : CountsFrame s) (v : Word) : EndsCounting (handleInterrupt v s) := by
  intro t ht
  obtain ⟨-, rfl⟩ | ⟨-, handler, u, -, hu, rfl⟩ := handleInterrupt_eq_next.mp ht
  · exact h
  · have hsaved : CountsFrame u := by
      obtain ⟨-, rfl⟩ | ⟨-, l, -, hframe⟩ := saveInterruptFrame_eq_next.mp hu
      · exact h
      · exact countsFrame_of_pushState (h.pushed l 0) hframe
    exact CountsFrame.setReg (s := u.setInHandler true) hsaved (by decide) (by decide) handler

/-- An instruction other than the two returns writes registers other than SP and FP, or moves SP by pushes and pops. -/
theorem endsCounting_exec (h : CountsFrame s) {i : Instr} (hi : keepsFrameCount i) : EndsCounting (exec i s) := by
  obtain ⟨hrtc, hrti, hsp, hfp⟩ := hi
  have ne_sp : ∀ {q}, destinationOf i = some q → q ≠ .sp := fun hq e => hsp (hq.trans (congrArg some e))
  have ne_fp : ∀ {q}, destinationOf i = some q → q ≠ .fp := fun hq e => hfp (hq.trans (congrArg some e))
  cases i with
  | nop | hlt | clc | sec | clz | sez | cln | sen | clo | seo | cli | sei | cmp | cmpi => exact endsCounting_next h
  | ldi | ldbi | ldwi | lddi | tf | andi | ori | xori | noti | and | or | xor | not =>
    exact endsCounting_next (h.setReg (ne_sp rfl) (ne_fp rfl) _)
  | ldm | ldbm | ldwm | lddm => exact endsCounting_loadMem h (ne_sp rfl) (ne_fp rfl) _ _
  | st | stb | stw | std => exact endsCounting_memWrite h _ _ _
  | addi | subi | muli | divi | modi | mulis | divis | add | sub | mul | div | mod | muls | divs =>
    simp only [exec]
    exact endsCounting_arith h (ne_sp rfl) (ne_fp rfl) _ _
  | shli | shri | rori | roli | shl | shr | ror | rol => exact endsCounting_shift h (ne_sp rfl) (ne_fp rfl) _ _
  | jmp | jeq | jne | jgt | jlt | jge | jle | jmpr | jeqr | jner | jgtr | jltr | jger | jler =>
    simp only [exec]
    exact endsCounting_jump h _ _
  | bra | beq | bne | bgt | blt | bge | ble | brar | beqr | bner | bgtr | bltr | bger | bler =>
    simp only [exec]
    exact endsCounting_branch h _ _
  | push | pushi => exact endsCounting_push64 h _
  | pop => exact endsCounting_popInto h (ne_sp rfl) (ne_fp rfl)
  | ret => exact endsCounting_popInto (r := .ip) h (by decide) (by decide)
  | call | callr => exact endsCounting_call h _
  | int => exact endsCounting_handleInterrupt h _
  | rtc => exact absurd rfl hrtc
  | rti => exact absurd rfl hrti

end Counting

/-- Settles O50: the walk over the instructions, for the counter alone. -/
theorem counterTracksFpMinusSp : Obligations.CounterTracksFpMinusSp := by
  intro i s t hcounts hsize hi ht
  obtain ⟨-, hcounter⟩ := endsCounting_exec ⟨hcounts, hsize⟩ hi t ht
  exact hcounter

end Sys2Proof.Proofs

/-! Flag instructions: each replaces the flags by the old ones with one field changed, and a replacement of the flags
leaves everything else as it was (46_flag_ops.md R280). -/

namespace Sys2Proof.Proofs

open Sys2Proof Sys2Proof.Machine

/-- What an instruction that replaces the flags does, whatever the new flags are. -/
theorem onlyFlags_of_exec_eq_setFlags {i : Instr} {f : Flags} {s : State} (hi : exec i s = .next (s.setFlags f)) :
    ∃ t, exec i s = .next t ∧ onlyFlags f s t :=
  ⟨_, hi, onlyFlags_set s f⟩

/-- Settles O52: each of the ten is a replacement of the flags; the pairs clear and set C, Z, N, O and I. -/
theorem flagInstructionsSetOneFlag : Obligations.FlagInstructionsSetOneFlag := by
  intro s
  exact ⟨onlyFlags_of_exec_eq_setFlags rfl, onlyFlags_of_exec_eq_setFlags rfl,
    onlyFlags_of_exec_eq_setFlags rfl, onlyFlags_of_exec_eq_setFlags rfl,
    onlyFlags_of_exec_eq_setFlags rfl, onlyFlags_of_exec_eq_setFlags rfl,
    onlyFlags_of_exec_eq_setFlags rfl, onlyFlags_of_exec_eq_setFlags rfl,
    onlyFlags_of_exec_eq_setFlags rfl, onlyFlags_of_exec_eq_setFlags rfl⟩

end Sys2Proof.Proofs

/-! An interrupt and its return: the frame of a call under a zero argument count, and the in-handler flag
(47_interrupt_ops.md R290, R291). -/

namespace Sys2Proof.Proofs

open Sys2Proof Sys2Proof.Machine

section InterruptAndReturn

variable {s t c : State} {w : Nat → Word} {v handler : Word}

/-- The in-handler flag is no part of a frame: clearing it before the pop leaves the rest to the pop. -/
theorem returnFromInterrupt_leaves_frame (h : frameAtFp s w) :
    ∃ t, returnFromInterrupt s = .next t ∧ t.flags = { s.flags with i := false } ∧ leftFrame w s t := by
  have hcleared : frameAtFp (s.setInHandler false) w := h
  exact popState_leaves_frame hcleared

/-- Settles O56: RTI is the pop of the frame at FP once the in-handler flag is cleared. -/
theorem returnFromInterruptLeavesTheFrame : Obligations.ReturnFromInterruptLeavesTheFrame :=
  fun _ _ h => returnFromInterrupt_leaves_frame h

/-- An interrupt that completes outside a handler has entered a frame whose words are the zero count and those of a call
(60_exceptions.md R322). -/
theorem enteredFrame_of_handleInterrupt (hmask : (s.reg .im).getLsbD (v.toNat % 64) = true) (hout : s.flags.i = false)
    (h : handleInterrupt v s = .next t) : ∃ handler, enteredFrame (0 :: frameWords s 1) handler s t := by
  obtain ⟨hmasked, -⟩ | ⟨-, handler, s1, -, hsave, rfl⟩ := handleInterrupt_eq_next.mp h
  · exact absurd (hmask.symm.trans hmasked) (by decide)
  · obtain ⟨u, hu, rfl⟩ := (saveInterruptFrame_eq_pushAll hout).mp hsave
    exact ⟨handler, enteredFrame_intoFrame hu handler⟩

/-- The frame of an interrupt reads back, its argument count too, for the entry has pushed it. -/
theorem frameReads_of_interrupt (h : enteredFrame (0 :: frameWords s 1) handler s t) (hregion : oneStackRegion s 11) :
    frameReads t (savedWords (0 :: frameWords s 1)) 11 :=
  fun _ h1 hk => wordIs_of_enteredFrame h hregion h1 hk

/-- A frame without arguments can be popped in every state with its FP where its eleven words read the same. -/
theorem frameAtFp_of_frameReads (hread : frameReads t w 11) (hnone : w 11 = 0) (hfp : c.reg .fp = t.reg .fp)
    (hsame : ∀ k v, 1 ≤ k → k ≤ 11 → wordIs t (wordAbove (t.reg .fp) k) v → wordIs c (wordAbove (t.reg .fp) k) v) :
    frameAtFp c w := by
  constructor
  · intro k h1 hk
    rw [hfp]
    exact hsame k _ h1 hk (hread k h1 hk)
  · intro k h1 hk
    rw [hnone] at hk
    exact absurd hk (Nat.not_le.mpr h1)

/-- Settles O57: the frame at FP is the one that the interrupt entered, so the return pops the words that the entry
pushed, the zero count last, and SP is back above all eleven. -/
theorem interruptThenReturn : Obligations.InterruptThenReturn := by
  intro s t c v hmask hout hint hregion hfp hsame
  obtain ⟨handler, hentered⟩ := enteredFrame_of_handleInterrupt hmask hout hint
  have hsaved := frameReads_of_interrupt hentered hregion
  obtain ⟨u, hu, hflags, hleft⟩ :=
    returnFromInterrupt_leaves_frame (frameAtFp_of_frameReads hsaved rfl hfp hsame)
  obtain ⟨hip, hregs⟩ := reg_of_leftFrame hleft
  obtain ⟨-, -, -, -, -, -, -, -, -, husp, hufp, -⟩ := hleft
  obtain ⟨-, -, htfp, -⟩ := hentered
  rw [hfp, htfp] at husp hufp
  refine ⟨u, hu, hip, hregs, ?_, hflags, fun hcounts => hufp.trans (wordBelow_add_frameSize hcounts 0 1)⟩
  calc u.reg .sp
    _ = wordAbove (wordBelow (s.reg .sp) 11) 11 := husp
    _ = wordBelow (s.reg .sp) 0 := wordAbove_wordBelow _ 11 11 le_rfl
    _ = s.reg .sp := BitVec.sub_zero _

end InterruptAndReturn

end Sys2Proof.Proofs

/-! Interrupt entry: the vector is read where the line is unmasked, and a frame is saved outside a handler alone; a
hardware request takes the same path (60_exceptions.md R320 to R324). -/

namespace Sys2Proof.Proofs

open Sys2Proof Sys2Proof.Machine

/-! ### The three moves of a step -/

section Moves

variable {s : State} {v : Word}

theorem step_of_nextMove_step (hrun : s.run = .running) (hmove : s.nextMove = .step) :
    step s = stepInstruction s.dropMove := by
  rw [step, hrun, hmove]

theorem step_of_nextMove_deliver (hrun : s.run = .running) (hmove : s.nextMove = .deliver v) :
    step s = handleInterrupt v s.dropMove := by
  rw [step, hrun, hmove]

/-- A stopped engine does not move (60_exceptions.md R344). -/
theorem step_of_not_running (h : s.run ≠ .running) : step s = .next s := by
  unfold step
  split
  · next hrun => exact absurd hrun h
  · rfl
  · rfl

end Moves

/-- Settles O9: INT is interrupt entry, and so is a delivery, in the state with the host's move taken. -/
theorem deliveryTakesThePathOfInt : Obligations.DeliveryTakesThePathOfInt :=
  fun _ _ hrun hmove => step_of_nextMove_deliver hrun hmove

/-! ### Masked, nested, and outside a handler -/

section Entry

variable {s : State} {v handler : Word}

/-- A masked line ends interrupt entry before the vector is read (60_exceptions.md R321). -/
theorem handleInterrupt_of_masked (hmask : (s.reg .im).getLsbD (v.toNat % 64) = false) :
    handleInterrupt v s = .next s :=
  handleInterrupt_eq_next.mpr (.inl ⟨hmask, rfl⟩)

/-- Settles O53: the mask is tested first, and taking the host's move does not touch it. -/
theorem maskedInterruptChangesNothing : Obligations.MaskedInterruptChangesNothing :=
  fun s _ hmask => ⟨handleInterrupt_of_masked hmask, fun hrun hmove =>
    (step_of_nextMove_deliver hrun hmove).trans (handleInterrupt_of_masked (s := s.dropMove) hmask)⟩

theorem setInHandler_of_inHandler (h : s.flags.i = true) : s.setInHandler true = s := by
  have hflags : ({ s.flags with i := true } : Flags) = s.flags := by rw [← h]
  rw [State.setInHandler, hflags]
  rfl

/-- In a handler nothing is saved and the in-handler flag is already set: what is left is the jump
(60_exceptions.md R323). -/
theorem handleInterrupt_of_nested (hmask : (s.reg .im).getLsbD (v.toNat % 64) = true) (hin : s.flags.i = true)
    (hvector : wordIs s (vectorAddress s.params (v.toNat % 64)) handler) :
    handleInterrupt v s = .next (s.setReg .ip handler) := by
  have hsave : saveInterruptFrame s = .next s := saveInterruptFrame_eq_next.mpr (.inl ⟨hin, rfl⟩)
  have hjump : s.setReg .ip handler = (s.setInHandler true).setReg .ip handler := by
    rw [setInHandler_of_inHandler hin]
  exact handleInterrupt_eq_next.mpr (.inr ⟨hmask, handler, s, hvector, hsave, hjump⟩)

/-- Settles O55: the jump writes IP alone. -/
theorem nestedInterruptOnlyJumps : Obligations.NestedInterruptOnlyJumps :=
  fun s _ handler hmask hin hvector =>
    ⟨_, handleInterrupt_of_nested hmask hin hvector, onlyRegister_set s .ip handler⟩

/-- Settles O54: eleven pushes that can be made are made, and the in-handler flag is no part of the frame they enter. -/
theorem interruptEntrySavesAFrame : Obligations.InterruptEntrySavesAFrame := by
  intro s v handler hmask hout hvector hpushable
  obtain ⟨u, hu⟩ := pushAll_completes (ws := 0 :: frameWords s 1) hpushable
  obtain ⟨-, -, hflags, -⟩ := pushAll_frame hu
  have hsave := (saveInterruptFrame_eq_pushAll hout).mpr ⟨u, hu, rfl⟩
  have hentry := handleInterrupt_eq_next.mpr (.inr ⟨hmask, handler, _, hvector, hsave, rfl⟩)
  exact ⟨_, hentry, congrArg (fun f : Flags => { f with i := true }) hflags, enteredFrame_intoFrame hu handler⟩

end Entry

end Sys2Proof.Proofs

/-! Opcodes outside the map: the fetch stops after the opcode's two bytes, before any operand byte
(48_misc.md R302). -/

namespace Sys2Proof.Proofs

open Sys2Proof Sys2Proof.Machine

section IllegalOpcode

variable {s : State} {m : OpcodeMap} {op : BitVec 16} {bs : List Byte}

theorem layoutOf_eq_none (h : op.toNat ∉ m.map Prod.fst) : layoutOf m op = none := by
  refine Option.eq_none_iff_forall_ne_some.mpr fun l hl => ?_
  obtain ⟨n, hrow, -⟩ := layoutOf_eq_some hl
  exact h (List.mem_map_of_mem (f := Prod.fst) hrow)

/-- Two bytes fit the 16 bits of an opcode (30_encoding.md R105). -/
theorem toNat_fetchedOpcode (hlen : bs.length = 2) : (fetchedOpcode bs).toNat = leNat bs := by
  have hlt := leNat_lt bs
  rw [hlen] at hlt
  exact (BitVec.toNat_ofNat ..).trans (Nat.mod_eq_of_lt hlt)

theorem length_of_memReadBytes {a : Word} {n : Nat} (h : memReadBytes s a n = .next bs) : bs.length = n := by
  obtain ⟨l, hl, rfl⟩ := memReadBytes_eq_next.mp h
  exact length_loadAt (dev_lt_of_locate hl)

theorem fetchInstr_of_not_mem (hfetch : memReadBytes s (s.reg .ip) 2 = .next bs)
    (hop : leNat bs ∉ s.params.opcodeMap.map Prod.fst) :
    fetchInstr s = raise (.invalidOpcode (fetchedOpcode bs)) (s.setReg .ip (s.reg .ip + 2)) := by
  have hopcode := fetchBytes_eq_next.mpr ⟨bs, hfetch, rfl⟩
  have hnone : layoutOf s.params.opcodeMap (fetchedOpcode bs) = none :=
    layoutOf_eq_none (by rwa [toNat_fetchedOpcode (length_of_memReadBytes hfetch)])
  rw [fetchInstr, hopcode, andThen_next, hnone]
  rfl

/-- The rows of the spec's map have different 16-bit opcodes, one for each mnemonic (30_encoding.md R109, R110). -/
theorem opcodeMap_wf : opcodeMap.wf = true := by decide +kernel

/-- Settles O5: the map by counting, the fault from the fetch, which taking the host's move does not touch. -/
theorem illegalOpcodeFaults : Obligations.IllegalOpcodeFaults := by
  refine ⟨⟨rfl, opcodeMap_wf, fun _ _ _ => rfl⟩, fun s bs hrun hmove hfetch hop => ?_⟩
  have hfault := fetchInstr_of_not_mem (s := s.dropMove) hfetch hop
  rw [step_of_nextMove_step hrun hmove, stepInstruction, hfault, andThen_raise]
  rfl

end IllegalOpcode

end Sys2Proof.Proofs

/-! The run state: one walk over the shared operations and over every instruction. Where an instruction other than HLT
answers, the engine still runs, so that a stop without a fault is HLT's (48_misc.md R301, 60_exceptions.md R344). -/

namespace Sys2Proof.Proofs

open Sys2Proof Sys2Proof.Machine

/-- Settles O58: the two instructions by their meanings. -/
theorem nopAndHalt : Obligations.NopAndHalt :=
  fun _ => ⟨rfl, rfl⟩

/-! ### Answers in a running engine -/

/-- Where the statement answers, it leaves the engine running; of a fault nothing is said. -/
def AnswersRunning {α : Type} (state : α → State) (x : Result α) : Prop :=
  ∀ a, x = .next a → (state a).run = .running

section Operations

variable {s : State}

theorem answersRunning_next {α : Type} {state : α → State} {a : α} (h : (state a).run = .running) :
    AnswersRunning state (.next a) := by
  rintro _ ⟨⟩
  exact h

theorem answersRunning_raise {α : Type} {state : α → State} (k : FaultKind) (s : State) :
    AnswersRunning state (raise k s) :=
  fun a ha => absurd ha (raise_ne_next k s a)

theorem AnswersRunning.andThen {α β : Type} {state : α → State} {state' : β → State} {x : Result α}
    {f : α → Result β} (h : AnswersRunning state x) (hf : ∀ a, (state a).run = .running → AnswersRunning state' (f a)) :
    AnswersRunning state' (andThen x f) := by
  intro b hb
  obtain ⟨a, ha, hb⟩ := andThen_eq_next.mp hb
  exact hf a (h a ha) b hb

theorem answersRunning_during {α β : Type} {state : β → State} {x : Access α} {f : α → Result β}
    (hf : ∀ a, AnswersRunning state (f a)) : AnswersRunning state (during s x f) := by
  intro b hb
  obtain ⟨a, -, hb⟩ := during_eq_next.mp hb
  exact hf a b hb

/-! #### Memory and the stack -/

theorem answersRunning_memWrite (h : s.run = .running) (a : Word) (n : Nat) (v : Word) :
    AnswersRunning id (memWrite a n v s) :=
  answersRunning_during fun _ => answersRunning_next h

theorem answersRunning_push64 (h : s.run = .running) (v : Word) : AnswersRunning id (push64 v s) := by
  intro t ht
  obtain ⟨l, -, rfl⟩ := push64_eq_next.mp ht
  exact h

theorem answersRunning_pop64 (h : s.run = .running) : AnswersRunning Prod.snd (pop64 s) :=
  answersRunning_during fun _ => answersRunning_next h

theorem answersRunning_popRegs (h : s.run = .running) (rs : List Reg) : AnswersRunning id (popRegs rs s) := by
  induction rs generalizing s with
  | nil => exact answersRunning_next h
  | cons r rs ih => exact (answersRunning_pop64 h).andThen fun _ h1 => ih h1

theorem answersRunning_discardWords (h : s.run = .running) (n : Nat) : AnswersRunning id (discardWords n s) := by
  induction n generalizing s with
  | zero => exact answersRunning_next h
  | succ n ih => exact (answersRunning_pop64 h).andThen fun _ h1 => ih h1

/-! #### Frames and interrupts -/

theorem answersRunning_pushState (h : s.run = .running) : AnswersRunning id (pushState s) := by
  intro t ht
  obtain ⟨u, hu, rfl⟩ := (pushState_eq_pushAll s t).mp ht
  obtain ⟨-, -, -, hrun, -⟩ := pushAll_frame hu
  exact hrun.trans h

theorem restoreCounter_run (size : Word) (s : State) : (restoreCounter size s).run = s.run := by
  rw [restoreCounter_eq]
  rfl

theorem answersRunning_popState (h : s.run = .running) : AnswersRunning id (popState s) := by
  refine (answersRunning_pop64 (s := s.setReg .sp (s.reg .fp)) h).andThen fun p h1 => ?_
  refine (answersRunning_popRegs ((restoreCounter_run p.1 p.2).trans h1) _).andThen fun s2 h2 => ?_
  refine (answersRunning_pop64 h2).andThen fun q h3 => ?_
  exact (answersRunning_discardWords h3 _).andThen fun _ h4 => answersRunning_next h4

theorem answersRunning_saveInterruptFrame (h : s.run = .running) : AnswersRunning id (saveInterruptFrame s) := by
  unfold saveInterruptFrame
  split
  · exact answersRunning_next h
  · exact (answersRunning_push64 h 0).andThen fun _ h1 => answersRunning_pushState h1

theorem answersRunning_handleInterrupt (h : s.run = .running) (v : Word) :
    AnswersRunning id (handleInterrupt v s) := by
  intro t ht
  obtain ⟨-, rfl⟩ | ⟨-, handler, u, -, hu, rfl⟩ := handleInterrupt_eq_next.mp ht
  · exact h
  · exact answersRunning_saveInterruptFrame h u hu

/-! #### Fetch -/

theorem answersRunning_fetchBytes (h : s.run = .running) (n : Nat) : AnswersRunning Prod.snd (fetchBytes n s) :=
  answersRunning_during fun _ => answersRunning_next h

theorem answersRunning_fetchFields (h : s.run = .running) (ns : List Nat) :
    AnswersRunning Prod.snd (fetchFields ns s) := by
  induction ns generalizing s with
  | nil => exact answersRunning_next h
  | cons n ns ih =>
    exact (answersRunning_fetchBytes h n).andThen fun _ h1 => (ih h1).andThen fun _ h2 => answersRunning_next h2

theorem answersRunning_fetchInstr (h : s.run = .running) : AnswersRunning Prod.snd (fetchInstr s) := by
  rintro ⟨i, t⟩ hp
  obtain ⟨_, l, cs, _, -, -, hfields, -⟩ := fetchInstr_eq_next.mp hp
  exact answersRunning_fetchFields (s := s.setReg .ip (s.reg .ip + 2)) h l.fields (cs, t) hfields

/-! #### The families of instructions -/

theorem answersRunning_loadMem (h : s.run = .running) (n : Nat) (r : Reg) (a : Word) :
    AnswersRunning id (loadMem n r a s) :=
  answersRunning_during fun _ => answersRunning_next h

theorem answersRunning_arith (h : s.run = .running) (op : ArithOp) (r : Reg) (b : Word) :
    AnswersRunning id (arith op r b s) := by
  unfold arith
  cases op.compute (s.reg r) b with
  | error k => exact answersRunning_raise k s
  | ok res => exact answersRunning_next h

theorem answersRunning_shift (h : s.run = .running) (op : ShiftOp) (r : Reg) (n : Word) :
    AnswersRunning id (shift op r n s) := by
  unfold shift
  split
  · exact answersRunning_next h
  · exact answersRunning_raise _ s

theorem answersRunning_jump (h : s.run = .running) (c : Cond) (a : Word) : AnswersRunning id (jump c a s) := by
  rw [jump_eq]
  exact answersRunning_next h

theorem answersRunning_branch (h : s.run = .running) (c : Cond) (a : Word) : AnswersRunning id (branch c a s) := by
  intro t ht
  obtain ⟨-, rfl⟩ | ⟨-, l, -, rfl⟩ := branch_eq_next.mp ht
  · exact h
  · exact h

theorem answersRunning_popInto (h : s.run = .running) (r : Reg) : AnswersRunning id (execPop r s) :=
  (answersRunning_pop64 h).andThen fun _ h1 => answersRunning_next h1

theorem answersRunning_call (h : s.run = .running) (a : Word) : AnswersRunning id (call a s) :=
  (answersRunning_pushState h).andThen fun _ h1 => answersRunning_next h1

/-! #### Every instruction -/

/-- No instruction but HLT writes the run state where it answers (60_exceptions.md R344). -/
theorem answersRunning_exec (h : s.run = .running) {i : Instr} (hi : i ≠ .hlt) : AnswersRunning id (exec i s) := by
  cases i with
  | hlt => exact absurd rfl hi
  | nop | ldi | ldbi | ldwi | lddi | tf => exact answersRunning_next h
  | andi | ori | xori | noti | and | or | xor | not => exact answersRunning_next h
  | cmp | cmpi => exact answersRunning_next h
  | clc | sec | clz | sez | cln | sen | clo | seo | cli | sei => exact answersRunning_next h
  | ldm | ldbm | ldwm | lddm => exact answersRunning_loadMem h _ _ _
  | st | stb | stw | std => exact answersRunning_memWrite h _ _ _
  | addi | subi | muli | divi | modi | mulis | divis | add | sub | mul | div | mod | muls | divs =>
    simp only [exec]
    exact answersRunning_arith h _ _ _
  | shli | shri | rori | roli | shl | shr | ror | rol => exact answersRunning_shift h _ _ _
  | jmp | jeq | jne | jgt | jlt | jge | jle | jmpr | jeqr | jner | jgtr | jltr | jger | jler =>
    simp only [exec]
    exact answersRunning_jump h _ _
  | bra | beq | bne | bgt | blt | bge | ble | brar | beqr | bner | bgtr | bltr | bger | bler =>
    simp only [exec]
    exact answersRunning_branch h _ _
  | push | pushi => exact answersRunning_push64 h _
  | pop | ret => exact answersRunning_popInto h _
  | call | callr => exact answersRunning_call h _
  | rtc => exact answersRunning_popState h
  | int => exact answersRunning_handleInterrupt h _
  | rti => exact answersRunning_popState (s := s.setInHandler false) h

end Operations

/-! ### The one stop without a fault -/

/-- Settles O8: a delivery leaves the engine running, and so does an instruction step unless it has fetched HLT; a
stopped engine has no move. -/
theorem haltIsTheOnlyStop : Obligations.HaltIsTheOnlyStop := by
  refine ⟨fun s t hrun hstep => ?_, fun _ => step_of_not_running⟩
  cases hmove : s.nextMove with
  | deliver v =>
    rw [step_of_nextMove_deliver hrun hmove] at hstep
    exact .inl (answersRunning_handleInterrupt (s := s.dropMove) hrun v t hstep)
  | step =>
    rw [step_of_nextMove_step hrun hmove] at hstep
    obtain ⟨⟨i, u⟩, hfetch, hexec⟩ := andThen_eq_next.mp hstep
    have hu : u.run = .running := answersRunning_fetchInstr (s := s.dropMove) hrun _ hfetch
    by_cases hi : i = .hlt
    · subst hi
      cases hexec
      exact .inr ⟨rfl, rfl, u, hfetch⟩
    · exact .inl (answersRunning_exec hu hi t hexec)

end Sys2Proof.Proofs
